-- ==== Sys2Proof/Word.lean ====
section
/-! DEFINITION. The value types: bytes, and bit vectors that carry their width (00_scope.md R10, R11). -/

namespace Sys2Proof

/-- A byte a host may store a pattern in (20_memory.md R30). The blocks themselves have no bytes. -/
abbrev Byte := BitVec 8

/-- A value written `x{w}` in the spec: `bits` of width `width`, bit 0 least significant (R10). -/
structure Bits where
  width : Nat
  bits : BitVec width
deriving DecidableEq, Repr

/-- `uint(v)` of R11. -/
def Bits.uint (v : Bits) : Nat := v.bits.toNat

/-- `sint(v)` of R11: the two's-complement reading. -/
def Bits.sint (v : Bits) : Int := v.bits.toInt

/-- A value of known width, tagged with it. -/
def Bits.of {w : Nat} (v : BitVec w) : Bits := ⟨w, v⟩

end Sys2Proof
end

