-- ==== Sys2Proof/Config.lean ====
section
/-! DEFINITION. The configuration (N, es), its legality, the reasons an illegal one is refused, and the free value of the void outputs. -/

namespace Sys2Proof

/-- A legal configuration (00_scope.md R7, 10_state.md R20): the two integers fixed when an instance
is built, with the proof that `N >= 2` and `0 <= es <= N - 2`. No instance exists for any other pair
(60_exceptions.md R87), so none can be written down here. -/
structure Cfg where
  /-- Total width of a posit in bits. -/
  N : Nat
  /-- Width of the exponent field in bits. -/
  es : Nat
  two_le_N : 2 ≤ N
  es_add_two_le_N : es + 2 ≤ N
deriving DecidableEq, Repr

/-- The three reasons of the configuration error (60_exceptions.md R87; 92_eei_decisions.md D13), and
the one a realisation with a largest N adds (93_implementation_defined.md I9). -/
inductive ConfigErrorReason where
  | nTooSmall
  | esNegative
  | fractionWidthNegative
  /-- Not a source rule: raised only by `constructBounded`, for a realisation that has an N_MAX. -/
  | nAboveMax
deriving DecidableEq, Repr

/-- The source's default of N (00_scope.md R6). There is no default of es (92_eei_decisions.md D19). -/
def Cfg.defaultN : Nat := 8

/-- The configuration of `State.reset`: N = 8, es = 0. DESIGN CHOICE (log 1): the spec gives no
configuration before construction; this is the one of the source's only worked examples (95_test_vectors.md section 1). -/
def Cfg.atReset : Cfg := ⟨Cfg.defaultN, 0, by decide, by decide⟩

/-- The free values of the void decoder outputs (10_state.md R24, 93_implementation_defined.md I1):
draw number `draw`, of width `w`. It has no body, so nothing can be proved of any value it gives (log 4).
All instances share it (DESIGN CHOICE, log 17). -/
opaque Cfg.voidBits (w : Nat) (draw : Nat) : BitVec w

end Sys2Proof
end

