-- ==== Sys2Proof/Machine/Primitives.lean ====
section
/-! DEFINITION. The primitives of the notation (00_scope.md R10 to R12) and the derived widths (R8). -/

namespace Sys2Proof.Machine

/-- The zero bits of `v` from bit `n - 1` downwards, up to the first 1. -/
def zerosBelow {w : Nat} (v : BitVec w) : Nat → Nat
  | 0 => 0
  | n + 1 => if v.getLsbD n then 0 else zerosBelow v n + 1

/-- `clz_w(v)` of R12: the leading zero bits, `w` when `v = 0`. -/
def clz {w : Nat} (v : BitVec w) : Nat := zerosBelow v w

/-- `orr(v)` of R12: the OR of all bits, 0 for an empty `v`. -/
def orr {w : Nat} (v : BitVec w) : Bool := v != 0#w

/-- `rep_w(b)` of R12: `b^w`. -/
def rep (w : Nat) (b : Bool) : BitVec w := if b then BitVec.allOnes w else 0#w

/-- `clog2(n)` of R8: the least `w` with `2^w >= n`. -/
def clog2 (n : Nat) : Nat := if n ≤ 1 then 0 else Nat.log2 (n - 1) + 1

end Sys2Proof.Machine

namespace Sys2Proof.Cfg

/-- fractionFieldWidth, with the implicit-bit marker. -/
abbrev F (c : Cfg) : Nat := c.N - c.es - 2

/-- Width of the decoder's `Frac` port. -/
abbrev FW (c : Cfg) : Nat := max c.F 1

/-- Width of the decoder's `Exp` port. -/
abbrev EW (c : Cfg) : Nat := max c.es 1

/-- Width of the unsigned regime magnitude. -/
abbrev RFW (c : Cfg) : Nat := Sys2Proof.Machine.clog2 c.N

/-- Width of the signed regime `k`. -/
abbrev KW (c : Cfg) : Nat := c.RFW + 1

/-- Width of one operand's signed scale factor. -/
abbrev SFW (c : Cfg) : Nat := c.RFW + 1 + c.es

/-- Width of the scale-factor sum. -/
abbrev SSW (c : Cfg) : Nat := c.SFW + 1

/-- Width of the significand product. -/
abbrev PW (c : Cfg) : Nat := 2 * c.FW

/-- Width of the normalised product fraction. -/
abbrev FRW (c : Cfg) : Nat := 2 * c.FW - 1

/-- Width of the packed regime head, exponent and fraction. -/
abbrev PKW (c : Cfg) : Nat := 2 + c.es + c.FRW

/-- Width of the dynamic shifter's output. -/
abbrev WX (c : Cfg) : Nat := (c.N - 2) + c.PKW

/-- The marker and the fraction bits below it fill the Frac port. -/
theorem one_add_FW (c : Cfg) : 1 + (c.FW - 1) = c.FW :=
  Nat.add_sub_cancel' (Nat.le_max_right c.F 1)

/-- `P[PW-3:0] ‖ 0` has FRW bits. -/
theorem PW_sub_two_add_one (c : Cfg) : c.PW - 2 + 1 = c.FRW := by
  have := Nat.le_max_right c.F 1
  show 2 * max c.F 1 - 2 + 1 = 2 * max c.F 1 - 1
  omega

end Sys2Proof.Cfg
end

