-- ==== Sys2Proof/Machine/Flags.lean ====
section
/-! DEFINITION. The flags: the decoder's special-value detector (40_decoder.md R53) and the multiplier's selects made from it (41_multiplier.md R68). -/

namespace Sys2Proof.Machine

/-- The internal signal `nz`: some non-sign bit is 1 (R53). -/
def nonzeroBody {c : Cfg} (X : BitVec c.N) : Bool := orr (X.extractLsb' 0 (c.N - 1))

/-- `isZero`: X = 0^N (R53; 90_conflicts.md C1). -/
def isZeroFlag {c : Cfg} (X : BitVec c.N) : Bool := !X.msb && !nonzeroBody X

/-- `isNaR`: X = 1 ‖ 0^(N-1) (R53). -/
def isNaRFlag {c : Cfg} (X : BitVec c.N) : Bool := X.msb && !nonzeroBody X

/-- `resNaR`: NaR takes precedence over zero (R68; 60_exceptions.md R90). -/
def resNaRSelect (aNaR bNaR : Bool) : Bool := aNaR || bNaR

/-- `resZero` (R68). -/
def resZeroSelect (aZero bZero resNaR : Bool) : Bool := (aZero || bZero) && !resNaR

end Sys2Proof.Machine
end

