-- ==== Sys2Proof/Machine/Signals.lean ====
section
/-! DEFINITION. The signals of the two blocks, each of the width 00_scope.md R8 gives it. One-bit signals are Bool. -/

namespace Sys2Proof.Machine

/-- The decoder's output ports (10_state.md R21). -/
structure DecodedPorts (c : Cfg) where
  sign : Bool
  isZero : Bool
  isNaR : Bool
  regSign : Bool
  regMag : BitVec c.RFW
  reg : BitVec c.KW
  exp : BitVec c.EW
  frac : BitVec c.FW
deriving DecidableEq, Repr

/-- What one decoder drives on the outputs that 10_state.md R24 leaves unspecified, at one evaluation on
zero or NaR: `RegSign`, `RegMag`, `Reg`, `Exp` and `Frac[FW-2:0]`. -/
structure Voids (c : Cfg) where
  regSign : Bool
  regMag : BitVec c.RFW
  reg : BitVec c.KW
  exp : BitVec c.EW
  fracLow : BitVec (c.FW - 1)
deriving DecidableEq, Repr

/-- The signals of MUL (41_multiplier.md R82), by the names of its pseudocode. -/
structure MulSignals (c : Cfg) where
  resNaR : Bool
  resZero : Bool
  s : Bool
  sfA : BitVec c.SFW
  sfB : BitVec c.SFW
  P : BitVec c.PW
  ovf : Bool
  FR : BitVec c.FRW
  SS : BitVec c.SSW
  K : BitVec (c.SSW - c.es)
  E : BitVec c.es
  satHi : Bool
  satLo : Bool
  pos : Bool
  PK : BitVec c.PKW
  sh : Nat
  SH : BitVec c.WX
  trunc : BitVec (c.N - 1)
  L : Bool
  G : Bool
  Rb : Bool
  St : Bool
  rnd : Bool
  mag : BitVec (c.N - 1)
  res : BitVec c.N
deriving DecidableEq, Repr

end Sys2Proof.Machine
end

