-- ==== Sys2Proof/Machine/Decoder.lean ====
section
/-! DEFINITION. The decoder block (40_decoder.md R53 to R61), one definition per sub-block, and its void outputs (10_state.md R24). -/

namespace Sys2Proof.Machine

/-- Two's-complement normaliser: the magnitude view Y (R55). -/
def magnitudeView {c : Cfg} (X : BitVec c.N) : BitVec (c.N - 1) :=
  if X.msb then -(X.extractLsb' 0 (c.N - 1)) else X.extractLsb' 0 (c.N - 1)

/-- Regime check bit `rc = Y[N-2]` (R56). -/
def regimeCheckBit {c : Cfg} (Y : BitVec (c.N - 1)) : Bool := Y.msb

/-- Regime run-length detector: `m = clz(Y XOR rep(rc))` (R57). -/
def runLengthOf {c : Cfg} (Y : BitVec (c.N - 1)) : Nat :=
  clz (Y ^^^ rep (c.N - 1) (regimeCheckBit Y))

/-- `rm = m - 1`, of RFW bits (R58). -/
def regimeMagnitude {c : Cfg} (Y : BitVec (c.N - 1)) : BitVec c.RFW :=
  BitVec.ofNat c.RFW (runLengthOf Y - 1)

/-- Two's-complement regime arithmetic (R58; 90_conflicts.md C2). -/
def signedRegime {c : Cfg} (Y : BitVec (c.N - 1)) : BitVec c.KW :=
  if regimeCheckBit Y then (regimeMagnitude Y).setWidth c.KW else ~~~((regimeMagnitude Y).setWidth c.KW)

/-- The bits after the terminator, left-aligned: `U = (Y << (m + 1)) mod 2^(N-1)` (R59; 90_conflicts.md C10). -/
def afterRegime {c : Cfg} (Y : BitVec (c.N - 1)) : BitVec (c.N - 1) := Y <<< (runLengthOf Y + 1)

/-- Exponent extractor: `U[N-2 : N-1-es]`, or the placeholder 0 when `es = 0` (R59). -/
def exponentField {c : Cfg} (Y : BitVec (c.N - 1)) : BitVec c.EW :=
  if 0 < c.es then (afterRegime Y).extractLsb' (c.N - 1 - c.es) c.EW else 0#c.EW

/-- The FW - 1 fraction bits `U[N-2-es : 2]` (R60; 92_eei_decisions.md D7). -/
def fractionField {c : Cfg} (Y : BitVec (c.N - 1)) : BitVec (c.FW - 1) :=
  (afterRegime Y).extractLsb' 2 (c.FW - 1)

/-- `marker ‖ low`, the layout of the Frac port (R60). -/
def fracPort {c : Cfg} (marker : Bool) (low : BitVec (c.FW - 1)) : BitVec c.FW :=
  (BitVec.ofBool marker ++ low).cast c.one_add_FW

/-- The pseudocode of DECODE (R61), which a straightforward realisation drives on every input. -/
def decodeCircuit {c : Cfg} (X : BitVec c.N) : DecodedPorts c :=
  let Y := magnitudeView X
  { sign := X.msb
    isZero := isZeroFlag X
    isNaR := isNaRFlag X
    regSign := regimeCheckBit Y
    regMag := regimeMagnitude Y
    reg := signedRegime Y
    exp := exponentField Y
    frac := fracPort (nonzeroBody X) (fractionField Y) }

/-- DECODE (R61) with the void outputs unspecified (10_state.md R24): on zero and NaR they are `v`, and only
`Sign`, the flags and the marker keep their defined values. -/
def decodePorts {c : Cfg} (v : Voids c) (X : BitVec c.N) : DecodedPorts c :=
  let d := decodeCircuit X
  if d.isZero || d.isNaR then
    { d with regSign := v.regSign, regMag := v.regMag, reg := v.reg, exp := v.exp, frac := fracPort (nonzeroBody X) v.fracLow }
  else d

/-- The five free values that one decoder evaluation draws, from draw number `n` on (93_implementation_defined.md I1; log 4).
DESIGN CHOICE (log 17): the draw depends on its number and width alone, so instances with equal counters draw equal
values; whether the void outputs of two instances coincide is left open (10_state.md R24, 60_exceptions.md R96). -/
def drawVoids (c : Cfg) (n : Nat) : Voids c where
  regSign := (Cfg.voidBits 1 n).msb
  regMag := Cfg.voidBits c.RFW (n + 1)
  reg := Cfg.voidBits c.KW (n + 2)
  exp := Cfg.voidBits c.EW (n + 3)
  fracLow := Cfg.voidBits (c.FW - 1) (n + 4)

/-- How many draws one decoder evaluation takes. -/
def drawsPerDecode : Nat := 5

end Sys2Proof.Machine
end

