-- ==== Sys2Proof/Machine/Multiplier.lean ====
section
/-! DEFINITION. The multiplier block (41_multiplier.md R67 to R82), one definition per stage. -/

namespace Sys2Proof.Machine

/-- Decoded-operand combiner: `Reg ‖ Exp[es-1:0]` (R70; the es = 0 placeholder is not concatenated). -/
def scaleFactorOf {c : Cfg} (d : DecodedPorts c) : BitVec c.SFW := d.reg ++ d.exp.extractLsb' 0 c.es

/-- Significand multiplier: the exact product (R71; any architecture, 92_eei_decisions.md D15). -/
def significandProduct {c : Cfg} (a b : BitVec c.FW) : BitVec c.PW := a.setWidth c.PW * b.setWidth c.PW

/-- Dynamic normaliser: the product's bits below its leading one, left-aligned (R72). -/
def normalisedFraction {c : Cfg} (P : BitVec c.PW) : BitVec c.FRW :=
  if P.msb then P.extractLsb' 0 c.FRW else (P.extractLsb' 0 (c.PW - 2) ++ 0#1).cast c.PW_sub_two_add_one

/-- Scale-factor adder (R73). -/
def scaleFactorSum {c : Cfg} (sfA sfB : BitVec c.SFW) (ovf : Bool) : BitVec c.SSW :=
  sfA.signExtend c.SSW + sfB.signExtend c.SSW + (BitVec.ofBool ovf).setWidth c.SSW

/-- The head of the regime string, the exponent and the fraction (R76). -/
def packed {c : Cfg} (pos : Bool) (E : BitVec c.es) (FR : BitVec c.FRW) : BitVec c.PKW :=
  (if pos then 0b10#2 else 0b01#2) ++ E ++ FR

/-- Dynamic shifter: the top WX bits of `rep_sh(pos) ‖ PK ‖ 0^(N-2)` (R77). -/
def shifted {c : Cfg} (pos : Bool) (sh : Nat) (PK : BitVec c.PKW) : BitVec c.WX :=
  (rep sh pos ++ (PK ++ 0#(c.N - 2))).extractLsb' sh c.WX

/-- Round to nearest even on the kept bits, or saturation (R78). -/
def roundedMagnitude {c : Cfg} (satHi satLo rnd : Bool) (trunc : BitVec (c.N - 1)) : BitVec (c.N - 1) :=
  if satHi then BitVec.allOnes (c.N - 1)
  else if satLo then 1#(c.N - 1)
  else trunc + (BitVec.ofBool rnd).setWidth (c.N - 1)

/-- Sign application: `0 ‖ mag`, negated when the sign is 1 (R79). -/
def applySign {c : Cfg} (s : Bool) (mag : BitVec (c.N - 1)) : BitVec c.N :=
  if s then -(mag.setWidth c.N) else mag.setWidth c.N

/-- The stages R68 to R79 on two decoded operands. -/
def mulSignals {c : Cfg} (A B : DecodedPorts c) : MulSignals c :=
  let resNaR := resNaRSelect A.isNaR B.isNaR
  let resZero := resZeroSelect A.isZero B.isZero resNaR
  let s := A.sign ^^ B.sign
  let sfA := scaleFactorOf A
  let sfB := scaleFactorOf B
  let P := significandProduct A.frac B.frac
  let ovf := P.msb
  let FR := normalisedFraction P
  let SS := scaleFactorSum sfA sfB ovf
  let K := SS.extractLsb' c.es (c.SSW - c.es)
  let E := SS.extractLsb' 0 c.es
  let satHi := decide (K.toInt > (c.N : Int) - 2)
  let satLo := decide (K.toInt < -((c.N : Int) - 2))
  let pos := !K.msb
  let PK := packed pos E FR
  let sh := if pos then K.toNat else (~~~K).toNat
  let SH := shifted pos sh PK
  let trunc := SH.extractLsb' (c.WX - c.N + 1) (c.N - 1)
  let L := SH.getLsbD (c.WX - c.N + 1)
  let G := SH.getLsbD (c.WX - c.N)
  let Rb := SH.getLsbD (c.WX - c.N - 1)
  let St := orr (SH.extractLsb' 0 (c.WX - c.N - 1))
  let rnd := G && (L || Rb || St)
  let mag := roundedMagnitude satHi satLo rnd trunc
  { resNaR, resZero, s, sfA, sfB, P, ovf, FR, SS, K, E, satHi, satLo, pos, PK, sh, SH, trunc, L, G, Rb, St, rnd, mag,
    res := applySign s mag }

/-- Special-value override (R80). -/
def specialOverride {c : Cfg} (resNaR resZero : Bool) (res : BitVec c.N) : BitVec c.N :=
  if resNaR then BitVec.twoPow c.N (c.N - 1) else if resZero then 0#c.N else res

/-- MUL (R82): the product pattern of two operands. `vA` and `vB` are what the two embedded decoders (R67)
drive on their void outputs. -/
def mulPattern {c : Cfg} (vA vB : Voids c) (X Y : BitVec c.N) : BitVec c.N :=
  let g := mulSignals (decodePorts vA X) (decodePorts vB Y)
  specialOverride g.resNaR g.resZero g.res

end Sys2Proof.Machine
end

