-- ==== Sys2Proof/Machine/Format.lean ====
section
/-! DEFINITION. The posit format (30_encoding.md R38 to R47), read on integers and independently of the decoder's circuit. -/

namespace Sys2Proof.Format

/-- The bits of `x` counted from bit `n - 1` downwards that equal `b`, up to the first that does not:
the run of R41. -/
def runLength (b : Bool) (x : Nat) : Nat → Nat
  | 0 => 0
  | n + 1 => if x.testBit n = b then runLength b x n + 1 else 0

/-- `0^N`, the zero pattern (R39). -/
def zeroPattern : Nat := 0

/-- `1 ‖ 0^(N-1)`, the NaR pattern (R39). -/
def narPattern (c : Cfg) : Nat := 2 ^ (c.N - 1)

/-- `0 ‖ 1^(N-1)`, maxpos (R46). -/
def maxpos (c : Cfg) : Nat := 2 ^ (c.N - 1) - 1

/-- `0^(N-1) ‖ 1`, minpos (R46). -/
def minpos : Nat := 1

/-- `0 ‖ 1 ‖ 0^(N-2)`, the value one (R46). -/
def one (c : Cfg) : Nat := 2 ^ (c.N - 2)

/-- `neg_N` of R11: two's-complement negation at width `n`. -/
def neg (n x : Nat) : Nat := (2 ^ n - x) % 2 ^ n

/-- Every pattern but zero and NaR (R39). -/
def isFinite (c : Cfg) (x : Nat) : Bool := x != zeroPattern && x != narPattern c

/-- The sign bit `s = X[N-1]` (R38). -/
def signBit (c : Cfg) (x : Nat) : Bool := x.testBit (c.N - 1)

/-- The body `X[N-2:0]` (R38). -/
def body (c : Cfg) (x : Nat) : Nat := x % 2 ^ (c.N - 1)

/-- The magnitude view of the body (R40). -/
def magnitude (c : Cfg) (x : Nat) : Nat :=
  if signBit c x then neg (c.N - 1) (body c x) else body c x

/-- The regime check bit `rc = Y[N-2]` of a magnitude view (R41). -/
def regimeCheck (c : Cfg) (y : Nat) : Bool := y.testBit (c.N - 2)

/-- The run length `m` of a magnitude view (R41). -/
def regimeRun (c : Cfg) (y : Nat) : Nat := runLength (regimeCheck c y) y (c.N - 1)

/-- The bits of the body below the regime field: `N - 2 - m`, none when the run fills the body (R41). -/
def tailBits (c : Cfg) (m : Nat) : Nat := c.N - 2 - m

/-- `nf = max(0, N-2-m-es)`, the bits of the fraction field (R44). -/
def fractionBits (c : Cfg) (m : Nat) : Nat := c.N - 2 - m - c.es

/-- The exponent bits that lie below bit 0 and read as 0 (R43). -/
def absentExponentBits (c : Cfg) (m : Nat) : Nat := c.es - tailBits c m

/-- The signed regime of a run of `m` bits equal to `rc` (R41; 90_conflicts.md C2). -/
def regimeOf (rc : Bool) (m : Nat) : Int := if rc then (m : Int) - 1 else -(m : Int)

/-- The signed regime `k` of a magnitude view (R41). -/
def regime (c : Cfg) (y : Nat) : Int := regimeOf (regimeCheck c y) (regimeRun c y)

/-- The exponent `e` of a magnitude view: present bits high, absent bits 0 (R43). -/
def exponent (c : Cfg) (y : Nat) : Nat :=
  let m := regimeRun c y
  (y % 2 ^ tailBits c m) / 2 ^ fractionBits c m * 2 ^ absentExponentBits c m

/-- The fraction field of a magnitude view, as an integer of `nf` bits (R44). -/
def fraction (c : Cfg) (y : Nat) : Nat := y % 2 ^ fractionBits c (regimeRun c y)

/-- The scale factor `sf = k * 2^es + e` of a finite pattern (R45). -/
def scaleFactor (c : Cfg) (x : Nat) : Int :=
  let y := magnitude c x
  regime c y * 2 ^ c.es + exponent c y

/-- The significand `1 + f` of a finite pattern (R44). -/
def significand (c : Cfg) (x : Nat) : ℚ :=
  let y := magnitude c x
  1 + (fraction c y : ℚ) / 2 ^ fractionBits c (regimeRun c y)

/-- The value of a pattern (R45): none for NaR, 0 for zero. -/
def value (c : Cfg) (x : Nat) : Option ℚ :=
  if x = narPattern c then none
  else if x = zeroPattern then some 0
  else some ((-1) ^ (if signBit c x then 1 else 0) * (2 : ℚ) ^ scaleFactor c x * significand c x)

/-- The magnitude view that holds a run of `m` bits `rc`, its terminator where there is room for one, the
exponent and the fraction (R41, R43, R44). -/
def assemble (c : Cfg) (rc : Bool) (m e f : Nat) : Nat :=
  let run := if rc then (2 ^ m - 1) * 2 ^ (c.N - 1 - m) else if m < c.N - 1 then 2 ^ (c.N - 2 - m) else 0
  run + e / 2 ^ absentExponentBits c m * 2 ^ fractionBits c m + f

/-- Bits of the regime string `regstr(K)` (R47). -/
def regstrLength (K : Int) : Nat := if 0 ≤ K then K.toNat + 2 else (-K).toNat + 1

/-- The regime string `regstr(K)` read as an integer: `1^(K+1) ‖ 0`, or `0^(-K) ‖ 1` (R47). -/
def regstr (K : Int) : Nat := if 0 ≤ K then 2 ^ (K.toNat + 2) - 2 else 1

end Sys2Proof.Format
end

