-- ==== Sys2Proof/Syntax.lean ====
section
/-! DEFINITION. The instructions, one constructor per row of the opcode table, and the host's side: programs of operations (30_encoding.md R51) and port presentations (60_exceptions.md R97). -/

namespace Sys2Proof

/-- The rows of spec/opcode_table.json. The first two are the operations of the hardware
(00_scope.md R14). The other six are the pattern classes "which the blocks themselves decode"
(30_encoding.md R49): such a row stands for the decoder's evaluation of a pattern of the class
(DESIGN CHOICE, log 2). A pattern is given by its integer value `uint(X)` (20_memory.md R30). -/
inductive Instr where
  /-- `DECODE x` (40_decoder.md R61). -/
  | decode (x : Nat)
  /-- `MUL x, y` (41_multiplier.md R82). -/
  | mul (x y : Nat)
  /-- Operand class ZERO: the pattern `0^N` (30_encoding.md R39). -/
  | operandClassZero
  /-- Operand class NAR: the pattern `1 ‖ 0^(N-1)` (R39). -/
  | operandClassNaR
  /-- Operand class POS_FINITE: `0 ‖ body`, body nonzero (R38). -/
  | operandClassPosFinite (body : Nat)
  /-- Operand class NEG_FINITE: `1 ‖ body`, body nonzero (R38, R40). -/
  | operandClassNegFinite (body : Nat)
  /-- Regime class k >= 0 of the magnitude view: run length `m = k + 1`, exponent `e`, fraction bits `f` (R41, R43, R44). -/
  | regimeClassNonneg (m e f : Nat)
  /-- Regime class k < 0 of the magnitude view: run length `m = -k`, exponent `e`, fraction bits `f` (R41, R43, R44). -/
  | regimeClassNeg (m e f : Nat)
deriving DecidableEq, Repr

/-- What the host drives for one evaluation (60_exceptions.md R97, 70_reset_and_hazards.md R100).
The block, and so the operation, is selected structurally: no bits select it (30_encoding.md R49). -/
inductive Drive where
  /-- The decoder block, with the pattern `x` on port X. -/
  | decoder (x : Nat)
  /-- The multiplier block, with `x` on port X and `y` on port Y. -/
  | multiplier (x y : Nat)
  /-- A bare word of the opcode table's pattern rows: `nbits` wide, with value `w`. A word of N bits is a
  posit pattern, a word of N-1 bits is a magnitude view (log 8). -/
  | word (nbits w : Nat)
deriving DecidableEq, Repr

/-- An identifier of a program (30_encoding.md R51), as a number. -/
abbrev Name := Nat

/-- `<operand> ::= <name> | 0x<hex>` (R51). -/
inductive Operand where
  | name (n : Name)
  | lit (x : Nat)
deriving DecidableEq, Repr

/-- The right side of a program line (R51). -/
inductive Operation where
  | decode (x : Operand)
  | mul (x y : Operand)
deriving DecidableEq, Repr

/-- The decoder's output ports (10_state.md R21), as a host names them to read one (60_exceptions.md R97), or a
program text writes a field of a record, `<name>.<Port>` (30_encoding.md R51). -/
inductive OutputPort where
  | sign
  | isZero
  | isNaR
  | regSign
  | regMag
  | reg
  | exp
  | frac
deriving DecidableEq, Repr

/-- `<name> = DECODE <operand>` or `<name> = MUL <operand>, <operand>` (R51). -/
structure Line where
  dst : Name
  op : Operation
deriving DecidableEq, Repr

/-- A program: `config N=<int> es=<int>`, then the lines (R51). -/
structure Program where
  N : Int
  es : Int
  lines : List Line
deriving DecidableEq, Repr

/-- One interaction the host has still to make: a program line, or a bare pattern word. -/
inductive Move where
  | line (l : Line)
  | word (nbits w : Nat)
deriving DecidableEq, Repr

end Sys2Proof
end

