-- ==== Sys2Proof/WellFormed.lean ====
section
/-! DEFINITION. Which terms are instructions of a configuration, and which programs the notation admits. -/

namespace Sys2Proof

/-- The exponent and fraction of a regime class fit the fields that a run of `m` bits leaves (30_encoding.md
R43, R44): es exponent bits with the absent ones 0, and nf fraction bits. -/
def tailFits (c : Cfg) (m e f : Nat) : Bool :=
  e < 2 ^ c.es && e % 2 ^ Format.absentExponentBits c m == 0 && f < 2 ^ Format.fractionBits c m

/-- The instruction's operands are values its row allows under configuration `c`: an N-bit pattern for
DECODE and MUL (30_encoding.md R48: every such pattern), a nonzero body for the finite classes (R38), and a
run of 1 to N-1 ones or 1 to N-2 zeros with fitting fields for the regime classes (R41). -/
def Instr.wellFormed (c : Cfg) : Instr → Bool
  | .decode x => x < 2 ^ c.N
  | .mul x y => x < 2 ^ c.N && y < 2 ^ c.N
  | .operandClassZero => true
  | .operandClassNaR => true
  | .operandClassPosFinite b => 0 < b && b < 2 ^ (c.N - 1)
  | .operandClassNegFinite b => 0 < b && b < 2 ^ (c.N - 1)
  | .regimeClassNonneg m e f => 1 ≤ m && m ≤ c.N - 1 && tailFits c m e f
  | .regimeClassNeg m e f => 1 ≤ m && m ≤ c.N - 2 && tailFits c m e f

/-- The kinds of names bound so far: `true` for a pattern (a MUL result), `false` for a DECODE record. -/
abbrev Bound.Kinds := List (Name × Bool)

/-- A literal is an N-bit pattern; a name is bound on an earlier line, to a pattern (30_encoding.md R51). -/
def Operand.admitted (c : Cfg) (known : Bound.Kinds) : Operand → Bool
  | .lit x => x < 2 ^ c.N
  | .name n => known.lookup n == some true

/-- The line's operands are admitted, and its name is not yet bound (R51: "bound once and never reassigned"). -/
def Line.admitted (c : Cfg) (known : Bound.Kinds) (l : Line) : Bool :=
  (known.lookup l.dst).isNone &&
  match l.op with
  | .decode x => x.admitted c known
  | .mul x y => x.admitted c known && y.admitted c known

/-- Whether a line's result is a pattern. -/
def Operation.yieldsPattern : Operation → Bool
  | .decode _ => false
  | .mul _ _ => true

/-- A list of lines that the notation of R51 admits, after the names `known`. -/
def linesAdmitted (c : Cfg) : Bound.Kinds → List Line → Bool
  | _, [] => true
  | known, l :: rest => l.admitted c known && linesAdmitted c ((l.dst, l.op.yieldsPattern) :: known) rest

end Sys2Proof
end

