-- ==== Sys2Proof/Decode.lean ====
section
/-! DEFINITION. From what the host drives to the instruction, and back. The hardware decodes no instruction words (30_encoding.md R49); the encoding it does decode is the posit format (R38 to R44). -/

namespace Sys2Proof

/-- Why a drive is no instruction of the configuration. -/
inductive Reject where
  /-- A pattern of more than the port's bits: the host has only the 2^N patterns (60_exceptions.md R97). -/
  | patternTooWide
  /-- Operands outside what the row allows (see `Instr.wellFormed`). -/
  | notOfItsClass
  /-- A bare word that is neither N bits (a posit pattern) nor N-1 bits (a magnitude view). -/
  | noWordOfThisWidth (nbits : Nat)
  /-- The magnitude view 0, which belongs to zero and NaR and has no regime class (30_encoding.md R41). -/
  | noRegime
  /-- A byte list that does not hold one N-bit pattern. -/
  | notOnePattern
deriving DecidableEq, Repr

/-- The operand class of an N-bit pattern: the four rows of the table that R38 and R39 define. -/
def decodeOperandClass (c : Cfg) (x : Nat) : Except Reject Instr :=
  if 2 ^ c.N ≤ x then .error .patternTooWide
  else if x = Format.zeroPattern then .ok .operandClassZero
  else if x = Format.narPattern c then .ok .operandClassNaR
  else if Format.signBit c x then .ok (.operandClassNegFinite (Format.body c x))
  else .ok (.operandClassPosFinite (Format.body c x))

/-- The regime class of an (N-1)-bit magnitude view, with its run length and fields (30_encoding.md R41, R43, R44). -/
def decodeRegimeClass (c : Cfg) (y : Nat) : Except Reject Instr :=
  if 2 ^ (c.N - 1) ≤ y then .error .patternTooWide
  else if y = 0 then .error .noRegime
  else if Format.regimeCheck c y then
    .ok (.regimeClassNonneg (Format.regimeRun c y) (Format.exponent c y) (Format.fraction c y))
  else
    .ok (.regimeClassNeg (Format.regimeRun c y) (Format.exponent c y) (Format.fraction c y))

/-- The decoder of drives: total, and rejecting by name. The operation needs nothing but the block's
identity (30_encoding.md R49); a bare word is read by its width (log 8). -/
def decode (c : Cfg) : Drive → Except Reject Instr
  | .decoder x => if x < 2 ^ c.N then .ok (.decode x) else .error .patternTooWide
  | .multiplier x y => if x < 2 ^ c.N ∧ y < 2 ^ c.N then .ok (.mul x y) else .error .patternTooWide
  | .word nbits w =>
    if nbits = c.N then decodeOperandClass c w
    else if nbits = c.N - 1 then decodeRegimeClass c w
    else .error (.noWordOfThisWidth nbits)

/-- The drive of an instruction, from the "encoding" column of the opcode table: the block for an operation,
the pattern for an operand class, the magnitude view for a regime class. -/
def encode (c : Cfg) : Instr → Drive
  | .decode x => .decoder x
  | .mul x y => .multiplier x y
  | .operandClassZero => .word c.N Format.zeroPattern
  | .operandClassNaR => .word c.N (Format.narPattern c)
  | .operandClassPosFinite b => .word c.N b
  | .operandClassNegFinite b => .word c.N (2 ^ (c.N - 1) + b)
  | .regimeClassNonneg m e f => .word (c.N - 1) (Format.assemble c true m e f)
  | .regimeClassNeg m e f => .word (c.N - 1) (Format.assemble c false m e f)

/-- HOST_BYTE_ORDER, the parameter that 20_memory.md R30 leaves open. -/
inductive ByteOrder where
  | littleEndian
  | bigEndian
deriving DecidableEq, Repr

/-- The number of bytes a host needs for `nbits` bits. -/
def byteCount (nbits : Nat) : Nat := (nbits + 7) / 8

/-- The `n` bytes of `x`, least significant first. -/
def bytesFromLow (x : Nat) : Nat → List Byte
  | 0 => []
  | n + 1 => BitVec.ofNat 8 x :: bytesFromLow (x / 256) n

/-- The integer of a list of bytes, least significant first. -/
def valueFromLow : List Byte → Nat
  | [] => 0
  | b :: rest => b.toNat + 256 * valueFromLow rest

/-- The bytes in which a host stores an N-bit pattern, in its byte order; the bits above the pattern in the
last byte are 0 (DESIGN CHOICE, log 12). -/
def patternBytes (c : Cfg) (order : ByteOrder) (x : Nat) : List Byte :=
  match order with
  | .littleEndian => bytesFromLow x (byteCount c.N)
  | .bigEndian => (bytesFromLow x (byteCount c.N)).reverse

/-- The operand class of a pattern that a host stored as bytes. -/
def decodeBytes (c : Cfg) (order : ByteOrder) (bytes : List Byte) : Except Reject Instr :=
  if bytes.length = byteCount c.N then
    match order with
    | .littleEndian => decodeOperandClass c (valueFromLow bytes)
    | .bigEndian => decodeOperandClass c (valueFromLow bytes.reverse)
  else .error .notOnePattern

/-- The instruction read from a word of the opcode table, under the configuration of `State.reset` (log 8):
a word of N = 8 bits is a posit pattern, a word of 7 bits a magnitude view. DECODE and MUL have no word
(30_encoding.md R49), so no word gives them. -/
def decodeTableWord (nbits w : Nat) : Option Instr :=
  (decode Cfg.atReset (.word nbits w)).toOption

end Sys2Proof
end

