-- ==== Sys2Proof/Machine/State.lean ====
section
/-! DEFINITION. The state, the ways a step can stop, and the state after reset. -/

namespace Sys2Proof.Machine

/-- The decoder's ports at its last evaluation (10_state.md R21, R25). The block stores nothing (R16): these
are the pattern the host presented and the outputs it read. -/
structure DecoderPorts where
  x : Bits
  sign : Bool
  isZero : Bool
  isNaR : Bool
  regSign : Bool
  regMag : Bits
  reg : Bits
  exp : Bits
  frac : Bits
deriving DecidableEq, Repr

/-- The multiplier's ports at its last evaluation (10_state.md R22, R25). -/
structure MultiplierPorts where
  x : Bits
  y : Bits
  r : Bits
deriving DecidableEq, Repr

/-- What a program name is bound to (30_encoding.md R51): a MUL result or the record of a DECODE. -/
inductive Bound where
  | pattern (p : Bits)
  | record (d : DecoderPorts)
deriving DecidableEq, Repr

/-- One instance of the two blocks, with the host's side of its ports. -/
structure State where
  /-- The configuration (10_state.md R20). -/
  cfg : Cfg
  /-- The decoder's ports (R21). -/
  dec : DecoderPorts
  /-- The multiplier's ports (R22). -/
  mul : MultiplierPorts
  /-- The names bound so far, newest first (30_encoding.md R51). -/
  names : List (Name × Bound)
  /-- The model's own: the host's interactions still to come, oldest first (log 5). -/
  pending : List Move
  /-- The model's own: how many free values have been drawn (log 4). -/
  draws : Nat
deriving DecidableEq, Repr

/-- No evaluation of either block faults (60_exceptions.md R88; 93_implementation_defined.md: no behaviour
is treated as `fault` or `stuck`), so there is no constructor: a fault cannot even be written (log 13). Safe. -/
inductive Fault where
deriving DecidableEq, Repr

/-- Why a step has no meaning. None of these is raised for an input the spec admits. -/
inductive Refusal where
  /-- Raised by exec's arm of an instruction that has no meaning yet; no arm raises it. Safe. -/
  | notModelled (mnemonic : String)
  /-- Raised by `construct`: the configuration error of 60_exceptions.md R87, with the offending pair. Safe:
  the spec builds no instance. -/
  | configError (reason : ConfigErrorReason) (N es : Int)
  /-- Raised by `resolveMove` and by the meanings: what the host drives is no instruction of the configuration
  (such a host has no move, 60_exceptions.md R97). Safe. -/
  | rejected (why : Reject)
  /-- Raised by `resolveOperand`: a line uses a name no earlier line binds (30_encoding.md R51). Safe. -/
  | nameNotBound (n : Name)
  /-- Raised by `resolveOperand`: a line uses a DECODE record where the notation has a pattern (R51). Safe. -/
  | nameIsRecord (n : Name)
  /-- Raised by `resolveMove`: a line binds a name again (R51: "bound once and never reassigned"). Safe. -/
  | nameBoundTwice (n : Name)
deriving DecidableEq, Repr

/-- The ports of the decoder in `State.reset`: X = 0^N and the outputs of R53, R54 and R60 for it. The void
outputs are 0 (DESIGN CHOICE, log 3). -/
def DecoderPorts.reset (c : Cfg) : DecoderPorts where
  x := Bits.of 0#c.N
  sign := false
  isZero := true
  isNaR := false
  regSign := false
  regMag := Bits.of 0#c.RFW
  reg := Bits.of 0#c.KW
  exp := Bits.of 0#c.EW
  frac := Bits.of 0#c.FW

/-- The ports of the multiplier in `State.reset`: X = Y = 0^N and their product 0^N (log 3). -/
def MultiplierPorts.reset (c : Cfg) : MultiplierPorts where
  x := Bits.of 0#c.N
  y := Bits.of 0#c.N
  r := Bits.of 0#c.N

/-- An instance just constructed for `c`: nothing presented yet, no name bound, no interaction pending
(70_reset_and_hazards.md R98, R99). DESIGN CHOICE: every instance counts its draws from 0 (log 4), on the one constant
`Cfg.voidBits`, so two instances with equal counters draw equal void values (log 17). -/
def State.fresh (c : Cfg) : State where
  cfg := c
  dec := DecoderPorts.reset c
  mul := MultiplierPorts.reset c
  names := []
  pending := []
  draws := 0

/-- There is no reset input and no reset state (70_reset_and_hazards.md R98); this is the instance of the
configuration `Cfg.atReset` before its first evaluation (DESIGN CHOICE, log 1 and log 3). -/
def State.reset : State := State.fresh Cfg.atReset

end Sys2Proof.Machine
end

