-- ==== Sys2Proof/Machine/Operands.lean ====
section
/-! DEFINITION. The operand forms of a program line (30_encoding.md R51): a literal pattern, or a name bound earlier. -/

namespace Sys2Proof.Machine

/-- The integer value of the pattern an operand stands for, given the names bound so far. A DECODE record
is no pattern, and an unbound name is none either (R51). -/
def resolveOperand (names : List (Name × Bound)) : Operand → Except Refusal Nat
  | .lit x => .ok x
  | .name n =>
    match names.lookup n with
    | none => .error (.nameNotBound n)
    | some (.pattern p) => .ok p.uint
    | some (.record _) => .error (.nameIsRecord n)

/-- The drive of an operation: its operands resolved, the block its own (30_encoding.md R49). -/
def resolveOperation (names : List (Name × Bound)) : Operation → Except Refusal Drive
  | .decode x =>
    match resolveOperand names x with
    | .ok p => .ok (.decoder p)
    | .error r => .error r
  | .mul x y =>
    match resolveOperand names x, resolveOperand names y with
    | .ok p, .ok q => .ok (.multiplier p q)
    | .error r, _ => .error r
    | .ok _, .error r => .error r

/-- A one-bit port as a bit vector. -/
def oneBit (b : Bool) : Bits := Bits.of (BitVec.ofBool b)

/-- Reading an output port (60_exceptions.md R97): void or not, it gives what the port carries, and has no side
effect (20_memory.md R32). -/
def readPort (d : DecoderPorts) : OutputPort → Bits
  | .sign => oneBit d.sign
  | .isZero => oneBit d.isZero
  | .isNaR => oneBit d.isNaR
  | .regSign => oneBit d.regSign
  | .regMag => d.regMag
  | .reg => d.reg
  | .exp => d.exp
  | .frac => d.frac

/-- The field `<name>.<Port>` of a DECODE result (30_encoding.md R51). -/
def readField (names : List (Name × Bound)) (n : Name) (port : OutputPort) : Option Bits :=
  match names.lookup n with
  | some (.record d) => some (readPort d port)
  | _ => none

/-- The width column of 10_state.md R21. -/
def portWidth (c : Cfg) : OutputPort → Nat
  | .sign => 1
  | .isZero => 1
  | .isNaR => 1
  | .regSign => 1
  | .regMag => c.RFW
  | .reg => c.KW
  | .exp => c.EW
  | .frac => c.FW

end Sys2Proof.Machine
end

