-- ==== Sys2Proof/Machine/Ops.lean ====
section
/-! DEFINITION. The named operations over the state: construction (60_exceptions.md R87), one evaluation of each block (70_reset_and_hazards.md R100), and what a step does around an instruction. -/

namespace Sys2Proof.Machine

/-- `construct(N, es)` (R87): the three checks in their order, then the instance. -/
def construct (N es : Int) : Host.Outcome State Fault Refusal :=
  if N < 2 then .refused (.configError .nTooSmall N es)
  else if es < 0 then .refused (.configError .esNegative N es)
  else if N - es - 2 < 0 then .refused (.configError .fractionWidthNegative N es)
  else if h : 2 ≤ N.toNat ∧ es.toNat + 2 ≤ N.toNat then .next (State.fresh ⟨N.toNat, es.toNat, h.1, h.2⟩)
  else .refused (.configError .fractionWidthNegative N es)

/-- A realisation with a largest N refuses a larger one as a configuration error of its own
(93_implementation_defined.md I9; DESIGN CHOICE, log 15). `none` is a realisation without a bound. -/
def constructBounded (nMax : Option Nat) (N es : Int) : Host.Outcome State Fault Refusal :=
  match construct N es, nMax with
  | .next s, some b => if b < s.cfg.N then .refused (.configError .nAboveMax N es) else .next s
  | o, _ => o

/-- An instance with the program's lines still to be evaluated (30_encoding.md R51; log 5). -/
def loadProgram (p : Program) : Host.Outcome State Fault Refusal :=
  match construct p.N p.es with
  | .next s => .next { s with pending := p.lines.map Move.line }
  | .fault f => .fault f
  | .refused r => .refused r

/-- The decoder's ports as an observation. -/
def DecoderPorts.of {c : Cfg} (X : BitVec c.N) (d : DecodedPorts c) : DecoderPorts where
  x := Bits.of X
  sign := d.sign
  isZero := d.isZero
  isNaR := d.isNaR
  regSign := d.regSign
  regMag := Bits.of d.regMag
  reg := Bits.of d.reg
  exp := Bits.of d.exp
  frac := Bits.of d.frac

/-- One evaluation of the decoder block (40_decoder.md R61, R100): its ports are written and no state is;
the draws are those of the void outputs. -/
def evaluateDecoder (s : State) (X : BitVec s.cfg.N) : State :=
  { s with
    dec := DecoderPorts.of X (decodePorts (drawVoids s.cfg s.draws) X)
    draws := s.draws + drawsPerDecode }

/-- One evaluation of the multiplier block (41_multiplier.md R82, R100). Its two embedded decoders (R67)
draw their own void outputs and show on none of the decoder's ports. -/
def evaluateMultiplier (s : State) (X Y : BitVec s.cfg.N) : State :=
  { s with
    mul := ⟨Bits.of X, Bits.of Y,
      Bits.of (mulPattern (drawVoids s.cfg s.draws) (drawVoids s.cfg (s.draws + drawsPerDecode)) X Y)⟩
    draws := s.draws + 2 * drawsPerDecode }

/-- The pattern of integer value `x` at the decoder's port X, if the instruction `i` it comes from is one of the
configuration (`Instr.wellFormed`). -/
def presentToDecoder (i : Instr) (x : Nat) (s : State) : Host.Outcome State Fault Refusal :=
  if i.wellFormed s.cfg then .next (evaluateDecoder s (BitVec.ofNat s.cfg.N x))
  else .refused (.rejected .notOfItsClass)

/-- The drive of the host's next interaction: a line binds a name that no earlier line bound (30_encoding.md R51). -/
def resolveMove (s : State) : Move → Except Refusal Drive
  | .word nbits w => .ok (.word nbits w)
  | .line l => if (s.names.lookup l.dst).isSome then .error (.nameBoundTwice l.dst) else resolveOperation s.names l.op

/-- The instruction of the host's next interaction. -/
def fetchMove (s : State) (mv : Move) : Except Refusal Instr :=
  match resolveMove s mv with
  | .error r => .error r
  | .ok d =>
    match decode s.cfg d with
    | .error why => .error (.rejected why)
    | .ok i => .ok i

/-- What a line's name is bound to after its evaluation (R51): the record of the decoder's outputs, or the product. -/
def lineResult (op : Operation) (t : State) : Bound :=
  match op with
  | .decode _ => .record t.dec
  | .mul _ _ => .pattern t.mul.r

/-- A line binds its name to its result; a bare word binds nothing. -/
def bindResult (mv : Move) (t : State) : State :=
  match mv with
  | .word _ _ => t
  | .line l => { t with names := (l.dst, lineResult l.op t) :: t.names }

/-- A step with no interaction pending: nothing is presented, so nothing is evaluated (DESIGN CHOICE, log 5). -/
def idle (s : State) : State := s

end Sys2Proof.Machine
end

