-- ==== Sys2Proof/Machine/Operations.lean ====
section
/-! DEFINITION. The meanings of the two operations, DECODE and MUL. -/

namespace Sys2Proof.Machine

/-- `DECODE x` (40_decoder.md R61), for each of the 2^N patterns (30_encoding.md R48). A number of more than N
bits is no pattern, and no host can present it (60_exceptions.md R97; log 6). -/
def execDecode (x : Nat) (s : State) : Host.Outcome State Fault Refusal :=
  if x < 2 ^ s.cfg.N then .next (evaluateDecoder s (BitVec.ofNat s.cfg.N x))
  else .refused (.rejected .patternTooWide)

/-- `MUL x, y` (41_multiplier.md R82), for every pair of patterns. -/
def execMul (x y : Nat) (s : State) : Host.Outcome State Fault Refusal :=
  if x < 2 ^ s.cfg.N ∧ y < 2 ^ s.cfg.N then
    .next (evaluateMultiplier s (BitVec.ofNat s.cfg.N x) (BitVec.ofNat s.cfg.N y))
  else .refused (.rejected .patternTooWide)

end Sys2Proof.Machine
end

