-- ==== Sys2Proof/Machine/PatternClasses.lean ====
section
/-! DEFINITION. The meanings of the opcode table's six pattern rows: the decoder's evaluation of a pattern of the class (30_encoding.md R39 to R44, R49; log 2). -/

namespace Sys2Proof.Machine

/-- Operand class ZERO: `0^N` at the decoder's port (R39). -/
def execOperandClassZero (s : State) : Host.Outcome State Fault Refusal :=
  presentToDecoder .operandClassZero Format.zeroPattern s

/-- Operand class NAR: `1 ‖ 0^(N-1)` at the decoder's port (R39). -/
def execOperandClassNaR (s : State) : Host.Outcome State Fault Refusal :=
  presentToDecoder .operandClassNaR (Format.narPattern s.cfg) s

/-- Operand class POS_FINITE: `0 ‖ body` at the decoder's port (R38). -/
def execOperandClassPosFinite (b : Nat) (s : State) : Host.Outcome State Fault Refusal :=
  presentToDecoder (.operandClassPosFinite b) b s

/-- Operand class NEG_FINITE: `1 ‖ body` at the decoder's port (R38, R40). -/
def execOperandClassNegFinite (b : Nat) (s : State) : Host.Outcome State Fault Refusal :=
  presentToDecoder (.operandClassNegFinite b) (2 ^ (s.cfg.N - 1) + b) s

/-- Regime class k >= 0: the magnitude view with that run, exponent and fraction, presented as the positive
pattern `0 ‖ Y` whose magnitude view it is (R40, R41; DESIGN CHOICE, log 9). -/
def execRegimeClassNonneg (m e f : Nat) (s : State) : Host.Outcome State Fault Refusal :=
  presentToDecoder (.regimeClassNonneg m e f) (Format.assemble s.cfg true m e f) s

/-- Regime class k < 0, in the same way (R40, R41; log 9). -/
def execRegimeClassNeg (m e f : Nat) (s : State) : Host.Outcome State Fault Refusal :=
  presentToDecoder (.regimeClassNeg m e f) (Format.assemble s.cfg false m e f) s

end Sys2Proof.Machine
end

