-- ==== Sys2Proof/Machine/Dispatch.lean ====
section
/-! DEFINITION. One arm per instruction. -/

namespace Sys2Proof.Machine

/-- The meaning of an instruction. -/
def exec (i : Instr) (s : State) : Host.Outcome State Fault Refusal :=
  match i with
  | .decode x => Sys2Proof.Machine.execDecode x s
  | .mul x y => Sys2Proof.Machine.execMul x y s
  | .operandClassZero => Sys2Proof.Machine.execOperandClassZero s
  | .operandClassNaR => Sys2Proof.Machine.execOperandClassNaR s
  | .operandClassPosFinite b => Sys2Proof.Machine.execOperandClassPosFinite b s
  | .operandClassNegFinite b => Sys2Proof.Machine.execOperandClassNegFinite b s
  | .regimeClassNonneg m e f => Sys2Proof.Machine.execRegimeClassNonneg m e f s
  | .regimeClassNeg m e f => Sys2Proof.Machine.execRegimeClassNeg m e f s

end Sys2Proof.Machine
end

