-- ==== Sys2Proof/Machine/Step.lean ====
section
/-! DEFINITION. One step: the host's next interaction, evaluated (70_reset_and_hazards.md R100). -/

namespace Sys2Proof.Machine

/-- Takes the oldest pending interaction, reads its instruction, runs it and binds a line's name. There is no
program counter and no fetch (10_state.md R17); with nothing pending the machine is idle (log 5). -/
def step (s : State) : Host.Outcome State Fault Refusal :=
  match s.pending with
  | [] => .next (idle s)
  | mv :: rest =>
    match fetchMove s mv with
    | .error r => .refused r
    | .ok i =>
      match exec i { s with pending := rest } with
      | .next t => .next (bindResult mv t)
      | .fault f => .fault f
      | .refused r => .refused r

/-- `s` with the word presented as the host's next interaction (log 8): the very next step reads it. -/
def State.withFetchWord (s : State) (nbits w : Nat) : State :=
  { s with pending := .word nbits w :: s.pending }

end Sys2Proof.Machine
end

