-- ==== Sys2Proof/Machine/Architecture.lean ====
section
/-! DEFINITION. MULT_ARCH (93_implementation_defined.md I6): a significand multiplier of any architecture, and one of the kind the scope note names, a Wallace tree (00_scope.md R2; log 16). -/

namespace Sys2Proof.Machine.Architecture

/-- One partial product per bit of `b`: `a`, shifted to the bit's weight, or 0. -/
def partialProducts {c : Cfg} (a b : BitVec c.FW) : List (BitVec c.PW) :=
  (List.range c.FW).map (fun i => if b.getLsbD i then a.setWidth c.PW <<< i else 0#c.PW)

/-- The sum word of a row of full adders. -/
def sumWord {w : Nat} (x y z : BitVec w) : BitVec w := x ^^^ y ^^^ z

/-- The carry word of a row of full adders, at its weight. -/
def carryWord {w : Nat} (x y z : BitVec w) : BitVec w := ((x &&& y) ||| (x &&& z) ||| (y &&& z)) <<< 1

/-- One level of the tree: every three words become two. -/
def level {w : Nat} : List (BitVec w) → List (BitVec w)
  | x :: y :: z :: rest => sumWord x y z :: carryWord x y z :: level rest
  | short => short

/-- Levels until at most two words are left, which the final adder adds; a list of `depth` words needs fewer
than `depth` levels. -/
def reduceTree {w : Nat} : Nat → List (BitVec w) → BitVec w
  | _, [] => 0#w
  | _, [x] => x
  | _, [x, y] => x + y
  | 0, _ => 0#w
  | depth + 1, words => reduceTree depth (level words)

/-- The Wallace tree's product of two Frac ports. -/
def wallaceProduct {c : Cfg} (a b : BitVec c.FW) : BitVec c.PW := reduceTree c.FW (partialProducts a b)

end Sys2Proof.Machine.Architecture
end

