-- ==== Sys2Proof/Machine/Pipeline.lean ====
section
/-! DEFINITION. A pipelined realisation (70_reset_and_hazards.md R101), beside the machine: the same combinational function, each output LATENCY cycles late (log 11). -/

namespace Sys2Proof.Machine.Pipeline

/-- One cycle of a realisation of `f` with as many registers as its LATENCY, oldest first: the output of the
cycle, and the registers after it. With no register this is the combinational block. -/
def cycle {α β : Type} (f : α → β) (registers : List β) (input : α) : β × List β :=
  match registers with
  | [] => (f input, [])
  | oldest :: rest => (oldest, rest ++ [f input])

/-- The outputs of the cycles whose inputs are `inputs`, from registers whose first contents are any values
at all (R101: unspecified). -/
def outputs {α β : Type} (f : α → β) : List β → List α → List β
  | _, [] => []
  | registers, input :: later => (cycle f registers input).1 :: outputs f (cycle f registers input).2 later

/-- The decoder's pipelined outputs: each input is a pattern, with what that evaluation drives on void outputs. -/
def decodeOutputs (c : Cfg) : List (DecodedPorts c) → List (Voids c × BitVec c.N) → List (DecodedPorts c) :=
  outputs (fun p => decodePorts p.1 p.2)

/-- The multiplier's pipelined outputs. -/
def mulOutputs (c : Cfg) : List (BitVec c.N) → List ((Voids c × Voids c) × (BitVec c.N × BitVec c.N)) → List (BitVec c.N) :=
  outputs (fun p => mulPattern p.1.1 p.1.2 p.2.1 p.2.2)

end Sys2Proof.Machine.Pipeline
end

