-- ==== Sys2Proof/Machine/Reference.lean ====
section
/-! DEFINITION. The reference semantics of MUL (41_multiplier.md R83), on exact rationals, and the re-encoding of decoded fields (40_decoder.md R64). Neither is used by the machine; claims compare the machine with them. -/

namespace Sys2Proof.Reference

/-- The unbounded encoding string `regstr(K) ‖ E{es} ‖ g_1 g_2 ...` (30_encoding.md R47), read as the binary
fraction `0.b_1 b_2 b_3 ...` (DEDUCED, log 10). -/
def encodingString (c : Cfg) (K : Int) (E : Nat) (g : ℚ) : ℚ :=
  ((Format.regstr K * 2 ^ c.es + E : Nat) + g) / 2 ^ (Format.regstrLength K + c.es)

/-- The first `n` bits of a string, as an integer. -/
def firstBits (b : ℚ) (n : Nat) : Nat := ⌊b * 2 ^ n⌋₊

/-- Bit `n` of a string, counted from 1. -/
def bitAt (b : ℚ) (n : Nat) : Bool := firstBits b n % 2 = 1

/-- The OR of all bits after bit `n`. -/
def anyBitAfter (b : ℚ) (n : Nat) : Bool := b * 2 ^ n ≠ firstBits b n

/-- The magnitude of a positive real `w` on N-1 bits: saturated, or rounded to nearest even on the string (R83). -/
def roundMagnitude (c : Cfg) (w : ℚ) : Nat :=
  let sc := Int.log 2 w
  let K := sc / 2 ^ c.es
  let E := (sc % 2 ^ c.es).toNat
  let g := w / 2 ^ sc - 1
  if K > (c.N : Int) - 2 then 2 ^ (c.N - 1) - 1
  else if K < -((c.N : Int) - 2) then 1
  else
    let b := encodingString c K E g
    firstBits b (c.N - 1) +
      (if bitAt b c.N && (bitAt b (c.N - 1) || anyBitAfter b c.N) then 1 else 0)

/-- `if s then neg_N(0 ‖ mag) else 0 ‖ mag`. -/
def withSign (c : Cfg) (s : Bool) (mag : Nat) : Nat := if s then Format.neg c.N mag else mag

/-- `mul_ref(X, Y)` (R83). -/
def mulRef (c : Cfg) (x y : Nat) : Nat :=
  if x = Format.narPattern c ∨ y = Format.narPattern c then Format.narPattern c
  else if x = Format.zeroPattern ∨ y = Format.zeroPattern then Format.zeroPattern
  else
    let v := (Format.value c x).getD 0 * (Format.value c y).getD 0
    withSign c (v < 0) (roundMagnitude c |v|)

/-- The pattern of the decoded fields (40_decoder.md R64): the first N-1 bits of
`regstr(k) ‖ e{es} ‖ low{FW-1} ‖ 0^N`, negated when the sign is 1. -/
def reencode (c : Cfg) (sign : Bool) (k : Int) (e low lowWidth : Nat) : Nat :=
  let length := Format.regstrLength k + c.es + lowWidth + c.N
  let string := ((Format.regstr k * 2 ^ c.es + e) * 2 ^ lowWidth + low) * 2 ^ c.N
  withSign c sign (string / 2 ^ (length - (c.N - 1)))

end Sys2Proof.Reference
end

