-- ==== Sys2Proof/Safety.lean ====
section
/-! DEFINITION. What claims call a good state, an admitted run and an answer. -/

namespace Sys2Proof.Safety

open Sys2Proof.Machine

/-- The decoder's ports have the widths of 10_state.md R21, its flags mark exactly the zero and NaR patterns
(30_encoding.md R39), `Sign` is the sign bit (40_decoder.md R54), and the marker of `Frac` is 1 exactly for finite patterns. -/
def decoderPortsOk (c : Cfg) (p : DecoderPorts) : Bool :=
  p.x.width == c.N && p.regMag.width == c.RFW && p.reg.width == c.KW && p.exp.width == c.EW && p.frac.width == c.FW
  && p.sign == Format.signBit c p.x.uint
  && p.isZero == (p.x.uint == Format.zeroPattern)
  && p.isNaR == (p.x.uint == Format.narPattern c)
  && p.frac.uint.testBit (c.FW - 1) == Format.isFinite c p.x.uint

/-- The multiplier's ports have the width of 10_state.md R22, and the product is NaR exactly when an operand is,
and zero exactly when an operand is zero and none is NaR (41_multiplier.md R80, R81; 60_exceptions.md R89). -/
def multiplierPortsOk (c : Cfg) (p : MultiplierPorts) : Bool :=
  p.x.width == c.N && p.y.width == c.N && p.r.width == c.N
  && (p.r.uint == Format.narPattern c) == (p.x.uint == Format.narPattern c || p.y.uint == Format.narPattern c)
  && (p.r.uint == Format.zeroPattern) ==
      ((p.x.uint == Format.zeroPattern || p.y.uint == Format.zeroPattern)
        && p.x.uint != Format.narPattern c && p.y.uint != Format.narPattern c)

/-- What a name is bound to is an N-bit pattern, or a record of good decoder ports. -/
def boundOk (c : Cfg) : Bound → Bool
  | .pattern p => p.width == c.N
  | .record d => decoderPortsOk c d

/-- The invariant of every step: good ports on both blocks, and names bound once each (30_encoding.md R51), to good results. -/
def Inv (s : State) : Bool :=
  decoderPortsOk s.cfg s.dec && multiplierPortsOk s.cfg s.mul
  && (s.names.map Prod.fst).Nodup && s.names.all (fun b => boundOk s.cfg b.2)

/-- The kind of what a name is bound to: `true` for a pattern. -/
def boundKind : Bound → Bool
  | .pattern _ => true
  | .record _ => false

/-- The kinds of the names bound so far. -/
def kinds (names : List (Name × Bound)) : Bound.Kinds := names.map (fun b => (b.1, boundKind b.2))

/-- Interactions that the notation of R51 and the host interface (60_exceptions.md R97) admit, after the names `known`. -/
def movesAdmitted (c : Cfg) : Bound.Kinds → List Move → Bool
  | _, [] => true
  | known, .line l :: rest => l.admitted c known && movesAdmitted c ((l.dst, l.op.yieldsPattern) :: known) rest
  | known, .word nbits w :: rest => (decode c (.word nbits w)).isOk && movesAdmitted c known rest

/-- A good state whose pending interactions are all admitted. -/
def Admitted (s : State) : Bool := Inv s && movesAdmitted s.cfg (kinds s.names) s.pending

/-- The line uses name `n` as an operand. -/
def operandUses (n : Name) : Operand → Bool
  | .lit _ => false
  | .name m => m == n

/-- Two MUL lines of which neither uses or rebinds the other's name (20_memory.md R33). -/
def independentMuls : Line → Line → Bool
  | ⟨m, .mul a b⟩, ⟨n, .mul x y⟩ =>
    m != n && !operandUses n a && !operandUses n b && !operandUses m x && !operandUses m y
  | _, _ => false

/-- The configuration of one more bit, whose patterns lie halfway between neighbours (41_multiplier.md R83). -/
def oneBitWider (c : Cfg) : Cfg :=
  ⟨c.N + 1, c.es, Nat.le_succ_of_le c.two_le_N, Nat.le_succ_of_le c.es_add_two_le_N⟩

/-- The pattern of the magnitude of a pattern: itself, or its negation when the sign bit is 1. -/
def absPattern (c : Cfg) (x : Nat) : Nat := if Format.signBit c x then Format.neg c.N x else x

/-- The rational value of a pattern, 0 for NaR. -/
def realValue (c : Cfg) (x : Nat) : ℚ := (Format.value c x).getD 0

/-- The port pattern of integer value `x`. -/
def patternBits (c : Cfg) (x : Nat) : Bits := Bits.of (BitVec.ofNat c.N x)

/-- The decoded operand of integer value `x`, with `v` on its void outputs. -/
def operand (c : Cfg) (v : Voids c) (x : Nat) : DecodedPorts c := decodePorts v (BitVec.ofNat c.N x)

/-- The exponent value `e` that decoder ports stand for: none of the placeholder bit when `es = 0` (40_decoder.md R63). -/
def exponentValue (c : Cfg) (p : DecoderPorts) : Nat := if 0 < c.es then p.exp.uint else 0

end Sys2Proof.Safety
end

