-- ==== Sys2Proof/Certificates/Slice0/Obligations.lean ====
section
/-! DEFINITION. The statements for the provers. -/

open Sys2Proof Sys2Proof.Machine Sys2Proof.Safety

/-- O1. 00_scope.md section 3 (R7): an instance exists exactly for the legal pairs, with that pair as its configuration.
60_exceptions.md section 1 (R87, a decision: D13): every other pair is refused with the configuration error, which
reports the pair. -/
def Obligations.ConstructionSucceedsExactlyOnLegalPairs : Prop :=
  ∀ N es : Int,
    ((∃ s, construct N es = .next s) ↔ (2 ≤ N ∧ 0 ≤ es ∧ 0 ≤ N - es - 2))
    ∧ ((2 ≤ N ∧ 0 ≤ es ∧ 0 ≤ N - es - 2) ↔ (2 ≤ N ∧ 0 ≤ es ∧ es ≤ N - 2))
    ∧ (∀ s, construct N es = .next s → (s.cfg.N : Int) = N ∧ (s.cfg.es : Int) = es)
    ∧ (¬(2 ≤ N ∧ 0 ≤ es ∧ 0 ≤ N - es - 2) → ∃ r, construct N es = .refused (.configError r N es))

/-- O2. 60_exceptions.md section 1. The reasons and the order of the checks are a decision of the spec
(92_eei_decisions.md D13). -/
def Obligations.ConfigErrorNamesFirstFailingCheck : Prop :=
  ∀ N es : Int,
    (N < 2 → construct N es = .refused (.configError .nTooSmall N es))
    ∧ (2 ≤ N → es < 0 → construct N es = .refused (.configError .esNegative N es))
    ∧ (2 ≤ N → 0 ≤ es → N - es - 2 < 0 → construct N es = .refused (.configError .fractionWidthNegative N es))

/-- O3. 40_decoder.md section 1 (R53 and R54): DECODE answers on every N-bit pattern; the two flags mark exactly `0^N` and
`1 ‖ 0^(N-1)` and are never both 1, `Sign` is the top bit. Two further clauses are no part of these rules: the ports have
the widths of 10_state.md section 3 (R21, a decision: D2), and nothing changes but the decoder's ports and the draw
counter, which is the model's choice (log 4). -/
def Obligations.DecodeCompletesOnEveryPattern : Prop :=
  ∀ (s : State) (x : Nat), x < 2 ^ s.cfg.N →
    ∃ p : DecoderPorts,
      exec (.decode x) s = .next { s with dec := p, draws := s.draws + drawsPerDecode }
      ∧ p.x = patternBits s.cfg x
      ∧ p.sign = x.testBit (s.cfg.N - 1)
      ∧ (nonzeroBody (c := s.cfg) (BitVec.ofNat s.cfg.N x) = true ↔ x % 2 ^ (s.cfg.N - 1) ≠ 0)
      ∧ (p.isZero = true ↔ x = 0)
      ∧ (p.isNaR = true ↔ x = 2 ^ (s.cfg.N - 1))
      ∧ ¬(p.isZero = true ∧ p.isNaR = true)
      ∧ p.regMag.width = s.cfg.RFW ∧ p.reg.width = s.cfg.KW ∧ p.exp.width = s.cfg.EW ∧ p.frac.width = s.cfg.FW

/-- O4. 40_decoder.md R55: the normaliser gives the magnitude view, which is 0 for zero and NaR and the body of
the positive posit of the same magnitude for every finite pattern. -/
def Obligations.NormaliserGivesBodyOfAbsoluteValue : Prop :=
  ∀ (c : Cfg) (x : Nat), x < 2 ^ c.N →
    let Y := (magnitudeView (c := c) (BitVec.ofNat c.N x)).toNat
    Y = (if x.testBit (c.N - 1) then (2 ^ (c.N - 1) - x % 2 ^ (c.N - 1)) % 2 ^ (c.N - 1) else x % 2 ^ (c.N - 1))
    ∧ (Format.isFinite c x = false → Y = 0)
    ∧ (Format.isFinite c x = true → Y ≠ 0 ∧ Y = absPattern c x)

/-- O5. 40_decoder.md R57: the leading-zero count of `Y XOR rep(rc)` is the length of the run at the top of Y,
between 1 and N-1, N-1 exactly when all bits are equal, and otherwise followed by a terminator. -/
def Obligations.RunLengthDetectorCountsTheRun : Prop :=
  ∀ (c : Cfg) (Y : BitVec (c.N - 1)),
    let rc := regimeCheckBit Y
    let m := runLengthOf Y
    m = Format.runLength rc Y.toNat (c.N - 1)
    ∧ 1 ≤ m ∧ m ≤ c.N - 1
    ∧ (∀ i, i < m → Y.getMsbD i = rc)
    ∧ (m = c.N - 1 ↔ (Y = BitVec.allOnes (c.N - 1) ∨ Y = 0#(c.N - 1)))
    ∧ (m < c.N - 1 → Y.getLsbD (c.N - 2 - m) = !rc)

/-- O6. 40_decoder.md R56 and R58: for a finite pattern, `RegSign` is the top bit of the magnitude view, `RegMag`
is the run length less one without truncation, and `Reg` reads as the signed regime of the format. -/
def Obligations.DecodeReportsTheRegime : Prop :=
  ∀ (s : State) (x : Nat), x < 2 ^ s.cfg.N → Format.isFinite s.cfg x = true →
    let y := Format.magnitude s.cfg x
    let m := Format.regimeRun s.cfg y
    ∃ t, exec (.decode x) s = .next t
      ∧ t.dec.regSign = y.testBit (s.cfg.N - 2)
      ∧ t.dec.regMag.uint + 1 = m
      ∧ m - 1 ≤ s.cfg.N - 2 ∧ s.cfg.N - 2 < 2 ^ s.cfg.RFW
      ∧ (t.dec.regSign = true → t.dec.reg.sint = (m : Int) - 1 ∧ |t.dec.reg.sint| = t.dec.regMag.uint)
      ∧ (t.dec.regSign = false → t.dec.reg.sint = -(m : Int) ∧ |t.dec.reg.sint| = t.dec.regMag.uint + 1)
      ∧ -((s.cfg.N : Int) - 2) ≤ t.dec.reg.sint ∧ t.dec.reg.sint ≤ (s.cfg.N : Int) - 2

/-- O7. 40_decoder.md R59: the Exp port is the top es bits of `U = (Y << (m + 1)) mod 2^(N-1)`, U is 0 when the run
fills the body, the port reads as the exponent of the format, and it is the single bit 0 when es = 0. -/
def Obligations.DecodeReportsTheExponent : Prop :=
  ∀ (s : State) (x : Nat), x < 2 ^ s.cfg.N → Format.isFinite s.cfg x = true →
    let y := Format.magnitude s.cfg x
    let m := Format.regimeRun s.cfg y
    let U := y * 2 ^ (m + 1) % 2 ^ (s.cfg.N - 1)
    ∃ t, exec (.decode x) s = .next t
      ∧ (m = s.cfg.N - 1 → U = 0)
      ∧ (0 < s.cfg.es → t.dec.exp.uint = U / 2 ^ (s.cfg.N - 1 - s.cfg.es))
      ∧ t.dec.exp.uint = Format.exponent s.cfg y
      ∧ (s.cfg.es = 0 → t.dec.exp = ⟨1, 0#1⟩)

/-- O8. 40_decoder.md section 1 (R60, a decision: D7) and 30_encoding.md section 2 (R44, derived): the marker of Frac is 1
exactly for finite patterns, and below it stands the fraction field, left-aligned, with zeros below its nf bits. -/
def Obligations.DecodeReportsTheFraction : Prop :=
  ∀ (s : State) (x : Nat), x < 2 ^ s.cfg.N →
    let y := Format.magnitude s.cfg x
    let nf := Format.fractionBits s.cfg (Format.regimeRun s.cfg y)
    ∃ t, exec (.decode x) s = .next t
      ∧ t.dec.frac.uint.testBit (s.cfg.FW - 1) = Format.isFinite s.cfg x
      ∧ (Format.isFinite s.cfg x = true →
          nf ≤ s.cfg.FW - 1
          ∧ t.dec.frac.uint = 2 ^ (s.cfg.FW - 1) + Format.fraction s.cfg y * 2 ^ (s.cfg.FW - 1 - nf))

/-- O9. 10_state.md section 4 (R24, a decision: D9): on zero and NaR the unspecified outputs are the free values that this
evaluation draws (log 4), whatever they are, and nothing else of the ports is. -/
def Obligations.VoidOutputsAreTheDrawnValues : Prop :=
  ∀ (s : State) (x : Nat), x = 0 ∨ x = 2 ^ (s.cfg.N - 1) →
    let v := drawVoids s.cfg s.draws
    ∃ t, exec (.decode x) s = .next t
      ∧ t.dec = { x := patternBits s.cfg x, sign := decide (x ≠ 0), isZero := decide (x = 0), isNaR := decide (x ≠ 0)
                  regSign := v.regSign, regMag := Bits.of v.regMag, reg := Bits.of v.reg, exp := Bits.of v.exp
                  frac := Bits.of (fracPort (c := s.cfg) false v.fracLow) }

/-- O10. 40_decoder.md section 3 (R63, derived): the decoded fields of a finite pattern give its value. -/
def Obligations.DecodedFieldsGiveTheValue : Prop :=
  ∀ (s : State) (x : Nat), x < 2 ^ s.cfg.N → Format.isFinite s.cfg x = true →
    ∃ t, exec (.decode x) s = .next t
      ∧ Format.value s.cfg x =
          some ((-1) ^ (if t.dec.sign then 1 else 0)
            * (2 : ℚ) ^ (t.dec.reg.sint * 2 ^ s.cfg.es + exponentValue s.cfg t.dec)
            * t.dec.frac.uint / 2 ^ (s.cfg.FW - 1))
      ∧ 1 ≤ (t.dec.frac.uint : ℚ) / 2 ^ (s.cfg.FW - 1) ∧ (t.dec.frac.uint : ℚ) / 2 ^ (s.cfg.FW - 1) < 2

/-- O11. 40_decoder.md section 3 (R64, derived): re-encoding the decoded fields of a finite pattern gives it back. -/
def Obligations.ReencodingDecodedFieldsGivesThePattern : Prop :=
  ∀ (s : State) (x : Nat), x < 2 ^ s.cfg.N → Format.isFinite s.cfg x = true →
    ∃ t, exec (.decode x) s = .next t
      ∧ Reference.reencode s.cfg t.dec.sign t.dec.reg.sint (exponentValue s.cfg t.dec)
          (t.dec.frac.uint % 2 ^ (s.cfg.FW - 1)) (s.cfg.FW - 1) = x

/-- O12. 30_encoding.md section 1 (R40, derived): a finite pattern and its negation decode to the same regime, exponent and
fraction, with opposite signs. -/
def Obligations.NegationKeepsMagnitudeFields : Prop :=
  ∀ (s : State) (x : Nat), x < 2 ^ s.cfg.N → Format.isFinite s.cfg x = true →
    ∃ t u, exec (.decode x) s = .next t ∧ exec (.decode (Format.neg s.cfg.N x)) s = .next u
      ∧ u.dec.sign = !t.dec.sign
      ∧ u.dec.regSign = t.dec.regSign ∧ u.dec.regMag = t.dec.regMag ∧ u.dec.reg = t.dec.reg
      ∧ u.dec.exp = t.dec.exp ∧ u.dec.frac = t.dec.frac

/-- O13. 40_decoder.md section 3 (R65, derived) and 30_encoding.md section 2 (R46, derived): the fields and values of maxpos,
of minpos (for N >= 3) and of one. -/
def Obligations.ExtremePatternsDecode : Prop :=
  ∀ (s : State),
    (∃ t, exec (.decode (Format.maxpos s.cfg)) s = .next t
      ∧ t.dec.regSign = true ∧ t.dec.regMag.uint = s.cfg.N - 2 ∧ t.dec.reg.sint = (s.cfg.N : Int) - 2
      ∧ t.dec.exp.uint = 0 ∧ t.dec.frac.uint = 2 ^ (s.cfg.FW - 1)
      ∧ Format.value s.cfg (Format.maxpos s.cfg) = some ((2 : ℚ) ^ (((s.cfg.N : Int) - 2) * 2 ^ s.cfg.es)))
    ∧ (3 ≤ s.cfg.N → ∃ t, exec (.decode Format.minpos) s = .next t
      ∧ t.dec.regSign = false ∧ t.dec.regMag.uint = s.cfg.N - 3 ∧ t.dec.reg.sint = -((s.cfg.N : Int) - 2)
      ∧ t.dec.exp.uint = 0 ∧ t.dec.frac.uint = 2 ^ (s.cfg.FW - 1)
      ∧ Format.value s.cfg Format.minpos = some ((2 : ℚ) ^ (-((s.cfg.N : Int) - 2) * 2 ^ s.cfg.es)))
    ∧ (∃ t, exec (.decode (Format.one s.cfg)) s = .next t
      ∧ t.dec.regSign = true ∧ t.dec.reg.sint = 0 ∧ t.dec.exp.uint = 0 ∧ t.dec.frac.uint = 2 ^ (s.cfg.FW - 1)
      ∧ Format.value s.cfg (Format.one s.cfg) = some 1)

/-- O14. 41_multiplier.md section 3 (R83; R84, derived): MUL answers on every pair of patterns with the exactly computed,
then rounded product, for every configuration; nothing but the multiplier's ports and the draw counter (log 4) changes. -/
def Obligations.MulAnswersTheReferenceProduct : Prop :=
  ∀ (s : State) (x y : Nat), x < 2 ^ s.cfg.N → y < 2 ^ s.cfg.N →
    Reference.mulRef s.cfg x y < 2 ^ s.cfg.N
    ∧ exec (.mul x y) s =
        .next { s with
          mul := ⟨patternBits s.cfg x, patternBits s.cfg y, patternBits s.cfg (Reference.mulRef s.cfg x y)⟩
          draws := s.draws + 2 * drawsPerDecode }

/-- O15. 41_multiplier.md section 3 (the equivalent form at the end of R83): the magnitude of a finite product is maxpos or
minpos outside the range, and between neighbours u and u + 1 it is u + 1 exactly when the (N+1)-bit pattern
`u ‖ 1` lies below the exact product, or equals it and u is odd. -/
def Obligations.MulRoundsByTheHalfwayPattern : Prop :=
  ∀ (s : State) (x y : Nat), x < 2 ^ s.cfg.N → y < 2 ^ s.cfg.N →
    Format.isFinite s.cfg x = true → Format.isFinite s.cfg y = true →
    let w := |realValue s.cfg x * realValue s.cfg y|
    ∃ t, exec (.mul x y) s = .next t
      ∧ (realValue s.cfg (Format.maxpos s.cfg) ≤ w → absPattern s.cfg t.mul.r.uint = Format.maxpos s.cfg)
      ∧ (w ≤ realValue s.cfg Format.minpos → absPattern s.cfg t.mul.r.uint = Format.minpos)
      ∧ (∀ u, 1 ≤ u → u < Format.maxpos s.cfg → realValue s.cfg u < w → w < realValue s.cfg (u + 1) →
          let half := realValue (oneBitWider s.cfg) (2 * u + 1)
          absPattern s.cfg t.mul.r.uint = if half < w ∨ (half = w ∧ u % 2 = 1) then u + 1 else u)

/-- O16. 41_multiplier.md R68 and R80: NaR if an operand is NaR; else `0^N` if one is zero; else the datapath's
result. The answer does not depend on what the embedded decoders drive on their void outputs. -/
def Obligations.SpecialOperandsOverrideTheDatapath : Prop :=
  ∀ (s : State) (x y : Nat), x < 2 ^ s.cfg.N → y < 2 ^ s.cfg.N →
    ∃ t, exec (.mul x y) s = .next t
      ∧ ∀ vA vB : Voids s.cfg,
          let g := mulSignals (operand s.cfg vA x) (operand s.cfg vB y)
          (g.resNaR = true ↔ (x = 2 ^ (s.cfg.N - 1) ∨ y = 2 ^ (s.cfg.N - 1)))
          ∧ (g.resZero = true ↔ ((x = 0 ∨ y = 0) ∧ x ≠ 2 ^ (s.cfg.N - 1) ∧ y ≠ 2 ^ (s.cfg.N - 1)))
          ∧ t.mul.r = Bits.of (if g.resNaR then BitVec.ofNat s.cfg.N (2 ^ (s.cfg.N - 1)) else if g.resZero then 0#s.cfg.N else g.res)

/-- O17. 10_state.md R16: the outputs of an evaluation are a function of its inputs and the configuration alone.
Two states of one configuration, whatever else differs, give the same product, and the same decoder outputs but for
the void ones (R24), which are free values (log 4). -/
def Obligations.OutputsDependOnlyOnInputsAndConfiguration : Prop :=
  ∀ (s₁ s₂ : State), s₁.cfg = s₂.cfg → ∀ x y : Nat, x < 2 ^ s₁.cfg.N → y < 2 ^ s₁.cfg.N →
    (∃ t₁ t₂, exec (.mul x y) s₁ = .next t₁ ∧ exec (.mul x y) s₂ = .next t₂ ∧ t₁.mul = t₂.mul)
    ∧ (∃ t₁ t₂, exec (.decode x) s₁ = .next t₁ ∧ exec (.decode x) s₂ = .next t₂
        ∧ (Format.isFinite s₁.cfg x = true → t₁.dec = t₂.dec)
        ∧ t₁.dec.x = t₂.dec.x ∧ t₁.dec.sign = t₂.dec.sign ∧ t₁.dec.isZero = t₂.dec.isZero ∧ t₁.dec.isNaR = t₂.dec.isNaR
        ∧ t₁.dec.frac.uint.testBit (s₁.cfg.FW - 1) = t₂.dec.frac.uint.testBit (s₁.cfg.FW - 1))

/-- O18. 41_multiplier.md section 4 (R85, derived): MUL is commutative, bit for bit, NaR and zero included. -/
def Obligations.MulCommutes : Prop :=
  ∀ (s : State) (x y : Nat), x < 2 ^ s.cfg.N → y < 2 ^ s.cfg.N →
    ∃ t u, exec (.mul x y) s = .next t ∧ exec (.mul y x) s = .next u ∧ t.mul.r = u.mul.r

/-- O19. 41_multiplier.md section 4 (R85, derived): `MUL(one, x) = x` for every pattern, NaR and zero included. -/
def Obligations.OneIsTheIdentity : Prop :=
  ∀ (s : State) (x : Nat), x < 2 ^ s.cfg.N →
    ∃ t, exec (.mul (Format.one s.cfg) x) s = .next t ∧ t.mul.r = patternBits s.cfg x

/-- O20. 41_multiplier.md section 4 (R85, derived): negating a finite operand negates the product. -/
def Obligations.NegatedOperandNegatesTheProduct : Prop :=
  ∀ (s : State) (x y : Nat), x < 2 ^ s.cfg.N → y < 2 ^ s.cfg.N →
    Format.isFinite s.cfg x = true → Format.isFinite s.cfg y = true →
    ∃ t u, exec (.mul x y) s = .next t ∧ exec (.mul (Format.neg s.cfg.N x) y) s = .next u
      ∧ u.mul.r.uint = Format.neg s.cfg.N t.mul.r.uint

/-- O21. 41_multiplier.md section 1 (R81, derived; R69 and R79): a finite product is `0 ‖ mag` or its negation by the exclusive
or of the signs, with `1 <= mag <= 2^(N-1) - 1`; so it is neither zero nor NaR. -/
def Obligations.FiniteProductIsSignedMagnitude : Prop :=
  ∀ (s : State) (x y : Nat), x < 2 ^ s.cfg.N → y < 2 ^ s.cfg.N →
    Format.isFinite s.cfg x = true → Format.isFinite s.cfg y = true →
    ∃ t mag, exec (.mul x y) s = .next t
      ∧ 1 ≤ mag ∧ mag ≤ 2 ^ (s.cfg.N - 1) - 1
      ∧ t.mul.r.uint = Reference.withSign s.cfg (Format.signBit s.cfg x ^^ Format.signBit s.cfg y) mag
      ∧ Format.isFinite s.cfg t.mul.r.uint = true

/-- O22. 41_multiplier.md section 1 (R73): for finite operands the scale-factor sum is the exact sum plus `ovf`, never wraps
and lies in its range. The first clause is not R73's: each combined scale factor reads as `k * 2^es + e` (R70, a
decision: D6, by R50 of 30_encoding.md section 3, derived). -/
def Obligations.ScaleFactorSumNeverWraps : Prop :=
  ∀ (c : Cfg) (vA vB : Voids c) (x y : Nat), x < 2 ^ c.N → y < 2 ^ c.N →
    Format.isFinite c x = true → Format.isFinite c y = true →
    let g := mulSignals (operand c vA x) (operand c vB y)
    g.sfA.toInt = Format.scaleFactor c x ∧ g.sfB.toInt = Format.scaleFactor c y
    ∧ g.SS = g.sfA.signExtend c.SSW + g.sfB.signExtend c.SSW + (BitVec.ofBool g.ovf).setWidth c.SSW
    ∧ g.SS.toInt = Format.scaleFactor c x + Format.scaleFactor c y + (if g.ovf then 1 else 0)
    ∧ -2 * ((c.N : Int) - 2) * 2 ^ c.es ≤ g.SS.toInt ∧ g.SS.toInt ≤ 2 * ((c.N : Int) - 1) * 2 ^ c.es - 1

/-- O23. 41_multiplier.md R74: the high bits of the sum are its floor quotient by 2^es, the low bits its remainder,
for any decoded operands. -/
def Obligations.SumSplitsIntoRegimeAndExponent : Prop :=
  ∀ (c : Cfg) (A B : DecodedPorts c),
    let g := mulSignals A B
    g.K.toInt = g.SS.toInt / 2 ^ c.es ∧ (g.E.toNat : Int) = g.SS.toInt % 2 ^ c.es
    ∧ (c.es = 0 → g.K.toInt = g.SS.toInt)

/-- O24. 41_multiplier.md section 1 (R71, a decision: D15): the significand product is exact, and for finite operands its leading
one is in one of the two top bits. -/
def Obligations.SignificandProductIsExact : Prop :=
  ∀ (c : Cfg),
    (∀ A B : DecodedPorts c, (mulSignals A B).P.toNat = A.frac.toNat * B.frac.toNat)
    ∧ ∀ (vA vB : Voids c) (x y : Nat), x < 2 ^ c.N → y < 2 ^ c.N →
        Format.isFinite c x = true → Format.isFinite c y = true →
        2 ^ (c.PW - 2) ≤ (mulSignals (operand c vA x) (operand c vB y)).P.toNat

/-- O25. 41_multiplier.md R72: for finite operands, `ovf` says that the product is in [2,4), and the normalised fraction
with its hidden leading one is the product, shifted, with no bit dropped; with FW = 1 both are 0. -/
def Obligations.NormaliserDropsNoBit : Prop :=
  ∀ (c : Cfg) (vA vB : Voids c) (x y : Nat), x < 2 ^ c.N → y < 2 ^ c.N →
    Format.isFinite c x = true → Format.isFinite c y = true →
    let g := mulSignals (operand c vA x) (operand c vB y)
    (g.ovf = true ↔ 2 ≤ (g.P.toNat : ℚ) / 2 ^ (c.PW - 2))
    ∧ (g.ovf = true ↔ 2 ≤ Format.significand c x * Format.significand c y)
    ∧ 2 ^ c.FRW + g.FR.toNat = (if g.ovf then g.P.toNat else 2 * g.P.toNat)
    ∧ (c.FW = 1 → g.P.toNat = 1 ∧ g.ovf = false ∧ g.FR.toNat = 0)

/-- O26. 41_multiplier.md R75: the result regime of two finite operands saturates exactly outside [-(N-2), N-2], on one
side at most, and the answer is then maxpos or minpos with the product's sign, whatever the overshoot. -/
def Obligations.OutOfRangeRegimeSaturates : Prop :=
  ∀ (s : State) (x y : Nat), x < 2 ^ s.cfg.N → y < 2 ^ s.cfg.N →
    Format.isFinite s.cfg x = true → Format.isFinite s.cfg y = true →
    let carry : Int := if 2 ≤ Format.significand s.cfg x * Format.significand s.cfg y then 1 else 0
    let K := (Format.scaleFactor s.cfg x + Format.scaleFactor s.cfg y + carry) / 2 ^ s.cfg.es
    let sign := Format.signBit s.cfg x ^^ Format.signBit s.cfg y
    ∃ t, exec (.mul x y) s = .next t
      ∧ (∀ vA vB : Voids s.cfg,
          let g := mulSignals (operand s.cfg vA x) (operand s.cfg vB y)
          (g.satHi = true ↔ K > (s.cfg.N : Int) - 2) ∧ (g.satLo = true ↔ K < -((s.cfg.N : Int) - 2))
          ∧ ¬(g.satHi = true ∧ g.satLo = true))
      ∧ (K > (s.cfg.N : Int) - 2 → t.mul.r = patternBits s.cfg (Reference.withSign s.cfg sign (Format.maxpos s.cfg)))
      ∧ (K < -((s.cfg.N : Int) - 2) → t.mul.r = patternBits s.cfg (Reference.withSign s.cfg sign Format.minpos))

/-- O27. 41_multiplier.md section 1 (R77, derived in part): when the result does not saturate, the kept bits, the guard bit, the
round bit and the sticky bit are the first N-1 bits, the next two and the OR of the rest of the encoding string. -/
def Obligations.ShifterGivesTheEncodingString : Prop :=
  ∀ (c : Cfg) (vA vB : Voids c) (x y : Nat), x < 2 ^ c.N → y < 2 ^ c.N →
    Format.isFinite c x = true → Format.isFinite c y = true →
    let g := mulSignals (operand c vA x) (operand c vB y)
    let b := Reference.encodingString c g.K.toInt g.E.toNat ((g.FR.toNat : ℚ) / 2 ^ c.FRW)
    g.satHi = false → g.satLo = false →
    g.sh ≤ c.N - 2
    ∧ g.trunc.toNat = Reference.firstBits b (c.N - 1)
    ∧ g.L = Reference.bitAt b (c.N - 1)
    ∧ g.G = Reference.bitAt b c.N
    ∧ g.Rb = Reference.bitAt b (c.N + 1)
    ∧ g.St = Reference.anyBitAfter b (c.N + 1)

/-- O28. 41_multiplier.md R78: saturation or rounding by `G AND (L OR R OR S)`; the addition never carries out. -/
def Obligations.RoundingNeverCarriesOut : Prop :=
  ∀ (c : Cfg) (vA vB : Voids c) (x y : Nat), x < 2 ^ c.N → y < 2 ^ c.N →
    Format.isFinite c x = true → Format.isFinite c y = true →
    let g := mulSignals (operand c vA x) (operand c vB y)
    g.rnd = (g.G && (g.L || g.Rb || g.St))
    ∧ (g.satHi = true → g.mag = BitVec.allOnes (c.N - 1))
    ∧ (g.satLo = true → g.mag.toNat = 1)
    ∧ (g.satHi = false → g.satLo = false → g.mag.toNat = g.trunc.toNat + (if g.rnd then 1 else 0))

/-- O29. 60_exceptions.md section 2 (R90, but for its configuration error): NaR over zero over saturation over rounding; satHi and satLo never both hold; DECODE's
flags are exclusive. -/
def Obligations.SpecialConditionsResolveInOrder : Prop :=
  ∀ (s : State) (x y : Nat), x < 2 ^ s.cfg.N → y < 2 ^ s.cfg.N →
    ∃ t, exec (.mul x y) s = .next t
      ∧ ∀ vA vB : Voids s.cfg,
          let A := operand s.cfg vA x
          let B := operand s.cfg vB y
          let g := mulSignals A B
          let answer : Nat → Prop := fun p => t.mul.r = patternBits s.cfg p
          ¬(A.isZero = true ∧ A.isNaR = true) ∧ ¬(g.satHi = true ∧ g.satLo = true)
          ∧ (A.isNaR = true ∨ B.isNaR = true → answer (Format.narPattern s.cfg))
          ∧ (A.isNaR = false → B.isNaR = false → A.isZero = true ∨ B.isZero = true → answer Format.zeroPattern)
          ∧ (Format.isFinite s.cfg x = true → Format.isFinite s.cfg y = true →
              (g.satHi = true → answer (Reference.withSign s.cfg g.s (Format.maxpos s.cfg)))
              ∧ (g.satLo = true → answer (Reference.withSign s.cfg g.s Format.minpos))
              ∧ (g.satHi = false → g.satLo = false →
                  answer (Reference.withSign s.cfg g.s (g.trunc.toNat + (if g.rnd then 1 else 0)))))

/-- O30. 41_multiplier.md section 4 (R85, derived: an exact product is not changed by rounding), for every representable product. -/
def Obligations.RepresentableProductsAreExact : Prop :=
  ∀ (s : State) (x y z : Nat), x < 2 ^ s.cfg.N → y < 2 ^ s.cfg.N → z < 2 ^ s.cfg.N →
    Format.isFinite s.cfg x = true → Format.isFinite s.cfg y = true →
    Format.value s.cfg z = some (realValue s.cfg x * realValue s.cfg y) →
    ∃ t, exec (.mul x y) s = .next t ∧ t.mul.r = patternBits s.cfg z

/-- O31. 30_encoding.md section 1 (R39; the rows' meaning is the model's choice, log 2): the pattern `0^N` is zero with value 0,
the pattern `1 ‖ 0^(N-1)` is NaR with no value, every other pattern is finite. Stated of the rows ZERO and NAR, which
complete in every state and change nothing but the decoder's ports and the draw counter (the model's choice, log 4), and
of DECODE. -/
def Obligations.ZeroAndNaRRowsComplete : Prop :=
  ∀ s : State,
    (∃ p : DecoderPorts, exec .operandClassZero s = .next { s with dec := p, draws := s.draws + drawsPerDecode }
      ∧ p.x = patternBits s.cfg 0 ∧ p.isZero = true ∧ p.isNaR = false ∧ p.sign = false
      ∧ p.frac.uint.testBit (s.cfg.FW - 1) = false ∧ Format.value s.cfg p.x.uint = some 0)
    ∧ (∃ p : DecoderPorts, exec .operandClassNaR s = .next { s with dec := p, draws := s.draws + drawsPerDecode }
      ∧ p.x = patternBits s.cfg (2 ^ (s.cfg.N - 1)) ∧ p.isZero = false ∧ p.isNaR = true ∧ p.sign = true
      ∧ p.frac.uint.testBit (s.cfg.FW - 1) = false ∧ Format.value s.cfg p.x.uint = none)
    ∧ (∀ x, x < 2 ^ s.cfg.N → x ≠ 0 → x ≠ 2 ^ (s.cfg.N - 1) →
        ∃ t, exec (.decode x) s = .next t ∧ t.dec.isZero = false ∧ t.dec.isNaR = false
          ∧ ∃ q, Format.value s.cfg x = some q ∧ q ≠ 0)

/-- O32. 30_encoding.md section 1 (R38, R40; the rows' meaning is the model's choice, log 2): the rows POS_FINITE and NEG_FINITE
complete for every nonzero body, with neither flag and the sign of their class, and a negative body decodes to the fields of
the positive pattern of its negation; nothing but the decoder's ports and the draw counter (the model's, log 4) changes. -/
def Obligations.FiniteClassRowsComplete : Prop :=
  ∀ (s : State) (b : Nat), 0 < b → b < 2 ^ (s.cfg.N - 1) →
    ∃ p n : DecoderPorts,
      exec (.operandClassPosFinite b) s = .next { s with dec := p, draws := s.draws + drawsPerDecode }
      ∧ exec (.operandClassNegFinite b) s = .next { s with dec := n, draws := s.draws + drawsPerDecode }
      ∧ p.x = patternBits s.cfg b ∧ p.sign = false ∧ p.isZero = false ∧ p.isNaR = false
      ∧ n.x = patternBits s.cfg (2 ^ (s.cfg.N - 1) + b) ∧ n.sign = true ∧ n.isZero = false ∧ n.isNaR = false
      ∧ ∃ t, exec (.decode (2 ^ (s.cfg.N - 1) - b)) s = .next t
          ∧ n.regSign = t.dec.regSign ∧ n.regMag = t.dec.regMag ∧ n.reg = t.dec.reg ∧ n.exp = t.dec.exp ∧ n.frac = t.dec.frac

/-- O33. 30_encoding.md section 2 (R41, R43, R44; the row's meaning is the model's choice, log 2 and log 9): the row of regimes
k >= 0 completes for every run and fields that fit, and the decoder reports exactly that run, exponent and fraction;
nothing but the decoder's ports and the draw counter (the model's, log 4) changes. -/
def Obligations.NonnegativeRegimeRowCompletes : Prop :=
  ∀ (s : State) (m e f : Nat), Instr.wellFormed s.cfg (.regimeClassNonneg m e f) = true →
    ∃ p : DecoderPorts,
      exec (.regimeClassNonneg m e f) s = .next { s with dec := p, draws := s.draws + drawsPerDecode }
      ∧ p.x = patternBits s.cfg (Format.assemble s.cfg true m e f)
      ∧ p.sign = false ∧ p.isZero = false ∧ p.isNaR = false
      ∧ p.regSign = true ∧ p.regMag.uint = m - 1 ∧ p.reg.sint = (m : Int) - 1
      ∧ p.exp.uint = e
      ∧ p.frac.uint = 2 ^ (s.cfg.FW - 1) + f * 2 ^ (s.cfg.FW - 1 - Format.fractionBits s.cfg m)

/-- O34. The same for the row of regimes k < 0 (30_encoding.md section 2: R41, R43, R44; the model's choice: log 2,
log 9 and log 4). -/
def Obligations.NegativeRegimeRowCompletes : Prop :=
  ∀ (s : State) (m e f : Nat), Instr.wellFormed s.cfg (.regimeClassNeg m e f) = true →
    ∃ p : DecoderPorts,
      exec (.regimeClassNeg m e f) s = .next { s with dec := p, draws := s.draws + drawsPerDecode }
      ∧ p.x = patternBits s.cfg (Format.assemble s.cfg false m e f)
      ∧ p.sign = false ∧ p.isZero = false ∧ p.isNaR = false
      ∧ p.regSign = false ∧ p.regMag.uint = m - 1 ∧ p.reg.sint = -(m : Int)
      ∧ p.exp.uint = e
      ∧ p.frac.uint = 2 ^ (s.cfg.FW - 1) + f * 2 ^ (s.cfg.FW - 1 - Format.fractionBits s.cfg m)

/-- O35. The encoder and the decoder of drives agree, for every well-formed instruction of every configuration
(30_encoding.md sections 1 to 3). That a class row is an instruction, given by a bare word of N or of N-1 bits, is the
model's choice (log 2, log 8, log 9). -/
def Obligations.DecodeOfEncodeIsTheInstruction : Prop :=
  ∀ (c : Cfg) (i : Instr), i.wellFormed c = true → decode c (encode c i) = .ok i

/-- O36. Every drive that decodes is the encoding of the well-formed instruction it decodes to: no two drives mean
the same instruction (30_encoding.md sections 1 to 3). The reading of bare words by their width, and what is rejected, are
the model's choice (log 2, log 6, log 8, log 9). -/
def Obligations.DecodedDrivesAreEncodings : Prop :=
  ∀ (c : Cfg) (d : Drive) (i : Instr), decode c d = .ok i → i.wellFormed c = true ∧ encode c i = d

/-- O37. 30_encoding.md section 2 (R48, but for its configurations): every N-bit pattern is an operand of DECODE and of MUL;
none is refused. The third clause is the model's choice and not R48's: the pattern as a bare word is read as a row of
its operand class (log 8), and that row completes (log 2). -/
def Obligations.EveryPatternIsAValidOperand : Prop :=
  ∀ (s : State) (x y : Nat), x < 2 ^ s.cfg.N → y < 2 ^ s.cfg.N →
    (∃ t, exec (.decode x) s = .next t) ∧ (∃ t, exec (.mul x y) s = .next t)
    ∧ (∃ i t, decode s.cfg (.word s.cfg.N x) = .ok i ∧ exec i s = .next t)

/-- O38. The pattern rows mean DECODE of their patterns: the model's choice (log 2, log 8, log 9), on 30_encoding.md section 3. That
the void outputs of the two agree as well is log 17: a draw depends on its number alone, not on the instruction. -/
def Obligations.PatternRowsMeanDecode : Prop :=
  ∀ (s : State) (x : Nat) (i : Instr),
    (decode s.cfg (.word s.cfg.N x) = .ok i → exec i s = exec (.decode x) s)
    ∧ (decode s.cfg (.word (s.cfg.N - 1) x) = .ok i → exec i s = exec (.decode x) s)

/-- O39. 60_exceptions.md section 1 (R88, but for its table): no evaluation of a well-formed instruction raises, traps, stalls
or refuses. The converse, that an instruction with ill-formed operands is refused, is the model's choice (log 6). That no
step faults is the model's reading of R88 (DEDUCED, log 13): the type Fault has no constructor. -/
def Obligations.WellFormedInstructionsNeverStop : Prop :=
  ∀ (s : State) (i : Instr),
    (i.wellFormed s.cfg = true ↔ ∃ t, exec i s = .next t) ∧ (∀ f, step s ≠ .fault f)

/-- O40. 10_state.md R20: no operation and no step changes the configuration, and it is legal. -/
def Obligations.ConfigurationNeverChanges : Prop :=
  ∀ (s t : State), ((∃ i, exec i s = .next t) ∨ step s = .next t) →
    t.cfg = s.cfg ∧ 2 ≤ t.cfg.N ∧ t.cfg.es ≤ t.cfg.N - 2

/-- O41. 10_state.md sections 1 to 4: an operation writes the ports of its own block and nothing else of the spec's state; MUL
leaves the decoder's ports and flags, every other instruction the multiplier's; names and pending interactions stay (the
ports of the last evaluation and the queue stand in State by the model's choice, log 3 and log 5; the pattern rows, log 2). -/
def Obligations.OperationsWriteOnlyTheirOwnPorts : Prop :=
  ∀ (s t : State) (i : Instr), exec i s = .next t →
    t.cfg = s.cfg ∧ t.names = s.names ∧ t.pending = s.pending
    ∧ (match i with
        | .mul _ _ => t.dec = s.dec
        | _ => t.mul = s.mul)

/-- O42. The invariant holds in State.reset (the reset values are the model's choice: log 1, log 3). -/
def Obligations.ResetMeetsTheInvariant : Prop := Inv State.reset = true

/-- O43. Every step keeps the invariant: port widths, flags and marker as 10_state.md sections 3 and 4 say, products that are NaR or
zero only as 41_multiplier.md section 1 says, and names bound once, to good results (30_encoding.md section 4). That State
holds the ports of the last evaluation, and that a step with nothing pending is idle, are the model's choice (log 3, log 5). -/
def Obligations.StepKeepsTheInvariant : Prop :=
  ∀ s t : State, Inv s = true → step s = .next t → Inv t = true

/-- O44. 60_exceptions.md section 6: no interaction that the notation and the host interface admit is refused or hangs. A step from an
admitted state answers a next state, and that state is admitted. Bare words as interactions, the queue, and the step of a
host with nothing pending, which is idle, are the model's choice (log 8, log 5). -/
def Obligations.AdmittedStatesStepToAdmittedStates : Prop :=
  ∀ s : State, Admitted s = true → ∃ t, step s = .next t ∧ Admitted t = true

/-- O45. 30_encoding.md section 4 and 60_exceptions.md section 6: an admitted program of a legal configuration loads, and
running it for any number of steps never stops. A program is finite: after its lines the run goes on by idle steps, which
is the model's choice (log 5), as are the queue and the loading itself. -/
def Obligations.AdmittedProgramsRunForever : Prop :=
  ∀ (p : Program) (c : Cfg), p.N = c.N → p.es = c.es → linesAdmitted c [] p.lines = true →
    ∃ s, loadProgram p = .next s ∧ s.cfg = c ∧ s.pending = p.lines.map Move.line
      ∧ ∀ k, ∃ t, core.run k s = .next t

/-- O46. One evaluation is one step (70_reset_and_hazards.md section 2: R100, a decision: D3, D17), and a line then binds its
name (30_encoding.md section 4). The rest is the model's choice: a queue from which a step takes the oldest interaction,
and, where nothing is pending, a step that changes nothing (log 5, unsafe; the spec says nothing of an idle host); and a
bare word as an interaction, read by its width (log 8). -/
def Obligations.StepRunsTheDecodedInstruction : Prop :=
  ∀ (s : State) (rest : List Move) (i : Instr),
    (s.pending = [] → step s = .next s)
    ∧ (∀ nbits w, s.pending = .word nbits w :: rest → decode s.cfg (.word nbits w) = .ok i →
        step s = exec i { s with pending := rest })
    ∧ (∀ l d, s.pending = .line l :: rest → s.names.lookup l.dst = none → resolveOperation s.names l.op = .ok d →
        decode s.cfg d = .ok i →
        step s = match exec i { s with pending := rest } with
          | .next t => .next { t with names := (l.dst, lineResult l.op t) :: t.names }
          | .fault f => .fault f
          | .refused r => .refused r)

/-- O47. 30_encoding.md section 4 (R51, a decision: D14): a line evaluates its operation on its operands' patterns and binds its name
to the result; every other name keeps what it was bound to. The line stands at the head of the queue, and names are numbers,
by the model's choice (log 5, log 7). -/
def Obligations.LinesBindTheirResults : Prop :=
  ∀ (s : State) (n : Name) (a b : Operand) (p q : Nat) (rest : List Move),
    s.names.lookup n = none → resolveOperand s.names a = .ok p → resolveOperand s.names b = .ok q →
    p < 2 ^ s.cfg.N → q < 2 ^ s.cfg.N →
    (s.pending = .line ⟨n, .mul a b⟩ :: rest →
      ∃ t, step s = .next t ∧ t.pending = rest
        ∧ t.names.lookup n = some (.pattern (patternBits s.cfg (Reference.mulRef s.cfg p q)))
        ∧ ∀ k, k ≠ n → t.names.lookup k = s.names.lookup k)
    ∧ (s.pending = .line ⟨n, .decode a⟩ :: rest →
      ∃ t, step s = .next t ∧ t.pending = rest
        ∧ exec (.decode p) { s with pending := rest } = .next { t with names := s.names }
        ∧ t.names.lookup n = some (.record t.dec)
        ∧ ∀ k, k ≠ n → t.names.lookup k = s.names.lookup k)

/-- O48. 30_encoding.md section 4 (R51, a decision: D14; the refusals are the model's choice, log 6 and log 7): a line that
binds a name again, uses a name no earlier line binds, uses a DECODE record as a pattern, or has a literal of more than N
bits, is refused by name, whether it is a DECODE or a MUL line and whichever operand is the bad one. Of two bad
names the first is the one refused, and a bad name is refused before a literal of more than N bits. -/
def Obligations.LinesOutsideTheNotationAreRefused : Prop :=
  ∀ (s : State) (n : Name) (rest : List Move),
    (∀ op, s.pending = .line ⟨n, op⟩ :: rest → (s.names.lookup n).isSome = true → step s = .refused (.nameBoundTwice n))
    ∧ (s.names.lookup n = none →
        (∀ (bad : Operand) (r : Refusal),
          ((∃ m, bad = .name m ∧ s.names.lookup m = none ∧ r = .nameNotBound m)
            ∨ (∃ m d, bad = .name m ∧ s.names.lookup m = some (.record d) ∧ r = .nameIsRecord m)) →
          (s.pending = .line ⟨n, .decode bad⟩ :: rest → step s = .refused r)
          ∧ (∀ other, s.pending = .line ⟨n, .mul bad other⟩ :: rest → step s = .refused r)
          ∧ (∀ other p, s.pending = .line ⟨n, .mul other bad⟩ :: rest → resolveOperand s.names other = .ok p →
              step s = .refused r))
        ∧ (∀ x, 2 ^ s.cfg.N ≤ x →
          (s.pending = .line ⟨n, .decode (.lit x)⟩ :: rest → step s = .refused (.rejected .patternTooWide))
          ∧ (∀ other p, resolveOperand s.names other = .ok p →
              s.pending = .line ⟨n, .mul (.lit x) other⟩ :: rest ∨ s.pending = .line ⟨n, .mul other (.lit x)⟩ :: rest →
              step s = .refused (.rejected .patternTooWide))))

/-- O49. 20_memory.md section 3 (R33): two MUL lines of which neither uses the other's name give the same bindings in either order.
The queue they stand in is the model's choice (log 5). -/
def Obligations.IndependentLinesCommute : Prop :=
  ∀ (s t : State) (l₁ l₂ : Line) (rest : List Move), independentMuls l₁ l₂ = true →
    core.run 2 { s with pending := .line l₁ :: .line l₂ :: rest } = .next t →
    ∃ u : State, core.run 2 { s with pending := .line l₂ :: .line l₁ :: rest } = .next u
      ∧ u.pending = t.pending ∧ ∀ n, u.names.lookup n = t.names.lookup n

/-- O50. 70_reset_and_hazards.md section 2 (R101, a decision: D3; log 11): a pipelined realisation with LATENCY registers, whatever they hold
at first, answers for the input of cycle t at cycle t + LATENCY, before that with what its registers held, and once a cycle. -/
def Obligations.PipelineDelaysByLatency : Prop :=
  ∀ (c : Cfg),
    (∀ (regs : List (BitVec c.N)) (inputs : List ((Voids c × Voids c) × (BitVec c.N × BitVec c.N))) (t : Nat),
      (t + regs.length < inputs.length →
        (Pipeline.mulOutputs c regs inputs)[t + regs.length]? =
          inputs[t]?.map (fun p => mulPattern p.1.1 p.1.2 p.2.1 p.2.2))
      ∧ (t < regs.length → t < inputs.length → (Pipeline.mulOutputs c regs inputs)[t]? = regs[t]?)
      ∧ (Pipeline.mulOutputs c regs inputs).length = inputs.length)
    ∧ (∀ (regs : List (DecodedPorts c)) (inputs : List (Voids c × BitVec c.N)) (t : Nat),
      (t + regs.length < inputs.length →
        (Pipeline.decodeOutputs c regs inputs)[t + regs.length]? = inputs[t]?.map (fun p => decodePorts p.1 p.2))
      ∧ (t < regs.length → t < inputs.length → (Pipeline.decodeOutputs c regs inputs)[t]? = regs[t]?)
      ∧ (Pipeline.decodeOutputs c regs inputs).length = inputs.length)

/-- O51. 20_memory.md section 2 (R30, a decision: D4; log 12): whichever byte order a host stores a pattern in, reading the bytes back in that
order gives the pattern's operand class (the class row is an instruction by the model's choice, log 2). -/
def Obligations.ByteOrderDoesNotMatter : Prop :=
  ∀ (c : Cfg) (order : ByteOrder) (x : Nat), x < 2 ^ c.N →
    (patternBytes c order x).length = byteCount c.N
    ∧ decodeBytes c order (patternBytes c order x) = decodeOperandClass c x

/-- O52. 00_scope.md section 3 (R8, R9, derived): the widths of the regime, of a scale factor and of a sum of two are
sufficient. RFW is the least width that holds every run length less one; the regime of a finite pattern lies in
[-(N-2), N-2] and fits KW = RFW + 1 bits; its scale factor fits SFW bits; and the sum of two scale factors, with or
without the 1 of the normaliser, fits SSW bits; each in the range that R9 gives it. -/
def Obligations.DerivedWidthsSuffice : Prop :=
  ∀ (c : Cfg),
    c.N ≤ 2 ^ c.RFW ∧ (∀ w, c.N ≤ 2 ^ w → c.RFW ≤ w)
    ∧ (∀ x, x < 2 ^ c.N → Format.isFinite c x = true →
        let k := Format.regime c (Format.magnitude c x)
        let sf := Format.scaleFactor c x
        k ≤ (c.N : Int) - 2 ∧ -((c.N : Int) - 2) ≤ k
        ∧ -(2 : Int) ^ (c.KW - 1) ≤ k ∧ k < 2 ^ (c.KW - 1)
        ∧ -((c.N : Int) - 2) * 2 ^ c.es ≤ sf ∧ sf ≤ ((c.N : Int) - 1) * 2 ^ c.es - 1
        ∧ -(2 : Int) ^ (c.SFW - 1) ≤ sf ∧ sf < 2 ^ (c.SFW - 1))
    ∧ (∀ (x y : Nat) (carry : Bool), x < 2 ^ c.N → y < 2 ^ c.N →
        Format.isFinite c x = true → Format.isFinite c y = true →
        let sum := Format.scaleFactor c x + Format.scaleFactor c y + (if carry then 1 else 0)
        sum ≤ 2 * ((c.N : Int) - 1) * 2 ^ c.es - 1 ∧ -2 * ((c.N : Int) - 2) * 2 ^ c.es ≤ sum
        ∧ -(2 : Int) ^ (c.SSW - 1) ≤ sum ∧ sum < 2 ^ (c.SSW - 1))

/-- O53. Words written out from 30_encoding.md sections 1 and 2 decode to the rows they stand for: for N = 8 the patterns 0000 0000,
1000 0000, 0101 1011 and 1010 0101, and for es = 1 the magnitude views 1 0 1 1011 and 000 1 0 11. That a bare word is
read by its width is the model's choice (log 8); that the rows are instructions, log 2. -/
def Obligations.WrittenWordsDecode : Prop :=
  decodeTableWord 8 0b00000000 = some .operandClassZero
  ∧ decodeTableWord 8 0b10000000 = some .operandClassNaR
  ∧ decodeTableWord 8 0b01011011 = some (.operandClassPosFinite 0b1011011)
  ∧ decodeTableWord 8 0b10100101 = some (.operandClassNegFinite 0b0100101)
  ∧ decode ⟨8, 1, by decide, by decide⟩ (.word 7 0b1011011) = .ok (.regimeClassNonneg 1 1 0b1011)
  ∧ decode ⟨8, 1, by decide, by decide⟩ (.word 7 0b0001011) = .ok (.regimeClassNeg 3 0 0b11)
  ∧ decode ⟨8, 1, by decide, by decide⟩ (.decoder 0b01011011) = .ok (.decode 0b01011011)
  ∧ decode ⟨8, 1, by decide, by decide⟩ (.multiplier 0b01011011 0b11000000) = .ok (.mul 0b01011011 0b11000000)

/-- O54. 10_state.md section 3 (R21, a decision: D2): after DECODE of any pattern, void outputs included, each output port reads as a
bit vector of its width; and the record that a line binds gives, by its fields, what the ports of the line's own
evaluation carry (the state whose pending line is taken, as a step runs it; the void outputs are that evaluation's draws,
log 4, and are compared with no other evaluation's). -/
def Obligations.OutputPortsReadAtTheirWidths : Prop :=
  ∀ (s : State) (x : Nat), x < 2 ^ s.cfg.N →
    ∃ t, exec (.decode x) s = .next t
      ∧ (∀ p, (readPort t.dec p).width = portWidth s.cfg p)
      ∧ (∀ (n : Name) (rest : List Move) (p : OutputPort),
          s.pending = .line ⟨n, .decode (.lit x)⟩ :: rest → s.names.lookup n = none →
          ∃ u v, step s = .next u ∧ exec (.decode x) { s with pending := rest } = .next v
            ∧ readField u.names n p = some (readPort v.dec p) ∧ (readPort v.dec p).width = portWidth s.cfg p)

/-- O55. 41_multiplier.md section 1 (R71, a decision: D15) and 00_scope.md section 1 (R2): a Wallace tree, the architecture the scope
note names, gives the exact product of any two significands (the tree's layout is the model's, log 16). -/
def Obligations.WallaceTreeGivesTheExactProduct : Prop :=
  ∀ (c : Cfg) (a b : BitVec c.FW),
    Architecture.wallaceProduct a b = significandProduct a b
    ∧ (Architecture.wallaceProduct a b).toNat = a.toNat * b.toNat
end

