-- ==== Sys2Proof/Laws/State.lean ====
section
/-! SUPPORT. One lemma per field per update of the state, so that no proof unfolds a record update. -/

namespace Sys2Proof

@[simp] theorem Bits.of_width {w : Nat} (v : BitVec w) : (Bits.of v).width = w := rfl
@[simp] theorem Bits.of_bits {w : Nat} (v : BitVec w) : (Bits.of v).bits = v := rfl
@[simp] theorem Bits.uint_of {w : Nat} (v : BitVec w) : (Bits.of v).uint = v.toNat := rfl
@[simp] theorem Bits.sint_of {w : Nat} (v : BitVec w) : (Bits.of v).sint = v.toInt := rfl

@[simp] theorem Bits.of_inj {w : Nat} {u v : BitVec w} : Bits.of u = Bits.of v ↔ u = v := by
  constructor
  · intro h
    exact eq_of_heq (Bits.mk.inj h).2
  · rintro rfl
    rfl

theorem Bits.uint_lt (b : Bits) : b.uint < 2 ^ b.width := b.bits.isLt

namespace Machine

variable {c : Cfg}

@[simp] theorem DecoderPorts.of_x (X : BitVec c.N) (d : DecodedPorts c) : (DecoderPorts.of X d).x = Bits.of X := rfl
@[simp] theorem DecoderPorts.of_sign (X : BitVec c.N) (d : DecodedPorts c) : (DecoderPorts.of X d).sign = d.sign := rfl
@[simp] theorem DecoderPorts.of_isZero (X : BitVec c.N) (d : DecodedPorts c) : (DecoderPorts.of X d).isZero = d.isZero := rfl
@[simp] theorem DecoderPorts.of_isNaR (X : BitVec c.N) (d : DecodedPorts c) : (DecoderPorts.of X d).isNaR = d.isNaR := rfl
@[simp] theorem DecoderPorts.of_regSign (X : BitVec c.N) (d : DecodedPorts c) : (DecoderPorts.of X d).regSign = d.regSign := rfl
@[simp] theorem DecoderPorts.of_regMag (X : BitVec c.N) (d : DecodedPorts c) : (DecoderPorts.of X d).regMag = Bits.of d.regMag := rfl
@[simp] theorem DecoderPorts.of_reg (X : BitVec c.N) (d : DecodedPorts c) : (DecoderPorts.of X d).reg = Bits.of d.reg := rfl
@[simp] theorem DecoderPorts.of_exp (X : BitVec c.N) (d : DecodedPorts c) : (DecoderPorts.of X d).exp = Bits.of d.exp := rfl
@[simp] theorem DecoderPorts.of_frac (X : BitVec c.N) (d : DecodedPorts c) : (DecoderPorts.of X d).frac = Bits.of d.frac := rfl

variable (s : State)

@[simp] theorem evaluateDecoder_cfg (X : BitVec s.cfg.N) : (evaluateDecoder s X).cfg = s.cfg := rfl
@[simp] theorem evaluateDecoder_dec (X : BitVec s.cfg.N) :
    (evaluateDecoder s X).dec = DecoderPorts.of X (decodePorts (drawVoids s.cfg s.draws) X) := rfl
@[simp] theorem evaluateDecoder_mul (X : BitVec s.cfg.N) : (evaluateDecoder s X).mul = s.mul := rfl
@[simp] theorem evaluateDecoder_names (X : BitVec s.cfg.N) : (evaluateDecoder s X).names = s.names := rfl
@[simp] theorem evaluateDecoder_pending (X : BitVec s.cfg.N) : (evaluateDecoder s X).pending = s.pending := rfl
@[simp] theorem evaluateDecoder_draws (X : BitVec s.cfg.N) : (evaluateDecoder s X).draws = s.draws + drawsPerDecode := rfl

@[simp] theorem evaluateMultiplier_cfg (X Y : BitVec s.cfg.N) : (evaluateMultiplier s X Y).cfg = s.cfg := rfl
@[simp] theorem evaluateMultiplier_dec (X Y : BitVec s.cfg.N) : (evaluateMultiplier s X Y).dec = s.dec := rfl
@[simp] theorem evaluateMultiplier_mul_x (X Y : BitVec s.cfg.N) : (evaluateMultiplier s X Y).mul.x = Bits.of X := rfl
@[simp] theorem evaluateMultiplier_mul_y (X Y : BitVec s.cfg.N) : (evaluateMultiplier s X Y).mul.y = Bits.of Y := rfl
@[simp] theorem evaluateMultiplier_mul_r (X Y : BitVec s.cfg.N) :
    (evaluateMultiplier s X Y).mul.r =
      Bits.of (mulPattern (drawVoids s.cfg s.draws) (drawVoids s.cfg (s.draws + drawsPerDecode)) X Y) := rfl
@[simp] theorem evaluateMultiplier_names (X Y : BitVec s.cfg.N) : (evaluateMultiplier s X Y).names = s.names := rfl
@[simp] theorem evaluateMultiplier_pending (X Y : BitVec s.cfg.N) : (evaluateMultiplier s X Y).pending = s.pending := rfl
@[simp] theorem evaluateMultiplier_draws (X Y : BitVec s.cfg.N) :
    (evaluateMultiplier s X Y).draws = s.draws + 2 * drawsPerDecode := rfl

@[simp] theorem bindResult_word (n w : Nat) : bindResult (.word n w) s = s := rfl
@[simp] theorem bindResult_line (l : Line) :
    bindResult (.line l) s = { s with names := (l.dst, lineResult l.op s) :: s.names } := rfl
@[simp] theorem bindResult_cfg (mv : Move) : (bindResult mv s).cfg = s.cfg := by cases mv <;> rfl
@[simp] theorem bindResult_dec (mv : Move) : (bindResult mv s).dec = s.dec := by cases mv <;> rfl
@[simp] theorem bindResult_mul (mv : Move) : (bindResult mv s).mul = s.mul := by cases mv <;> rfl
@[simp] theorem bindResult_pending (mv : Move) : (bindResult mv s).pending = s.pending := by cases mv <;> rfl
@[simp] theorem bindResult_draws (mv : Move) : (bindResult mv s).draws = s.draws := by cases mv <;> rfl

@[simp] theorem withFetchWord_pending (n w : Nat) : (s.withFetchWord n w).pending = .word n w :: s.pending := rfl
@[simp] theorem withFetchWord_cfg (n w : Nat) : (s.withFetchWord n w).cfg = s.cfg := rfl

end Machine

end Sys2Proof
end

