-- ==== Sys2Proof/Laws/Decoder.lean ====
section
/-! SUPPORT. The primitives and the decoder's sub-blocks, each read on integers: what the circuit computes, in the words of Machine/Format.lean. -/

namespace Sys2Proof.Machine

theorem orr_eq_true {w : Nat} {v : BitVec w} : orr v = true ↔ v.toNat ≠ 0 := by
  simp [orr, bne_iff_ne, BitVec.toNat_eq]

theorem rep_getLsbD {w : Nat} (b : Bool) (i : Nat) : (rep w b).getLsbD i = (decide (i < w) && b) := by
  cases b <;> simp [rep]

/-- The leading zeros after the conditional inversion are the run of bits equal to `b`. -/
theorem zerosBelow_xor_rep {w : Nat} (Y : BitVec w) (b : Bool) :
    ∀ n, n ≤ w → zerosBelow (Y ^^^ rep w b) n = Format.runLength b Y.toNat n
  | 0, _ => rfl
  | n + 1, h => by
    have hn : n < w := h
    have ih := zerosBelow_xor_rep Y b n (Nat.le_of_lt hn)
    simp only [zerosBelow, Format.runLength, BitVec.getLsbD_xor, rep_getLsbD, hn, decide_true, Bool.true_and,
      BitVec.testBit_toNat, ih]
    by_cases hb : Y.getLsbD n = b
    · simp [hb]
    · have hx : (Y.getLsbD n ^^ b) = true := by
        revert hb
        generalize Y.getLsbD n = a
        cases a <;> cases b <;> simp
      rw [if_pos hx, if_neg hb]

theorem runLength_le (b : Bool) (x : Nat) : ∀ n, Format.runLength b x n ≤ n
  | 0 => Nat.le_refl 0
  | n + 1 => by
    have := runLength_le b x n
    unfold Format.runLength
    split <;> omega

/-- The detector of 40_decoder.md R57 counts the run of 30_encoding.md R41. -/
theorem runLengthOf_eq_runLength {c : Cfg} (Y : BitVec (c.N - 1)) :
    runLengthOf Y = Format.runLength (regimeCheckBit Y) Y.toNat (c.N - 1) :=
  zerosBelow_xor_rep Y _ _ (Nat.le_refl _)

theorem regimeCheckBit_eq {c : Cfg} (Y : BitVec (c.N - 1)) :
    regimeCheckBit Y = Format.regimeCheck c Y.toNat := by
  have : c.N - 1 - 1 = c.N - 2 := rfl
  simp [regimeCheckBit, Format.regimeCheck, BitVec.msb_eq_getLsbD_last, this, BitVec.testBit_toNat]

theorem runLengthOf_eq {c : Cfg} (Y : BitVec (c.N - 1)) : runLengthOf Y = Format.regimeRun c Y.toNat := by
  rw [runLengthOf_eq_runLength, regimeCheckBit_eq]
  rfl

theorem msb_ofNat {c : Cfg} {x : Nat} : (BitVec.ofNat c.N x).msb = Format.signBit c x := by
  have h : c.N - 1 < c.N := Nat.sub_lt (Nat.lt_of_lt_of_le Nat.zero_lt_two c.two_le_N) Nat.one_pos
  rw [BitVec.msb_eq_getLsbD_last, BitVec.getLsbD_ofNat, Format.signBit]
  simp [h]

theorem extract_body_toNat {c : Cfg} {x : Nat} (h : x < 2 ^ c.N) :
    ((BitVec.ofNat c.N x).extractLsb' 0 (c.N - 1)).toNat = Format.body c x := by
  simp [BitVec.extractLsb'_toNat, Format.body, Nat.mod_eq_of_lt h]

theorem nonzeroBody_ofNat {c : Cfg} {x : Nat} (h : x < 2 ^ c.N) :
    nonzeroBody (c := c) (BitVec.ofNat c.N x) = decide (Format.body c x ≠ 0) := by
  rw [Bool.eq_iff_iff, decide_eq_true_iff, nonzeroBody, orr_eq_true, extract_body_toNat h]

theorem two_pow_N (c : Cfg) : 2 ^ c.N = 2 * 2 ^ (c.N - 1) := by
  have := c.two_le_N
  rw [← pow_succ']
  congr 1
  omega

/-- A pattern is its sign bit and its body. -/
theorem eq_sign_add_body {c : Cfg} {x : Nat} (h : x < 2 ^ c.N) :
    x = (if Format.signBit c x then 2 ^ (c.N - 1) else 0) + Format.body c x := by
  have h₂ := two_pow_N c
  have hp : 0 < 2 ^ (c.N - 1) := Nat.two_pow_pos _
  unfold Format.signBit Format.body
  rw [Nat.testBit_eq_decide_div_mod_eq]
  generalize 2 ^ (c.N - 1) = p at *
  have hd := Nat.div_add_mod x p
  have hlt : x / p < 2 := by
    rw [Nat.div_lt_iff_lt_mul hp]
    omega
  generalize x / p = q at *
  obtain rfl | rfl : q = 0 ∨ q = 1 := by omega
  · simp at hd ⊢
    omega
  · simp at hd ⊢
    omega

theorem body_lt (c : Cfg) (x : Nat) : Format.body c x < 2 ^ (c.N - 1) := Nat.mod_lt _ (Nat.two_pow_pos _)

theorem isZeroFlag_ofNat {c : Cfg} {x : Nat} (h : x < 2 ^ c.N) :
    isZeroFlag (c := c) (BitVec.ofNat c.N x) = decide (x = Format.zeroPattern) := by
  have he := eq_sign_add_body h
  have hb := body_lt c x
  rw [Bool.eq_iff_iff, decide_eq_true_iff]
  have hp : 0 < 2 ^ (c.N - 1) := Nat.two_pow_pos _
  cases hs : Format.signBit c x <;>
    simp only [hs, if_true, if_false, Bool.false_eq_true] at he <;>
    simp [isZeroFlag, msb_ofNat, nonzeroBody_ofNat h, hs, Format.zeroPattern] <;> omega

theorem isNaRFlag_ofNat {c : Cfg} {x : Nat} (h : x < 2 ^ c.N) :
    isNaRFlag (c := c) (BitVec.ofNat c.N x) = decide (x = Format.narPattern c) := by
  have he := eq_sign_add_body h
  have hb := body_lt c x
  rw [Bool.eq_iff_iff, decide_eq_true_iff]
  cases hs : Format.signBit c x <;>
    simp only [hs, if_true, if_false, Bool.false_eq_true] at he <;>
    simp [isNaRFlag, msb_ofNat, nonzeroBody_ofNat h, hs, Format.narPattern] <;> omega

/-- The normaliser of 40_decoder.md R55 gives the magnitude view of 30_encoding.md R40. -/
theorem magnitudeView_ofNat {c : Cfg} {x : Nat} (h : x < 2 ^ c.N) :
    (magnitudeView (c := c) (BitVec.ofNat c.N x)).toNat = Format.magnitude c x := by
  unfold magnitudeView Format.magnitude
  rw [msb_ofNat]
  split
  · rw [BitVec.toNat_neg, extract_body_toNat h, Format.neg]
  · exact extract_body_toNat h

/-- On finite patterns no output is void, so DECODE is the circuit. -/
theorem decodePorts_of_finite {c : Cfg} {x : Nat} (v : Voids c) (h : x < 2 ^ c.N) (hf : Format.isFinite c x = true) :
    decodePorts v (BitVec.ofNat c.N x) = decodeCircuit (BitVec.ofNat c.N x) := by
  have hz : (decodeCircuit (BitVec.ofNat c.N x)).isZero = decide (x = Format.zeroPattern) := isZeroFlag_ofNat h
  have hn : (decodeCircuit (BitVec.ofNat c.N x)).isNaR = decide (x = Format.narPattern c) := isNaRFlag_ofNat h
  simp only [Format.isFinite, Bool.and_eq_true, bne_iff_ne] at hf
  simp [decodePorts, hz, hn, hf.1, hf.2]

@[simp] theorem decodePorts_sign {c : Cfg} (v : Voids c) (X : BitVec c.N) : (decodePorts v X).sign = X.msb := by
  simp only [decodePorts]
  split <;> rfl

@[simp] theorem decodePorts_isZero {c : Cfg} (v : Voids c) (X : BitVec c.N) : (decodePorts v X).isZero = isZeroFlag X := by
  simp only [decodePorts]
  split <;> rfl

@[simp] theorem decodePorts_isNaR {c : Cfg} (v : Voids c) (X : BitVec c.N) : (decodePorts v X).isNaR = isNaRFlag X := by
  simp only [decodePorts]
  split <;> rfl

/-- The Frac port as an integer: the marker, then the fraction bits. -/
theorem fracPort_toNat {c : Cfg} (b : Bool) (low : BitVec (c.FW - 1)) :
    (fracPort b low).toNat = (if b then 2 ^ (c.FW - 1) else 0) + low.toNat := by
  have hl := low.isLt
  cases b
  · simp [fracPort]
  · simp only [fracPort, BitVec.toNat_cast, BitVec.toNat_append, if_true]
    rw [← Nat.shiftLeft_add_eq_or_of_lt hl]
    simp [Nat.shiftLeft_eq]

theorem afterRegime_toNat {c : Cfg} (Y : BitVec (c.N - 1)) :
    (afterRegime Y).toNat = Y.toNat * 2 ^ (Format.regimeRun c Y.toNat + 1) % 2 ^ (c.N - 1) := by
  rw [afterRegime, BitVec.toNat_shiftLeft, Nat.shiftLeft_eq, runLengthOf_eq]

/-- `clog2` reaches its argument. -/
theorem le_two_pow_clog2 (n : Nat) : n ≤ 2 ^ clog2 n := by
  unfold clog2
  split
  · simpa
  · have := (Nat.lt_log2_self (n := n - 1))
    omega

end Sys2Proof.Machine
end

