-- ==== Sys2Proof/Laws/Multiplier.lean ====
section
/-! SUPPORT. The multiplier's stages, each read on integers, and the override's cases. -/

namespace Sys2Proof.Machine

variable {c : Cfg}

/-- The product of two FW-bit fields has room in PW bits (41_multiplier.md R71). -/
theorem significandProduct_toNat (a b : BitVec c.FW) : (significandProduct a b).toNat = a.toNat * b.toNat := by
  have hPW : c.PW = c.FW + c.FW := Nat.two_mul c.FW
  have h : a.toNat * b.toNat < 2 ^ c.PW := by
    rw [hPW, pow_add]
    exact Nat.mul_lt_mul'' a.isLt b.isLt
  have hle : 2 ^ c.FW ≤ 2 ^ c.PW := Nat.pow_le_pow_right Nat.two_pos (by omega)
  rw [significandProduct, BitVec.toNat_mul, BitVec.toNat_setWidth, BitVec.toNat_setWidth,
    Nat.mod_eq_of_lt (Nat.lt_of_lt_of_le a.isLt hle), Nat.mod_eq_of_lt (Nat.lt_of_lt_of_le b.isLt hle),
    Nat.mod_eq_of_lt h]

/-- The packed string as an integer: head, exponent, fraction (R76). -/
theorem packed_toNat (pos : Bool) (E : BitVec c.es) (FR : BitVec c.FRW) :
    (packed pos E FR).toNat = ((if pos then 2 else 1) * 2 ^ c.es + E.toNat) * 2 ^ c.FRW + FR.toNat := by
  simp only [packed, BitVec.toNat_append]
  rw [← Nat.shiftLeft_add_eq_or_of_lt FR.isLt, ← Nat.shiftLeft_add_eq_or_of_lt E.isLt,
    Nat.shiftLeft_eq, Nat.shiftLeft_eq]
  cases pos <;> rfl

theorem rep_toNat (w : Nat) (b : Bool) : (rep w b).toNat = if b then 2 ^ w - 1 else 0 := by
  cases b <;> simp [rep]

/-- The shifter as an integer: `sh` fill bits in front, the packed string and N-2 zeros behind, and the low
`sh` bits dropped (R77). -/
theorem shifted_toNat (pos : Bool) (sh : Nat) (PK : BitVec c.PKW) :
    (shifted pos sh PK).toNat =
      ((if pos then 2 ^ sh - 1 else 0) * 2 ^ (c.PKW + (c.N - 2)) + PK.toNat * 2 ^ (c.N - 2)) / 2 ^ sh % 2 ^ c.WX := by
  simp only [shifted, BitVec.extractLsb'_toNat, BitVec.toNat_append, Nat.shiftRight_eq_div_pow]
  have hz : PK.toNat <<< (c.N - 2) ||| (0#(c.N - 2)).toNat = PK.toNat * 2 ^ (c.N - 2) := by
    simp [Nat.shiftLeft_eq]
  have hlt : PK.toNat * 2 ^ (c.N - 2) < 2 ^ (c.PKW + (c.N - 2)) := by
    rw [pow_add]
    exact Nat.mul_lt_mul_of_pos_right PK.isLt (Nat.two_pow_pos _)
  rw [hz, ← Nat.shiftLeft_add_eq_or_of_lt hlt, Nat.shiftLeft_eq, rep_toNat]

/-- The override (R80) with no special operand is the datapath's result. -/
@[simp] theorem specialOverride_none (res : BitVec c.N) : specialOverride false false res = res := rfl

@[simp] theorem specialOverride_nar (z : Bool) (res : BitVec c.N) :
    specialOverride true z res = BitVec.twoPow c.N (c.N - 1) := rfl

@[simp] theorem specialOverride_zero (res : BitVec c.N) : specialOverride false true res = 0#c.N := rfl

/-- On finite operands MUL is the datapath on the two circuits, whatever the voids are. -/
theorem mulPattern_of_finite {x y : Nat} (vA vB : Voids c) (hx : x < 2 ^ c.N) (hy : y < 2 ^ c.N)
    (fx : Format.isFinite c x = true) (fy : Format.isFinite c y = true) :
    mulPattern vA vB (BitVec.ofNat c.N x) (BitVec.ofNat c.N y) =
      (mulSignals (decodeCircuit (BitVec.ofNat c.N x)) (decodeCircuit (BitVec.ofNat c.N y))).res := by
  have zx : (decodeCircuit (BitVec.ofNat c.N x)).isZero = decide (x = Format.zeroPattern) := isZeroFlag_ofNat hx
  have nx : (decodeCircuit (BitVec.ofNat c.N x)).isNaR = decide (x = Format.narPattern c) := isNaRFlag_ofNat hx
  have zy : (decodeCircuit (BitVec.ofNat c.N y)).isZero = decide (y = Format.zeroPattern) := isZeroFlag_ofNat hy
  have ny : (decodeCircuit (BitVec.ofNat c.N y)).isNaR = decide (y = Format.narPattern c) := isNaRFlag_ofNat hy
  rw [mulPattern, decodePorts_of_finite vA hx fx, decodePorts_of_finite vB hy fy]
  simp only [Format.isFinite, Bool.and_eq_true, bne_iff_ne] at fx fy
  simp [mulSignals, resNaRSelect, resZeroSelect, zx, nx, zy, ny, fx, fy]

end Sys2Proof.Machine
end

