-- ==== Sys2Proof/Laws/Ops.lean ====
section
/-! SUPPORT. What each meaning and each shared operation can do, said once: later proofs cite these. -/

namespace Sys2Proof.Machine

/-- Every instruction but MUL evaluates the decoder on this pattern. -/
def decoderPattern (c : Cfg) : Instr → Option Nat
  | .decode x => some x
  | .mul _ _ => none
  | .operandClassZero => some Format.zeroPattern
  | .operandClassNaR => some (Format.narPattern c)
  | .operandClassPosFinite b => some b
  | .operandClassNegFinite b => some (2 ^ (c.N - 1) + b)
  | .regimeClassNonneg m e f => some (Format.assemble c true m e f)
  | .regimeClassNeg m e f => some (Format.assemble c false m e f)

theorem presentToDecoder_of_wellFormed {i : Instr} {x : Nat} {s : State} (h : i.wellFormed s.cfg = true) :
    presentToDecoder i x s = .next (evaluateDecoder s (BitVec.ofNat s.cfg.N x)) := if_pos h

theorem presentToDecoder_eq_next {i : Instr} {x : Nat} {s t : State} :
    presentToDecoder i x s = .next t ↔
      i.wellFormed s.cfg = true ∧ t = evaluateDecoder s (BitVec.ofNat s.cfg.N x) := by
  unfold presentToDecoder
  split
  · next h => exact ⟨fun e => (by cases e; exact ⟨h, rfl⟩), fun ⟨_, e⟩ => (by rw [e])⟩
  · next h => exact ⟨fun e => (by cases e), fun ⟨e, _⟩ => absurd e h⟩

/-- A well-formed instruction that drives the decoder is one evaluation of it. -/
theorem exec_of_decoderPattern {i : Instr} {s : State} {x : Nat} (hx : decoderPattern s.cfg i = some x)
    (h : i.wellFormed s.cfg = true) : exec i s = .next (evaluateDecoder s (BitVec.ofNat s.cfg.N x)) := by
  cases i with
  | decode y =>
    cases hx
    exact if_pos (of_decide_eq_true h)
  | mul => cases hx
  | _ => cases hx; exact presentToDecoder_of_wellFormed h

theorem exec_mul_of_lt {s : State} {x y : Nat} (hx : x < 2 ^ s.cfg.N) (hy : y < 2 ^ s.cfg.N) :
    exec (.mul x y) s =
      .next (evaluateMultiplier s (BitVec.ofNat s.cfg.N x) (BitVec.ofNat s.cfg.N y)) := if_pos ⟨hx, hy⟩

/-- All that an instruction which answers a next state can have done. -/
theorem exec_cases {i : Instr} {s t : State} (h : exec i s = .next t) :
    i.wellFormed s.cfg = true ∧
      ((∃ x y, i = .mul x y ∧ t = evaluateMultiplier s (BitVec.ofNat s.cfg.N x) (BitVec.ofNat s.cfg.N y)) ∨
       (∃ x, decoderPattern s.cfg i = some x ∧ t = evaluateDecoder s (BitVec.ofNat s.cfg.N x))) := by
  cases i with
  | decode x =>
    simp only [exec, execDecode] at h
    split at h
    · next hx => cases h; exact ⟨decide_eq_true hx, .inr ⟨x, rfl, rfl⟩⟩
    · cases h
  | mul x y =>
    simp only [exec, execMul] at h
    split at h
    · next hx => cases h; exact ⟨by simpa [Instr.wellFormed] using hx, .inl ⟨x, y, rfl, rfl⟩⟩
    · cases h
  | _ =>
    simp only [exec, execOperandClassZero, execOperandClassNaR, execOperandClassPosFinite, execOperandClassNegFinite,
      execRegimeClassNonneg, execRegimeClassNeg] at h
    obtain ⟨hw, rfl⟩ := presentToDecoder_eq_next.mp h
    exact ⟨hw, .inr ⟨_, rfl, rfl⟩⟩

/-- A meaning that does not answer refuses; no arm faults. -/
theorem exec_refused_of_not_wellFormed {i : Instr} {s : State} (h : i.wellFormed s.cfg = false) :
    ∃ r, exec i s = .refused r := by
  cases hx : exec i s with
  | next t => simp [(exec_cases hx).1] at h
  | fault f => cases f
  | refused r => exact ⟨r, rfl⟩

theorem fetchMove_word (s : State) (n w : Nat) {i : Instr} (h : decode s.cfg (.word n w) = .ok i) :
    fetchMove s (.word n w) = .ok i := by simp [fetchMove, resolveMove, h]

/-- A move is read as `i` exactly when it resolves to a drive that decodes to `i`. -/
theorem fetchMove_eq_ok {s : State} {mv : Move} {i : Instr} :
    fetchMove s mv = .ok i ↔ ∃ d, resolveMove s mv = .ok d ∧ decode s.cfg d = .ok i := by
  unfold fetchMove
  cases hr : resolveMove s mv with
  | error r => simp
  | ok d => cases hd : decode s.cfg d <;> simp [hd]

/-- A line resolves exactly when its name is new and its operands resolve. -/
theorem resolveMove_line_eq_ok {s : State} {l : Line} {d : Drive} :
    resolveMove s (.line l) = .ok d ↔ s.names.lookup l.dst = none ∧ resolveOperation s.names l.op = .ok d := by
  unfold resolveMove
  cases h : s.names.lookup l.dst <;> simp [h]

/-- All that a step which answers a next state can have done. -/
theorem step_cases {s t : State} (h : step s = .next t) :
    (s.pending = [] ∧ t = s) ∨
    (∃ mv rest i u, s.pending = mv :: rest ∧ fetchMove s mv = .ok i ∧
      exec i { s with pending := rest } = .next u ∧ t = bindResult mv u) := by
  unfold step at h
  cases hp : s.pending with
  | nil => rw [hp] at h; cases h; exact .inl ⟨rfl, rfl⟩
  | cons mv rest =>
    simp only [hp] at h
    cases hf : fetchMove s mv with
    | error r => simp [hf] at h
    | ok i =>
      simp only [hf] at h
      cases he : exec i { s with pending := rest } with
      | next u => simp only [he] at h; cases h; exact .inr ⟨mv, rest, i, u, rfl, hf, he, rfl⟩
      | fault f => cases f
      | refused r => simp [he] at h

/-- A step whose next interaction is read as `i`, and whose `i` completes. -/
theorem step_of_fetch {s u : State} {mv : Move} {rest : List Move} {i : Instr} (hp : s.pending = mv :: rest)
    (hf : fetchMove s mv = .ok i) (he : exec i { s with pending := rest } = .next u) :
    step s = .next (bindResult mv u) := by
  simp [step, hp, hf, he]

/-- An instance is built exactly for the legal pairs, and it is the fresh one. -/
theorem construct_of_cfg (c : Cfg) : construct c.N c.es = .next (State.fresh c) := by
  have h₁ := c.two_le_N
  have h₂ := c.es_add_two_le_N
  have n₁ : ¬((c.N : Int) < 2) := by omega
  have n₂ : ¬((c.es : Int) < 0) := by omega
  have n₃ : ¬((c.N : Int) - c.es - 2 < 0) := by omega
  simp [construct, n₁, n₂, n₃, h₁, h₂]

end Sys2Proof.Machine
end

