-- ==== Sys2Proof/Laws/PerInstr.lean ====
section
/-! SUPPORT. The family DriveFits: a well-formed instruction is encoded as a drive that fits its ports. -/

namespace Sys2Proof.Laws

/-- The drive's values fit: N-bit port values, and words of N or N-1 bits. -/
def driveFits (c : Cfg) : Drive → Prop
  | .decoder x => x < 2 ^ c.N
  | .multiplier x y => x < 2 ^ c.N ∧ y < 2 ^ c.N
  | .word nbits w => (nbits = c.N ∨ nbits = c.N - 1) ∧ w < 2 ^ nbits

/-- Exponent and fraction fields that fit fill the bits below the regime field and no more (30_encoding.md R43, R44). -/
theorem tail_lt {c : Cfg} {m e f : Nat} (h : tailFits c m e f = true) :
    e / 2 ^ Format.absentExponentBits c m * 2 ^ Format.fractionBits c m + f < 2 ^ Format.tailBits c m := by
  simp only [tailFits, Bool.and_eq_true, decide_eq_true_iff, beq_iff_eq] at h
  obtain ⟨⟨he, -⟩, hf⟩ := h
  have hsum : Format.tailBits c m = c.es - Format.absentExponentBits c m + Format.fractionBits c m := by
    simp only [Format.absentExponentBits, Format.fractionBits, Format.tailBits]
    omega
  have hes : c.es = c.es - Format.absentExponentBits c m + Format.absentExponentBits c m := by
    simp only [Format.absentExponentBits]
    omega
  have hq : e / 2 ^ Format.absentExponentBits c m < 2 ^ (c.es - Format.absentExponentBits c m) := by
    rw [Nat.div_lt_iff_lt_mul (Nat.two_pow_pos _), ← pow_add, ← hes]
    exact he
  rw [hsum, pow_add]
  calc e / 2 ^ Format.absentExponentBits c m * 2 ^ Format.fractionBits c m + f
      < (e / 2 ^ Format.absentExponentBits c m + 1) * 2 ^ Format.fractionBits c m := by
        rw [Nat.add_mul, Nat.one_mul]
        exact Nat.add_lt_add_left hf _
    _ ≤ _ := Nat.mul_le_mul_right _ hq

theorem assemble_true_lt {c : Cfg} {m e f : Nat} (hm : m ≤ c.N - 1) (h : tailFits c m e f = true) :
    Format.assemble c true m e f < 2 ^ (c.N - 1) := by
  have ht : 2 ^ Format.tailBits c m ≤ 2 ^ (c.N - 1 - m) :=
    Nat.pow_le_pow_right Nat.two_pos (by simp only [Format.tailBits]; omega)
  have hl := tail_lt h
  have hp : 2 ^ (c.N - 1) = 2 ^ m * 2 ^ (c.N - 1 - m) := by
    rw [← pow_add]
    congr 1
    omega
  have hm1 := Nat.two_pow_pos m
  simp only [Format.assemble, if_true]
  rw [hp, Nat.sub_mul, Nat.one_mul]
  have : 2 ^ (c.N - 1 - m) ≤ 2 ^ m * 2 ^ (c.N - 1 - m) := Nat.le_mul_of_pos_left _ hm1
  omega

theorem assemble_false_lt {c : Cfg} {m e f : Nat} (h1 : 1 ≤ m) (hm : m ≤ c.N - 2) (h : tailFits c m e f = true) :
    Format.assemble c false m e f < 2 ^ (c.N - 1) := by
  have hl := tail_lt h
  have hlt : m < c.N - 1 := by omega
  have hp : 2 ^ (c.N - 2 - m) * 2 ≤ 2 ^ (c.N - 1) := by
    rw [← pow_succ]
    exact Nat.pow_le_pow_right Nat.two_pos (by omega)
  simp only [Format.assemble, Bool.false_eq_true, if_false, hlt, if_true]
  simp only [Format.tailBits] at hl
  omega

namespace DriveFits

/-- The family's statement about one instruction. -/
def Statement (i : Instr) : Prop := ∀ c : Cfg, i.wellFormed c = true → driveFits c (encode c i)

theorem decode (x : Nat) : Statement (.decode x) := fun c h => by
  show x < 2 ^ c.N
  simpa [Instr.wellFormed] using h

theorem mul (x y : Nat) : Statement (.mul x y) := fun c h => by
  show x < 2 ^ c.N ∧ y < 2 ^ c.N
  simpa [Instr.wellFormed] using h

theorem operandClassZero : Statement .operandClassZero := fun _ _ => ⟨.inl rfl, Nat.two_pow_pos _⟩

theorem operandClassNaR : Statement .operandClassNaR := fun c _ =>
  ⟨.inl rfl, Nat.pow_lt_pow_right Nat.one_lt_two (by have := c.two_le_N; omega)⟩

theorem operandClassPosFinite (b : Nat) : Statement (.operandClassPosFinite b) := fun c h => by
  simp only [Instr.wellFormed, Bool.and_eq_true, decide_eq_true_iff] at h
  refine ⟨.inl rfl, ?_⟩
  have := Machine.two_pow_N c
  omega

theorem operandClassNegFinite (b : Nat) : Statement (.operandClassNegFinite b) := fun c h => by
  simp only [Instr.wellFormed, Bool.and_eq_true, decide_eq_true_iff] at h
  refine ⟨.inl rfl, ?_⟩
  have := Machine.two_pow_N c
  omega

theorem regimeClassNonneg (m e f : Nat) : Statement (.regimeClassNonneg m e f) := fun _ h => by
  simp only [Instr.wellFormed, Bool.and_eq_true, decide_eq_true_iff] at h
  exact ⟨.inr rfl, assemble_true_lt h.1.2 h.2⟩

theorem regimeClassNeg (m e f : Nat) : Statement (.regimeClassNeg m e f) := fun _ h => by
  simp only [Instr.wellFormed, Bool.and_eq_true, decide_eq_true_iff] at h
  exact ⟨.inr rfl, assemble_false_lt h.1.1 h.1.2 h.2⟩

end DriveFits

end Sys2Proof.Laws
end

