-- ==== Sys2Proof/Tests/Slice0.lean ====
section
/-! SUPPORT. Tests with results from spec/95_test_vectors.md and the rules' own examples, smoke tests of WellFormed, written-out words of every row, and a witness for the hypotheses of each statement. -/

namespace Sys2Proof.Tests

open Sys2Proof.Machine Sys2Proof.Safety

/-- (N, es) = (8, 1). -/
def c81 : Cfg := ⟨8, 1, by decide, by decide⟩
/-- (N, es) = (8, 2). -/
def c82 : Cfg := ⟨8, 2, by decide, by decide⟩
/-- (N, es) = (2, 0), the smallest. -/
def c20 : Cfg := ⟨2, 0, by decide, by decide⟩
/-- (N, es) = (3, 1), with F = 0. -/
def c31 : Cfg := ⟨3, 1, by decide, by decide⟩
/-- (N, es) = (16, 1). -/
def c161 : Cfg := ⟨16, 1, by decide, by decide⟩

/-- The decoder's ports after one instruction. -/
def decAfter (i : Instr) (c : Cfg) : Option DecoderPorts :=
  match exec i (State.fresh c) with
  | .next t => some t.dec
  | _ => none

/-- The product after one instruction. -/
def productAfter (i : Instr) (c : Cfg) : Option Nat :=
  match exec i (State.fresh c) with
  | .next t => some t.mul.r.uint
  | _ => none

/-- Sign and flags after one instruction. -/
def flagsAfter (i : Instr) (c : Cfg) : Option (Bool × Bool × Bool) :=
  (decAfter i c).map (fun p => (p.sign, p.isZero, p.isNaR))

/-- A fresh state with interactions pending. -/
def withPending (c : Cfg) (names : List (Name × Bound)) (pending : List Move) : State :=
  { State.fresh c with names := names, pending := pending }

/-! Derived widths: the example at the end of 00_scope.md R8. -/

theorem test_widths_8_0 :
    let c := Cfg.atReset
    (c.F, c.FW, c.EW, c.RFW, c.KW, c.SFW, c.SSW) = (6, 6, 1, 3, 4, 4, 5) ∧ (c.PW, c.FRW, c.PKW, c.WX) = (12, 11, 13, 19) := by
  decide

/-! Configuration vectors: 95_test_vectors.md section 2. -/

theorem test_construct_order : construct 1 (-1) = .refused (.configError .nTooSmall 1 (-1)) := rfl
theorem test_construct_es_negative : construct 8 (-1) = .refused (.configError .esNegative 8 (-1)) := rfl
theorem test_construct_no_fraction : construct 2 1 = .refused (.configError .fractionWidthNegative 2 1) := rfl
theorem test_construct_smallest : construct 2 0 = .next (State.fresh c20) := rfl
theorem test_construct_bounded : constructBounded (some 7) 8 0 = .refused (.configError .nAboveMax 8 0) := rfl

/-! WellFormed refuses an ill-formed term for each of its checks. -/

theorem smoke_decode_wide : Instr.wellFormed c81 (.decode 256) = false := by decide
theorem smoke_mul_wide_x : Instr.wellFormed c81 (.mul 256 0) = false := by decide
theorem smoke_mul_wide_y : Instr.wellFormed c81 (.mul 0 256) = false := by decide
theorem smoke_posFinite_zero : Instr.wellFormed c81 (.operandClassPosFinite 0) = false := by decide
theorem smoke_posFinite_wide : Instr.wellFormed c81 (.operandClassPosFinite 128) = false := by decide
theorem smoke_negFinite_zero : Instr.wellFormed c81 (.operandClassNegFinite 0) = false := by decide
theorem smoke_negFinite_wide : Instr.wellFormed c81 (.operandClassNegFinite 128) = false := by decide
theorem smoke_nonneg_no_run : Instr.wellFormed c81 (.regimeClassNonneg 0 0 0) = false := by decide
theorem smoke_nonneg_long_run : Instr.wellFormed c81 (.regimeClassNonneg 8 0 0) = false := by decide
theorem smoke_nonneg_wide_exponent : Instr.wellFormed c81 (.regimeClassNonneg 1 2 0) = false := by decide
theorem smoke_nonneg_absent_exponent_bit : Instr.wellFormed c82 (.regimeClassNonneg 5 1 0) = false := by decide
theorem smoke_nonneg_wide_fraction : Instr.wellFormed c81 (.regimeClassNonneg 1 0 16) = false := by decide
theorem smoke_neg_no_run : Instr.wellFormed c81 (.regimeClassNeg 0 0 0) = false := by decide
theorem smoke_neg_run_fills_body : Instr.wellFormed c81 (.regimeClassNeg 7 0 0) = false := by decide
theorem smoke_neg_wide_fraction : Instr.wellFormed c81 (.regimeClassNeg 1 0 16) = false := by decide
theorem smoke_line_unbound : linesAdmitted c81 [] [⟨0, .decode (.name 1)⟩] = false := by decide
theorem smoke_line_rebinds : linesAdmitted c81 [] [⟨0, .decode (.lit 1)⟩, ⟨0, .decode (.lit 1)⟩] = false := by decide
theorem smoke_line_record_operand : linesAdmitted c81 [] [⟨0, .decode (.lit 1)⟩, ⟨1, .decode (.name 0)⟩] = false := by decide
theorem smoke_line_wide_literal : linesAdmitted c81 [] [⟨0, .mul (.lit 1) (.lit 256)⟩] = false := by decide

/-! Every row's decoding, by words written out from 30_encoding.md. -/

/-- R39: 0^8. -/
theorem word_zero : decodeTableWord 8 0b00000000 = some .operandClassZero := by decide
/-- R39: 1 0^7. -/
theorem word_nar : decodeTableWord 8 0b10000000 = some .operandClassNaR := by decide
/-- R38: sign 0, body 101 1011. -/
theorem word_posFinite : decodeTableWord 8 0b01011011 = some (.operandClassPosFinite 0b1011011) := by decide
/-- R38: sign 1, body 010 0101. -/
theorem word_negFinite : decodeTableWord 8 0b10100101 = some (.operandClassNegFinite 0b0100101) := by decide
/-- R41, R43, R44 with es = 1: run 1, terminator 0, exponent 1, fraction 1011. -/
theorem word_regime_nonneg : decode c81 (.word 7 0b1011011) = .ok (.regimeClassNonneg 1 1 0b1011) := by decide
/-- R65 with es = 2: run 11111, terminator 0, one exponent bit 1 present, so e = 10. -/
theorem word_regime_truncated_exponent : decode c82 (.word 7 0b1111101) = .ok (.regimeClassNonneg 5 0b10 0) := by decide
/-- R41: the run fills the body, no terminator. -/
theorem word_regime_no_terminator : decode c81 (.word 7 0b1111111) = .ok (.regimeClassNonneg 7 0 0) := by decide
/-- R41 with es = 1: run 000, terminator 1, exponent 0, fraction 11. -/
theorem word_regime_neg : decode c81 (.word 7 0b0001011) = .ok (.regimeClassNeg 3 0 0b11) := by decide
/-- R49: the block selects the operation. -/
theorem word_decode_block : decode c81 (.decoder 0b01011011) = .ok (.decode 0b01011011) := by decide
theorem word_mul_block : decode c81 (.multiplier 0b01011011 0b11000000) = .ok (.mul 0b01011011 0b11000000) := by decide
/-- R41: the magnitude view 0 has no regime class. -/
theorem word_no_regime : decode c81 (.word 7 0) = .error .noRegime := by decide
theorem word_of_no_width : decode c81 (.word 9 0) = .error (.noWordOfThisWidth 9) := by decide
theorem word_too_wide : decode c81 (.word 8 256) = .error .patternTooWide := by decide
/-- 20_memory.md R30: two bytes in either order. -/
theorem bytes_both_orders :
    decodeBytes c161 .littleEndian [0x99, 0x49] = .ok (.operandClassPosFinite 0x4999)
    ∧ decodeBytes c161 .bigEndian [0x49, 0x99] = .ok (.operandClassPosFinite 0x4999) := by decide

/-! DECODE: the worked example of 40_decoder.md R61, and its corner cases (R65). -/

theorem test_decode_worked_example : decAfter (.decode 0x5B) c81 =
    some ⟨⟨8, 0x5B⟩, false, false, false, true, ⟨3, 0b000⟩, ⟨4, 0b0000⟩, ⟨1, 1⟩, ⟨5, 0b11011⟩⟩ := by decide
/-- 95_test_vectors.md P2: dy. -/
theorem test_decode_negative : decAfter (.decode 0x95) c81 =
    some ⟨⟨8, 0x95⟩, true, false, false, true, ⟨3, 0b001⟩, ⟨4, 0b0001⟩, ⟨1, 1⟩, ⟨5, 0b10110⟩⟩ := by decide

/-! MUL: the worked example of 41_multiplier.md R82, and a cutoff in the exponent (R86). -/

theorem test_mul_worked_example : productAfter (.mul 0x5B 0x5B) c81 = some 0x6B := by decide
theorem test_mul_cutoff_in_exponent : productAfter (.mul 0x7D 0x64) c82 = some 0x7F := by decide

/-! The pattern rows, by 95_test_vectors.md S1, S2 and section 3. -/

theorem test_zero_row : flagsAfter .operandClassZero Cfg.atReset = some (false, true, false) := by decide
theorem test_nar_row : flagsAfter .operandClassNaR Cfg.atReset = some (true, false, true) := by decide
theorem test_posFinite_row : decAfter (.operandClassPosFinite 0x79) Cfg.atReset =
    some ⟨⟨8, 0x79⟩, false, false, false, true, ⟨3, 0b011⟩, ⟨4, 0b0011⟩, ⟨1, 0⟩, ⟨6, 0b101000⟩⟩ := by decide
theorem test_negFinite_row : decAfter (.operandClassNegFinite 0x41) Cfg.atReset =
    some ⟨⟨8, 0xC1⟩, true, false, false, false, ⟨3, 0b000⟩, ⟨4, 0b1111⟩, ⟨1, 0⟩, ⟨6, 0b111111⟩⟩ := by decide
/-- 95_test_vectors.md section 3, (8, 0), row 0x65. -/
theorem test_regimeNonneg_row : decAfter (.regimeClassNonneg 2 0 0b0101) Cfg.atReset =
    some ⟨⟨8, 0x65⟩, false, false, false, true, ⟨3, 0b001⟩, ⟨4, 0b0001⟩, ⟨1, 0⟩, ⟨6, 0b101010⟩⟩ := by decide
/-- 95_test_vectors.md section 3, (8, 0), row 0x05. -/
theorem test_regimeNeg_row : decAfter (.regimeClassNeg 4 0 0b01) Cfg.atReset =
    some ⟨⟨8, 0x05⟩, false, false, false, false, ⟨3, 0b011⟩, ⟨4, 0b1100⟩, ⟨1, 0⟩, ⟨6, 0b101000⟩⟩ := by decide

/-! The reference agrees with 95_test_vectors.md too. -/

theorem test_reference : Reference.mulRef c81 0x5B 0x5B = 0x6B ∧ Reference.mulRef Cfg.atReset 0x01 0x50 = 0x02 := by
  decide +kernel

/-! Witnesses: states and operands that meet a statement's hypotheses, at the ends of their ranges. -/

theorem witness_O1_ConstructionSucceedsExactlyOnLegalPairs :
    construct 3 1 = .next (State.fresh c31) ∧ ¬(2 ≤ (3 : Int) ∧ 0 ≤ (2 : Int) ∧ 0 ≤ (3 : Int) - 2 - 2) := ⟨rfl, by decide⟩
theorem witness_O2_ConfigErrorNamesFirstFailingCheck :
    ((1 : Int) < 2) ∧ (2 ≤ (2 : Int) ∧ (-1 : Int) < 0) ∧ (2 ≤ (2 : Int) ∧ 0 ≤ (1 : Int) ∧ (2 : Int) - 1 - 2 < 0) := by decide
theorem witness_O3_DecodeCompletesOnEveryPattern :
    0x00 < 2 ^ State.reset.cfg.N ∧ 0xFF < 2 ^ State.reset.cfg.N := by decide
theorem witness_O4_NormaliserGivesBodyOfAbsoluteValue :
    (0x80 < 2 ^ c81.N ∧ Format.isFinite c81 0x80 = false) ∧ (0x81 < 2 ^ c81.N ∧ Format.isFinite c81 0x81 = true) := by decide
theorem witness_O5_RunLengthDetectorCountsTheRun :
    runLengthOf (c := c81) 0b1111110#7 < c81.N - 1 ∧ 0 < runLengthOf (c := c81) 0b1111110#7
    ∧ runLengthOf (c := c81) 0b1111111#7 = c81.N - 1 := by decide
theorem witness_O6_DecodeReportsTheRegime :
    (0x01 < 2 ^ State.reset.cfg.N ∧ Format.isFinite State.reset.cfg 0x01 = true)
    ∧ (0x7F < 2 ^ State.reset.cfg.N ∧ Format.isFinite State.reset.cfg 0x7F = true)
    ∧ (decAfter (.decode 0x01) Cfg.atReset).map (·.regSign) = some false
    ∧ (decAfter (.decode 0x7F) Cfg.atReset).map (·.regSign) = some true := by decide
theorem witness_O7_DecodeReportsTheExponent :
    (0x7F < 2 ^ c81.N ∧ Format.isFinite c81 0x7F = true ∧ Format.regimeRun c81 (Format.magnitude c81 0x7F) = c81.N - 1 ∧ 0 < c81.es)
    ∧ (0x7F < 2 ^ Cfg.atReset.N ∧ Format.isFinite Cfg.atReset 0x7F = true ∧ Cfg.atReset.es = 0) := by decide
theorem witness_O8_DecodeReportsTheFraction :
    (0x7 < 2 ^ c31.N ∧ Format.isFinite c31 0x7 = true) ∧ (0x80 < 2 ^ c81.N ∧ Format.isFinite c81 0x80 = false) := by decide
theorem witness_O9_VoidOutputsAreTheDrawnValues :
    (0 = 0 ∨ 0 = 2 ^ (State.reset.cfg.N - 1)) ∧ (0x80 = 0 ∨ 0x80 = 2 ^ (State.reset.cfg.N - 1)) := by decide
theorem witness_O10_DecodedFieldsGiveTheValue :
    0x95 < 2 ^ (State.fresh c81).cfg.N ∧ Format.isFinite (State.fresh c81).cfg 0x95 = true := by decide
theorem witness_O11_ReencodingDecodedFieldsGivesThePattern :
    0x7D < 2 ^ (State.fresh c82).cfg.N ∧ Format.isFinite (State.fresh c82).cfg 0x7D = true := by decide
theorem witness_O12_NegationKeepsMagnitudeFields :
    0x81 < 2 ^ State.reset.cfg.N ∧ Format.isFinite State.reset.cfg 0x81 = true := by decide
theorem witness_O13_ExtremePatternsDecode : 3 ≤ (State.fresh c31).cfg.N := by decide
theorem witness_O14_MulAnswersTheReferenceProduct :
    0x00 < 2 ^ State.reset.cfg.N ∧ 0xFF < 2 ^ State.reset.cfg.N := by decide
theorem witness_O15_finite_operands :
    0x01 < 2 ^ State.reset.cfg.N ∧ 0x64 < 2 ^ State.reset.cfg.N
    ∧ Format.isFinite State.reset.cfg 0x01 = true ∧ Format.isFinite State.reset.cfg 0x64 = true := by decide
/-- 1/64 × 5/2 = 5/128 lies between 1/32 (0x02) and 3/64 (0x03). -/
theorem witness_O15_between_neighbours :
    1 ≤ 0x02 ∧ 0x02 < Format.maxpos Cfg.atReset
    ∧ realValue Cfg.atReset 0x02 < |realValue Cfg.atReset 0x01 * realValue Cfg.atReset 0x64|
    ∧ |realValue Cfg.atReset 0x01 * realValue Cfg.atReset 0x64| < realValue Cfg.atReset (0x02 + 1) := by decide +kernel
theorem witness_O15_at_the_ends :
    realValue Cfg.atReset (Format.maxpos Cfg.atReset) ≤ |realValue Cfg.atReset 0x7F * realValue Cfg.atReset 0x40|
    ∧ |realValue Cfg.atReset 0x01 * realValue Cfg.atReset 0x40| ≤ realValue Cfg.atReset Format.minpos := by decide +kernel
theorem witness_O16_SpecialOperandsOverrideTheDatapath :
    0x80 < 2 ^ State.reset.cfg.N ∧ 0x00 < 2 ^ State.reset.cfg.N := by decide
theorem witness_O17_OutputsDependOnlyOnInputsAndConfiguration :
    State.reset.cfg = { State.reset with draws := 7 }.cfg ∧ 0x5B < 2 ^ State.reset.cfg.N
    ∧ Format.isFinite State.reset.cfg 0x5B = true := by decide
theorem witness_O18_MulCommutes : 0x80 < 2 ^ State.reset.cfg.N ∧ 0x01 < 2 ^ State.reset.cfg.N := by decide
theorem witness_O19_OneIsTheIdentity : 0x80 < 2 ^ State.reset.cfg.N ∧ 0x7F < 2 ^ State.reset.cfg.N := by decide
theorem witness_O20_NegatedOperandNegatesTheProduct :
    0xA5 < 2 ^ c81.N ∧ 0x5B < 2 ^ c81.N ∧ Format.isFinite c81 0xA5 = true ∧ Format.isFinite c81 0x5B = true := by decide
theorem witness_O21_FiniteProductIsSignedMagnitude :
    0xFF < 2 ^ State.reset.cfg.N ∧ 0x01 < 2 ^ State.reset.cfg.N
    ∧ Format.isFinite State.reset.cfg 0xFF = true ∧ Format.isFinite State.reset.cfg 0x01 = true := by decide
theorem witness_O22_ScaleFactorSumNeverWraps :
    0x7F < 2 ^ c82.N ∧ 0x01 < 2 ^ c82.N ∧ Format.isFinite c82 0x7F = true ∧ Format.isFinite c82 0x01 = true := by decide
theorem witness_O23_SumSplitsIntoRegimeAndExponent : Cfg.atReset.es = 0 := rfl
theorem witness_O24_SignificandProductIsExact :
    0x5F < 2 ^ c81.N ∧ 0xFF < 2 ^ c81.N ∧ Format.isFinite c81 0x5F = true ∧ Format.isFinite c81 0xFF = true := by decide
theorem witness_O25_NormaliserDropsNoBit :
    (0x3 < 2 ^ c20.N ∧ Format.isFinite c20 0x3 = true ∧ c20.FW = 1)
    ∧ (0x5F < 2 ^ c81.N ∧ Format.isFinite c81 0x5F = true) := by decide
/-- 64 × 2 has regime 7 > 6; 1/64 × 1/2 has regime -7 < -6 (95_test_vectors.md section 4.1). -/
theorem witness_O26_OutOfRangeRegimeSaturates :
    (Format.scaleFactor Cfg.atReset 0x7F + Format.scaleFactor Cfg.atReset 0x60) / 2 ^ Cfg.atReset.es > (Cfg.atReset.N : Int) - 2
    ∧ (Format.scaleFactor Cfg.atReset 0x01 + Format.scaleFactor Cfg.atReset 0x20) / 2 ^ Cfg.atReset.es < -((Cfg.atReset.N : Int) - 2)
    ∧ Format.significand Cfg.atReset 0x7F * Format.significand Cfg.atReset 0x60 < 2
    ∧ Format.isFinite Cfg.atReset 0x7F = true ∧ Format.isFinite Cfg.atReset 0x01 = true := by decide +kernel
/-- The traces 0x51 × 0x7E (K = 5) and 0x01 × 0x50 (K = -6) of 95_test_vectors.md section 4.1 do not saturate. -/
theorem witness_O27_ShifterGivesTheEncodingString :
    let A := decodeCircuit (c := Cfg.atReset) 0x51#8
    let B := decodeCircuit (c := Cfg.atReset) 0x7E#8
    let C := decodeCircuit (c := Cfg.atReset) 0x01#8
    let D := decodeCircuit (c := Cfg.atReset) 0x50#8
    ((mulSignals A B).satHi = false ∧ (mulSignals A B).satLo = false)
    ∧ ((mulSignals C D).satHi = false ∧ (mulSignals C D).satLo = false) := by decide
/-- 0x7F × 0x60 saturates high, 0x01 × 0x20 low, 0x41 × 0x5E rounds into the regime. -/
theorem witness_O28_RoundingNeverCarriesOut :
    let g := fun x y : BitVec 8 => mulSignals (decodeCircuit (c := Cfg.atReset) x) (decodeCircuit (c := Cfg.atReset) y)
    (g 0x7F 0x60).satHi = true ∧ (g 0x01 0x20).satLo = true
    ∧ (g 0x41 0x5E).satHi = false ∧ (g 0x41 0x5E).satLo = false ∧ (g 0x41 0x5E).rnd = true := by decide
theorem witness_O29_SpecialConditionsResolveInOrder :
    (decodeCircuit (c := Cfg.atReset) 0x80#8).isNaR = true ∧ (decodeCircuit (c := Cfg.atReset) 0x00#8).isZero = true
    ∧ (decodeCircuit (c := Cfg.atReset) 0x00#8).isNaR = false ∧ Format.isFinite Cfg.atReset 0x7F = true
    ∧ productAfter (.mul 0x80 0x00) Cfg.atReset = some 0x80 := by decide
/-- 1.5 × 1.5 = 9/4 is the value of 0x62 (41_multiplier.md R86). -/
theorem witness_O30_RepresentableProductsAreExact :
    Format.value Cfg.atReset 0x62 = some (realValue Cfg.atReset 0x50 * realValue Cfg.atReset 0x50)
    ∧ Format.isFinite Cfg.atReset 0x50 = true ∧ 0x62 < 2 ^ Cfg.atReset.N ∧ 0x50 < 2 ^ Cfg.atReset.N := by decide +kernel
theorem witness_O31_ZeroAndNaRRowsComplete :
    0x01 < 2 ^ State.reset.cfg.N ∧ 0x01 ≠ 0 ∧ 0x01 ≠ 2 ^ (State.reset.cfg.N - 1)
    ∧ 0xFF < 2 ^ State.reset.cfg.N ∧ 0xFF ≠ 2 ^ (State.reset.cfg.N - 1) := by decide
theorem witness_O32_FiniteClassRowsComplete :
    (0 < 1 ∧ 1 < 2 ^ (State.reset.cfg.N - 1)) ∧ (0 < 127 ∧ 127 < 2 ^ (State.reset.cfg.N - 1)) := by decide
theorem witness_O33_NonnegativeRegimeRowCompletes :
    Instr.wellFormed c82 (.regimeClassNonneg 1 3 7) = true ∧ Instr.wellFormed c82 (.regimeClassNonneg 7 0 0) = true := by decide
theorem witness_O34_NegativeRegimeRowCompletes :
    Instr.wellFormed c82 (.regimeClassNeg 1 3 7) = true ∧ Instr.wellFormed c82 (.regimeClassNeg 6 0 0) = true := by decide
theorem witness_O35_DecodeOfEncodeIsTheInstruction :
    Instr.wellFormed c82 (.regimeClassNonneg 5 2 0) = true ∧ Instr.wellFormed c20 (.operandClassNegFinite 1) = true := by decide
theorem witness_O36_DecodedDrivesAreEncodings :
    decode c82 (.word 7 0b1111101) = .ok (.regimeClassNonneg 5 2 0) := by decide
theorem witness_O37_EveryPatternIsAValidOperand : 0 < 2 ^ State.reset.cfg.N ∧ 0xFF < 2 ^ State.reset.cfg.N := by decide
theorem witness_O38_PatternRowsMeanDecode :
    decode State.reset.cfg (.word State.reset.cfg.N 0x80) = .ok .operandClassNaR
    ∧ decode State.reset.cfg (.word (State.reset.cfg.N - 1) 0x7F) = .ok (.regimeClassNonneg 7 0 0) := by decide
theorem witness_O40_ConfigurationNeverChanges :
    exec (.mul 0x40 0x40) State.reset =
      .next (evaluateMultiplier State.reset (BitVec.ofNat State.reset.cfg.N 0x40) (BitVec.ofNat State.reset.cfg.N 0x40)) := rfl
theorem witness_O41_OperationsWriteOnlyTheirOwnPorts :
    exec (.decode 0x40) State.reset = .next (evaluateDecoder State.reset (BitVec.ofNat State.reset.cfg.N 0x40)) := rfl
/-- An idle step, and a step that runs a word. -/
theorem witness_O43_StepKeepsTheInvariant :
    (Inv State.reset = true ∧ step State.reset = .next State.reset)
    ∧ Inv (State.reset.withFetchWord 8 0x5B) = true
    ∧ step (State.reset.withFetchWord 8 0x5B) = .next (evaluateDecoder State.reset (BitVec.ofNat State.reset.cfg.N 0x5B)) :=
  ⟨⟨by decide, rfl⟩, by decide, rfl⟩
/-- A name bound to a pattern, a line that uses it, and a bare word. -/
theorem witness_O44_AdmittedStatesStepToAdmittedStates :
    Admitted (withPending Cfg.atReset [(0, .pattern ⟨8, 0x40⟩)]
      [.line ⟨1, .mul (.name 0) (.lit 0x7F)⟩, .line ⟨2, .decode (.name 1)⟩, .word 7 0x7F]) = true := by decide
/-- 95_test_vectors.md P2. -/
theorem witness_O45_AdmittedProgramsRunForever :
    linesAdmitted c81 [] [⟨0, .mul (.lit 0x5B) (.lit 0x5B)⟩, ⟨1, .mul (.name 0) (.lit 0xC0)⟩,
      ⟨2, .mul (.name 1) (.name 1)⟩, ⟨3, .decode (.name 1)⟩] = true ∧ (8 : Int) = c81.N ∧ (1 : Int) = c81.es := by decide
/-- An idle state, a bare word pending, and a line pending whose operand is a bound name. -/
theorem witness_O46_StepRunsTheDecodedInstruction :
    let word := State.reset.withFetchWord 8 0x80
    let line := withPending c81 [(0, .pattern ⟨8, 0x6B⟩)] [.line ⟨1, .mul (.name 0) (.lit 2)⟩]
    State.reset.pending = []
    ∧ (word.pending = [.word 8 0x80] ∧ decode word.cfg (.word 8 0x80) = .ok .operandClassNaR)
    ∧ (line.pending = [.line ⟨1, .mul (.name 0) (.lit 2)⟩] ∧ line.names.lookup 1 = none)
    ∧ resolveOperation line.names (.mul (.name 0) (.lit 2)) = .ok (.multiplier 0x6B 2)
    ∧ decode line.cfg (.multiplier 0x6B 2) = .ok (.mul 0x6B 2) := ⟨rfl, ⟨rfl, by decide⟩, ⟨rfl, by decide⟩, rfl, by decide⟩
/-- A MUL line and a DECODE line pending, with a bound name and a literal as operands. -/
theorem witness_O47_LinesBindTheirResults :
    let s := fun op => withPending c81 [(0, .pattern ⟨8, 0x6B⟩)] [.line ⟨1, op⟩]
    (s (.mul (.name 0) (.lit 0xFF))).pending = [.line ⟨1, .mul (.name 0) (.lit 0xFF)⟩]
    ∧ (s (.decode (.name 0))).pending = [.line ⟨1, .decode (.name 0)⟩]
    ∧ (s (.decode (.name 0))).names.lookup 1 = none
    ∧ resolveOperand (s (.decode (.name 0))).names (.name 0) = .ok 0x6B
    ∧ resolveOperand (s (.decode (.name 0))).names (.lit 0xFF) = .ok 0xFF
    ∧ 0x6B < 2 ^ c81.N ∧ 0xFF < 2 ^ c81.N := ⟨rfl, rfl, by decide, rfl, rfl, by decide, by decide⟩
/-- Name 0 is a record and name 3 a pattern; names 1 and 2 are unbound. The line binds name 1. -/
def lineOnBoundNames (op : Operation) : State :=
  withPending c81 [(0, .record (DecoderPorts.reset c81)), (3, .pattern (patternBits c81 0x5B))] [.line ⟨1, op⟩]
theorem witness_O48_names_and_literal :
    let names := (lineOnBoundNames (.decode (.name 0))).names
    (names.lookup 0).isSome = true ∧ names.lookup 1 = none ∧ names.lookup 2 = none
    ∧ names.lookup 0 = some (.record (DecoderPorts.reset c81)) ∧ 2 ^ c81.N ≤ 256
    ∧ (match resolveOperand names (.name 3) with | .ok p => p == 0x5B | .error _ => false) = true := by
  refine ⟨?_, ?_, ?_, ?_, ?_, ?_⟩ <;> decide
/-- Each reason on a MUL line; of two bad names the first is refused. -/
theorem witness_O48_LinesOutsideTheNotationAreRefused :
    step (lineOnBoundNames (.mul (.name 2) (.name 0))) = .refused (.nameNotBound 2)
    ∧ step (lineOnBoundNames (.mul (.name 0) (.name 2))) = .refused (.nameIsRecord 0)
    ∧ step (lineOnBoundNames (.mul (.name 3) (.name 2))) = .refused (.nameNotBound 2)
    ∧ step (lineOnBoundNames (.mul (.lit 256) (.name 3))) = .refused (.rejected .patternTooWide)
    ∧ step (lineOnBoundNames (.mul (.name 3) (.lit 256))) = .refused (.rejected .patternTooWide) := ⟨rfl, rfl, rfl, rfl, rfl⟩
/-- Two lines on a common operand complete in this order. -/
theorem witness_O49_IndependentLinesCommute :
    independentMuls ⟨0, .mul (.lit 0x50) (.lit 0x50)⟩ ⟨1, .mul (.lit 0x50) (.lit 0x80)⟩ = true
    ∧ (match core.run 2 (withPending Cfg.atReset []
          [.line ⟨0, .mul (.lit 0x50) (.lit 0x50)⟩, .line ⟨1, .mul (.lit 0x50) (.lit 0x80)⟩]) with
        | .next t => t.names.map Prod.fst == [1, 0]
        | _ => false) = true := by decide
theorem witness_O50_PipelineDelaysByLatency :
    0 + ([5, 6] : List (BitVec Cfg.atReset.N)).length < 3 ∧ 1 < ([5, 6] : List (BitVec Cfg.atReset.N)).length
    ∧ Pipeline.outputs (fun x : Nat => x + 100) [5, 6] [1, 2, 3] = [5, 6, 101]
    ∧ 0 + ([decodeCircuit 0x5B, decodeCircuit 0x01] : List (DecodedPorts c81)).length < 3 := by decide
theorem witness_O51_ByteOrderDoesNotMatter : 0x4999 < 2 ^ c161.N := by decide
theorem witness_O52_DerivedWidthsSuffice :
    8 ≤ 2 ^ 3 ∧ 0x01 < 2 ^ Cfg.atReset.N ∧ Format.isFinite Cfg.atReset 0x01 = true
    ∧ 0x7F < 2 ^ Cfg.atReset.N ∧ Format.isFinite Cfg.atReset 0x7F = true
    ∧ (Format.scaleFactor Cfg.atReset 0x01, Format.scaleFactor Cfg.atReset 0x7F) = (-6, 6) := by decide

theorem witness_O54_OutputPortsReadAtTheirWidths :
    0x80 < 2 ^ State.reset.cfg.N ∧ State.reset.names.lookup 0 = none
    ∧ (withPending Cfg.atReset [] [.line ⟨0, .decode (.lit 0x80)⟩]).pending = [.line ⟨0, .decode (.lit 0x80)⟩] := by decide
/-- The product of the worked example of 41_multiplier.md R82: P = 1011011001. -/
theorem test_wallace_worked_example :
    (Architecture.wallaceProduct (c := c81) 0b11011#5 0b11011#5).toNat = 0b1011011001 := by decide

/-- The host's placing of a word, then one step (log 8). -/
theorem test_first_step_runs_the_word :
    (match step (State.reset.withFetchWord 8 0x80) with
      | .next t => t.dec.isNaR && t.dec.sign && !t.dec.isZero
      | _ => false) = true := by decide

end Sys2Proof.Tests
end

section
/-! Each output port as a function of the input ports and the configuration alone (10_state.md R16): the state's own
fields and the free values of the void outputs drop out. The void outputs of DECODE are the exception (R24). -/

namespace Sys2Proof.Machine

variable {c : Cfg}

/-- With neither flag raised no output is void, so DECODE is the circuit. -/
theorem decodePorts_of_no_flag (v : Voids c) {X : BitVec c.N} (hz : isZeroFlag X = false) (hn : isNaRFlag X = false) :
    decodePorts v X = decodeCircuit X := by
  simp [decodePorts, decodeCircuit, hz, hn]

/-- The top bit of the Frac port is the marker. -/
@[simp] theorem fracPort_marker (b : Bool) (low : BitVec (c.FW - 1)) : (fracPort b low).toNat.testBit (c.FW - 1) = b := by
  have hlow : low.toNat.testBit (c.FW - 1) = false := Nat.testBit_lt_two_pow low.isLt
  rw [fracPort_toNat]
  cases b
  · simpa using hlow
  · simp only [if_true, Nat.testBit_two_pow_add_eq, hlow, Bool.not_false]

/-- The marker of `Frac` keeps its value on the special patterns too (10_state.md R24). -/
@[simp] theorem decodePorts_frac_marker (v : Voids c) (X : BitVec c.N) :
    (decodePorts v X).frac.toNat.testBit (c.FW - 1) = nonzeroBody X := by
  simp only [decodePorts]
  split
  · exact fracPort_marker _ _
  · exact fracPort_marker _ _

/-- The product as a function of the two patterns: the datapath on the two circuits, then the override by the flags
(41_multiplier.md R68, R80). -/
def productPattern (X Y : BitVec c.N) : BitVec c.N :=
  let resNaR := resNaRSelect (isNaRFlag X) (isNaRFlag Y)
  specialOverride resNaR (resZeroSelect (isZeroFlag X) (isZeroFlag Y) resNaR)
    (mulSignals (decodeCircuit X) (decodeCircuit Y)).res

/-- Where an embedded decoder drives a void output, the override drops what the datapath makes of it. -/
theorem mulPattern_eq_productPattern (vA vB : Voids c) (X Y : BitVec c.N) : mulPattern vA vB X Y = productPattern X Y := by
  have hNaR : (mulSignals (decodePorts vA X) (decodePorts vB Y)).resNaR = resNaRSelect (isNaRFlag X) (isNaRFlag Y) := by
    simp [mulSignals]
  have hZero : (mulSignals (decodePorts vA X) (decodePorts vB Y)).resZero =
      resZeroSelect (isZeroFlag X) (isZeroFlag Y) (resNaRSelect (isNaRFlag X) (isNaRFlag Y)) := by
    simp [mulSignals]
  simp only [mulPattern, productPattern, hNaR, hZero]
  cases hn : resNaRSelect (isNaRFlag X) (isNaRFlag Y) with
  | true => rfl
  | false =>
    cases hz : resZeroSelect (isZeroFlag X) (isZeroFlag Y) false with
    | true => rfl
    | false =>
      simp only [resNaRSelect, resZeroSelect, Bool.not_false, Bool.and_true, Bool.or_eq_false_iff] at hn hz
      obtain ⟨hnX, hnY⟩ := hn
      obtain ⟨hzX, hzY⟩ := hz
      rw [decodePorts_of_no_flag vA hzX hnX, decodePorts_of_no_flag vB hzY hnY]

/-- All three ports of the multiplier after an evaluation. -/
theorem evaluateMultiplier_mul (s : State) (X Y : BitVec s.cfg.N) :
    (evaluateMultiplier s X Y).mul = ⟨Bits.of X, Bits.of Y, Bits.of (productPattern X Y)⟩ := by
  simp only [evaluateMultiplier, mulPattern_eq_productPattern]

/-- All ports of the decoder after an evaluation on a finite pattern. -/
theorem evaluateDecoder_dec_of_finite {s : State} {x : Nat} (hx : x < 2 ^ s.cfg.N) (hf : Format.isFinite s.cfg x = true) :
    (evaluateDecoder s (BitVec.ofNat s.cfg.N x)).dec =
      DecoderPorts.of (BitVec.ofNat s.cfg.N x) (decodeCircuit (BitVec.ofNat s.cfg.N x)) := by
  rw [evaluateDecoder_dec, decodePorts_of_finite _ hx hf]

theorem evaluateDecoder_sign (s : State) (X : BitVec s.cfg.N) : (evaluateDecoder s X).dec.sign = X.msb :=
  decodePorts_sign _ X

theorem evaluateDecoder_isZero (s : State) (X : BitVec s.cfg.N) : (evaluateDecoder s X).dec.isZero = isZeroFlag X :=
  decodePorts_isZero _ X

theorem evaluateDecoder_isNaR (s : State) (X : BitVec s.cfg.N) : (evaluateDecoder s X).dec.isNaR = isNaRFlag X :=
  decodePorts_isNaR _ X

theorem evaluateDecoder_marker (s : State) (X : BitVec s.cfg.N) :
    (evaluateDecoder s X).dec.frac.uint.testBit (s.cfg.FW - 1) = nonzeroBody X :=
  decodePorts_frac_marker _ X

theorem exec_decode_of_lt {s : State} {x : Nat} (hx : x < 2 ^ s.cfg.N) :
    exec (.decode x) s = .next (evaluateDecoder s (BitVec.ofNat s.cfg.N x)) := if_pos hx

/-- Settles O17: MUL's ports are `productPattern` of the operands, and DECODE's defined ports are the circuit's. Both
are terms over the configuration and the inputs, so equal configurations give equal ports. -/
theorem outputsDependOnlyOnInputsAndConfiguration : Obligations.OutputsDependOnlyOnInputsAndConfiguration := by
  intro s₁ s₂ hcfg x y hx hy
  have hx₂ : x < 2 ^ s₂.cfg.N := hcfg ▸ hx
  have hy₂ : y < 2 ^ s₂.cfg.N := hcfg ▸ hy
  refine ⟨⟨_, _, exec_mul_of_lt hx hy, exec_mul_of_lt hx₂ hy₂, ?_⟩,
    ⟨_, _, exec_decode_of_lt hx, exec_decode_of_lt hx₂, fun hf => ?_, ?_, ?_, ?_, ?_, ?_⟩⟩
  · rw [evaluateMultiplier_mul, evaluateMultiplier_mul, hcfg]
  · have hf₂ : Format.isFinite s₂.cfg x = true := hcfg ▸ hf
    rw [evaluateDecoder_dec_of_finite hx hf, evaluateDecoder_dec_of_finite hx₂ hf₂, hcfg]
  · rw [evaluateDecoder_dec, evaluateDecoder_dec, DecoderPorts.of_x, DecoderPorts.of_x, hcfg]
  · rw [evaluateDecoder_sign, evaluateDecoder_sign, hcfg]
  · rw [evaluateDecoder_isZero, evaluateDecoder_isZero, hcfg]
  · rw [evaluateDecoder_isNaR, evaluateDecoder_isNaR, hcfg]
  · rw [evaluateDecoder_marker, hcfg, evaluateDecoder_marker]

end Sys2Proof.Machine
end

section
/-! The configuration is fixed when the instance is built (10_state.md R20): no instruction and no step writes it. -/

namespace Sys2Proof

/-- The legality of R7, in the subtraction it is written with. -/
theorem Cfg.es_le_N_sub_two (c : Cfg) : c.es ≤ c.N - 2 := Nat.le_sub_of_add_le c.es_add_two_le_N

namespace Machine

theorem exec_cfg {i : Instr} {s t : State} (h : exec i s = .next t) : t.cfg = s.cfg := by
  obtain ⟨-, ⟨x, y, -, rfl⟩ | ⟨x, -, rfl⟩⟩ := exec_cases h
  · exact evaluateMultiplier_cfg s _ _
  · exact evaluateDecoder_cfg s _

theorem step_cfg {s t : State} (h : step s = .next t) : t.cfg = s.cfg := by
  obtain ⟨-, rfl⟩ | ⟨mv, rest, i, u, -, -, hexec, rfl⟩ := step_cases h
  · rfl
  · calc (bindResult mv u).cfg = u.cfg := bindResult_cfg u mv
      _ = s.cfg := exec_cfg (s := { s with pending := rest }) hexec

/-- Settles O40: both frames come from the lemmas that say all an instruction or a step can do; legality is carried
by every `Cfg`. -/
theorem configurationNeverChanges : Obligations.ConfigurationNeverChanges := by
  rintro s t (⟨i, hexec⟩ | hstep)
  · exact ⟨exec_cfg hexec, t.cfg.two_le_N, t.cfg.es_le_N_sub_two⟩
  · exact ⟨step_cfg hstep, t.cfg.two_le_N, t.cfg.es_le_N_sub_two⟩

end Machine

end Sys2Proof
end

section
/-! The run of equal bits at the top of a magnitude view (30_encoding.md R41), and the detector that counts it
(40_decoder.md R57). -/

namespace Sys2Proof

theorem Cfg.N_sub_one (c : Cfg) : c.N - 1 = c.N - 2 + 1 := by
  have := c.two_le_N
  omega

namespace Format

/-- Every bit of the run is `b`. -/
theorem testBit_of_lt_runLength {b : Bool} {x : Nat} :
    ∀ {n i : Nat}, i < runLength b x n → x.testBit (n - 1 - i) = b
  | 0, _, h => absurd h (Nat.not_lt_zero _)
  | n + 1, i, h => by
    unfold runLength at h
    split at h
    · next hn =>
      cases i with
      | zero => exact hn
      | succ j =>
        have ih := testBit_of_lt_runLength (Nat.lt_of_succ_lt_succ h)
        rwa [show n + 1 - 1 - (j + 1) = n - 1 - j by omega]
    · exact absurd h (Nat.not_lt_zero _)

/-- A run that ends above bit 0 ends at a bit that is not `b`: the terminator. -/
theorem testBit_runLength {b : Bool} {x : Nat} :
    ∀ {n : Nat}, runLength b x n < n → x.testBit (n - 1 - runLength b x n) = !b
  | 0, h => absurd h (Nat.not_lt_zero _)
  | n + 1, h => by
    unfold runLength at h ⊢
    split
    · next hn =>
      rw [if_pos hn] at h
      have ih := testBit_runLength (Nat.lt_of_succ_lt_succ h)
      rwa [show n + 1 - 1 - (runLength b x n + 1) = n - 1 - runLength b x n by omega]
    · next hn => exact Bool.eq_not.mpr hn

theorem runLength_eq_self_iff {b : Bool} {x n : Nat} : runLength b x n = n ↔ ∀ i < n, x.testBit i = b := by
  constructor
  · intro h i hi
    have hbit := testBit_of_lt_runLength (b := b) (x := x) (n := n) (i := n - 1 - i) (by omega)
    rwa [show n - 1 - (n - 1 - i) = i by omega] at hbit
  · intro h
    by_contra hne
    have hlt := Nat.lt_of_le_of_ne (Machine.runLength_le b x n) hne
    have hterm := testBit_runLength hlt
    rw [h _ (by omega)] at hterm
    exact (Bool.eq_not_self b).mp hterm

theorem regimeRun_le (c : Cfg) (y : Nat) : regimeRun c y ≤ c.N - 1 := Machine.runLength_le _ _ _

/-- The check bit is part of its own run. -/
theorem regimeRun_pos (c : Cfg) (y : Nat) : 1 ≤ regimeRun c y := by
  unfold regimeRun
  rw [c.N_sub_one, runLength, if_pos (by rfl)]
  omega

theorem regime_of_ones {c : Cfg} {y : Nat} (hrc : regimeCheck c y = true) : regime c y = (regimeRun c y : Int) - 1 := by
  rw [regime, hrc, regimeOf, if_pos rfl]

theorem regime_of_zeros {c : Cfg} {y : Nat} (hrc : regimeCheck c y = false) : regime c y = -(regimeRun c y : Int) := by
  rw [regime, hrc, regimeOf, if_neg Bool.false_ne_true]

/-- A run of zeros leaves room for its terminator unless the view is 0. -/
theorem regimeRun_le_of_regimeCheck_false {c : Cfg} {y : Nat} (hy : y < 2 ^ (c.N - 1)) (hne : y ≠ 0)
    (hrc : regimeCheck c y = false) : regimeRun c y ≤ c.N - 2 := by
  have hfull : regimeRun c y ≠ c.N - 1 := by
    unfold regimeRun
    rw [hrc, Ne, runLength_eq_self_iff]
    intro h
    refine hne (Nat.zero_of_testBit_eq_false fun i => ?_)
    by_cases hi : i < c.N - 1
    · exact h i hi
    · exact Nat.testBit_lt_two_pow (Nat.lt_of_lt_of_le hy (Nat.pow_le_pow_right Nat.two_pos (Nat.le_of_not_lt hi)))
  have := regimeRun_le c y
  omega

end Format

namespace Machine

variable {c : Cfg}

/-- The run fills the body exactly when every bit is the check bit. -/
theorem runLengthOf_eq_width_iff (Y : BitVec (c.N - 1)) :
    runLengthOf Y = c.N - 1 ↔ Y = rep (c.N - 1) (regimeCheckBit Y) := by
  rw [runLengthOf_eq_runLength, Format.runLength_eq_self_iff]
  constructor
  · intro h
    refine BitVec.eq_of_getLsbD_eq fun i hi => ?_
    rw [rep_getLsbD, decide_eq_true hi, Bool.true_and, ← h i hi, BitVec.testBit_toNat]
  · intro h i hi
    calc Y.toNat.testBit i = (rep (c.N - 1) (regimeCheckBit Y)).getLsbD i := by rw [← h, BitVec.testBit_toNat]
      _ = regimeCheckBit Y := by rw [rep_getLsbD, decide_eq_true hi, Bool.true_and]

/-- The check bit of a view of equal bits is that bit, as the body is not empty. -/
theorem eq_rep_regimeCheckBit_iff (Y : BitVec (c.N - 1)) :
    Y = rep (c.N - 1) (regimeCheckBit Y) ↔ Y = BitVec.allOnes (c.N - 1) ∨ Y = 0#(c.N - 1) := by
  have hpos : 0 < c.N - 1 := by
    have := c.two_le_N
    omega
  constructor
  · intro h
    cases hrc : regimeCheckBit Y with
    | true => exact .inl (by rw [h, hrc]; rfl)
    | false => exact .inr (by rw [h, hrc]; rfl)
  · rintro (rfl | rfl)
    · simp [regimeCheckBit, rep, BitVec.msb_allOnes hpos]
    · simp [regimeCheckBit, rep]

/-- Settles O5: the detector is `Format.runLength`, whose bits, terminator and full run are characterised above. -/
theorem runLengthDetectorCountsTheRun : Obligations.RunLengthDetectorCountsTheRun := by
  intro c Y rc m
  have hm : m = Format.runLength rc Y.toNat (c.N - 1) := runLengthOf_eq_runLength Y
  have hrun : m = Format.regimeRun c Y.toNat := runLengthOf_eq Y
  have hle : m ≤ c.N - 1 := hrun ▸ Format.regimeRun_le c Y.toNat
  refine ⟨hm, hrun ▸ Format.regimeRun_pos c Y.toNat, hle, fun i hi => ?_, ?_, fun hlt => ?_⟩
  · have hbit : Y.toNat.testBit (c.N - 1 - 1 - i) = rc := Format.testBit_of_lt_runLength (hm ▸ hi)
    have hiw : i < c.N - 1 := Nat.lt_of_lt_of_le hi hle
    rwa [BitVec.getMsbD, decide_eq_true hiw, Bool.true_and, ← BitVec.testBit_toNat]
  · exact (runLengthOf_eq_width_iff Y).trans (eq_rep_regimeCheckBit_iff Y)
  · have hterm : Y.toNat.testBit (c.N - 1 - 1 - m) = !rc := hm ▸ Format.testBit_runLength (hm ▸ hlt)
    rwa [BitVec.testBit_toNat] at hterm

end Machine

end Sys2Proof
end

section
/-! The magnitude view of a pattern is the body of its absolute value (30_encoding.md R40, 40_decoder.md R55). -/

namespace Sys2Proof.Format

@[simp] theorem neg_zero (n : Nat) : neg n 0 = 0 := Nat.mod_self _

theorem neg_of_pos {n x : Nat} (hx : 0 < x) : neg n x = 2 ^ n - x :=
  Nat.mod_eq_of_lt (Nat.sub_lt (Nat.two_pow_pos n) hx)

variable {c : Cfg} {x : Nat}

/-- The two special patterns are those with an empty body (R39). -/
theorem isFinite_iff_body_ne_zero (h : x < 2 ^ c.N) : isFinite c x = true ↔ body c x ≠ 0 := by
  have hx := Machine.eq_sign_add_body h
  have hb := Machine.body_lt c x
  simp only [isFinite, zeroPattern, narPattern, Bool.and_eq_true, bne_iff_ne]
  cases hs : signBit c x <;> simp only [hs, if_true, if_false, Bool.false_eq_true] at hx <;> omega

theorem magnitude_of_body_eq_zero (hb : body c x = 0) : magnitude c x = 0 := by
  simp [magnitude, hb]

theorem magnitude_of_body_ne_zero (hb : body c x ≠ 0) :
    magnitude c x = if signBit c x then 2 ^ (c.N - 1) - body c x else body c x := by
  rw [magnitude, neg_of_pos (Nat.pos_of_ne_zero hb)]

theorem magnitude_lt (c : Cfg) (x : Nat) : magnitude c x < 2 ^ (c.N - 1) := by
  unfold magnitude
  split
  · exact Nat.mod_lt _ (Nat.two_pow_pos _)
  · exact Machine.body_lt c x

theorem magnitude_ne_zero (h : x < 2 ^ c.N) (hf : isFinite c x = true) : magnitude c x ≠ 0 := by
  have hb := (isFinite_iff_body_ne_zero h).mp hf
  have hlt := Machine.body_lt c x
  rw [magnitude_of_body_ne_zero hb]
  split <;> omega

theorem magnitude_eq_absPattern (h : x < 2 ^ c.N) (hf : isFinite c x = true) :
    magnitude c x = Safety.absPattern c x := by
  have hb := (isFinite_iff_body_ne_zero h).mp hf
  have hx := Machine.eq_sign_add_body h
  have hN := Machine.two_pow_N c
  rw [magnitude_of_body_ne_zero hb, Safety.absPattern]
  cases hs : signBit c x with
  | false => simpa [hs] using hx.symm
  | true =>
    simp only [hs, if_true] at hx ⊢
    rw [neg_of_pos (by omega)]
    omega

end Sys2Proof.Format

namespace Sys2Proof.Machine

/-- Settles O4: the normaliser is `Format.magnitude`, which is 0 on an empty body and else the absolute value. -/
theorem normaliserGivesBodyOfAbsoluteValue : Obligations.NormaliserGivesBodyOfAbsoluteValue := by
  intro c x hx Y
  have hY : Y = Format.magnitude c x := magnitudeView_ofNat hx
  refine ⟨hY, fun hspecial => ?_, fun hf => ?_⟩
  · have hbody : Format.body c x = 0 := by
      by_contra hb
      exact absurd ((Format.isFinite_iff_body_ne_zero hx).mpr hb) (by simp [hspecial])
    rw [hY, Format.magnitude_of_body_eq_zero hbody]
  · rw [hY]
    exact ⟨Format.magnitude_ne_zero hx hf, Format.magnitude_eq_absPattern hx hf⟩

end Sys2Proof.Machine
end

section
/-! The regime ports read on integers: RegMag is the run length less one, Reg the signed regime of the format
(40_decoder.md R56, R58). -/

namespace Sys2Proof.Machine

variable {c : Cfg}

/-- The regime magnitude has room in RFW bits (00_scope.md R8). -/
theorem N_sub_two_lt_two_pow_RFW (c : Cfg) : c.N - 2 < 2 ^ c.RFW := by
  have hN := c.two_le_N
  have hw := le_two_pow_clog2 c.N
  calc c.N - 2 < c.N := by omega
    _ ≤ 2 ^ c.RFW := hw

theorem regimeMagnitude_toNat (Y : BitVec (c.N - 1)) :
    (regimeMagnitude Y).toNat = Format.regimeRun c Y.toNat - 1 := by
  have hle := Format.regimeRun_le c Y.toNat
  have hw := N_sub_two_lt_two_pow_RFW c
  rw [regimeMagnitude, runLengthOf_eq, BitVec.toNat_ofNat, Nat.mod_eq_of_lt (by omega)]

theorem two_pow_KW (c : Cfg) : 2 ^ c.KW = 2 * 2 ^ c.RFW := pow_succ' 2 c.RFW

/-- `Reg` has one bit more than the magnitude, so neither the magnitude nor its complement changes sign there. -/
theorem signedRegime_toInt (Y : BitVec (c.N - 1)) : (signedRegime Y).toInt = Format.regime c Y.toNat := by
  have hpos := Format.regimeRun_pos c Y.toNat
  have hmag := regimeMagnitude_toNat Y
  have hlt := (regimeMagnitude Y).isLt
  have hKW := two_pow_KW c
  have hwide : ((regimeMagnitude Y).setWidth c.KW).toNat = (regimeMagnitude Y).toNat := by
    rw [BitVec.toNat_setWidth, Nat.mod_eq_of_lt (by omega)]
  rw [signedRegime, regimeCheckBit_eq]
  cases hrc : Format.regimeCheck c Y.toNat with
  | true =>
    rw [if_pos rfl, BitVec.toInt_eq_toNat_of_lt (by omega), hwide, Format.regime_of_ones hrc]
    omega
  | false =>
    rw [if_neg Bool.false_ne_true, BitVec.toInt_eq_toNat_cond, BitVec.toNat_not, hwide, if_neg (by omega),
      Format.regime_of_zeros hrc]
    omega

section
variable {x : Nat} (h : x < 2 ^ c.N)
include h

theorem decodeCircuit_regSign_ofNat :
    (decodeCircuit (BitVec.ofNat c.N x)).regSign = Format.regimeCheck c (Format.magnitude c x) := by
  rw [← magnitudeView_ofNat h]
  exact regimeCheckBit_eq _

theorem decodeCircuit_regMag_ofNat :
    (decodeCircuit (BitVec.ofNat c.N x)).regMag.toNat = Format.regimeRun c (Format.magnitude c x) - 1 := by
  rw [← magnitudeView_ofNat h]
  exact regimeMagnitude_toNat _

theorem decodeCircuit_reg_ofNat :
    (decodeCircuit (BitVec.ofNat c.N x)).reg.toInt = Format.regime c (Format.magnitude c x) := by
  rw [← magnitudeView_ofNat h]
  exact signedRegime_toInt _

end

/-- Settles O6: the ports are the format's check bit, run and regime of the magnitude view; a finite view is not 0, so
a run of zeros stops short of the body and the regime stays above its lower bound. -/
theorem decodeReportsTheRegime : Obligations.DecodeReportsTheRegime := by
  intro s x hx hf
  have hN := s.cfg.two_le_N
  have hlt := Format.magnitude_lt s.cfg x
  have hne := Format.magnitude_ne_zero hx hf
  have hsign := decodeCircuit_regSign_ofNat hx
  have hmag := decodeCircuit_regMag_ofNat hx
  have hreg := decodeCircuit_reg_ofNat hx
  refine ⟨_, exec_decode_of_lt hx, ?_⟩
  rw [evaluateDecoder_dec_of_finite hx hf]
  simp only [DecoderPorts.of_regSign, DecoderPorts.of_regMag, DecoderPorts.of_reg, Bits.uint_of, Bits.sint_of,
    hsign, hmag, hreg]
  generalize Format.magnitude s.cfg x = y at hlt hne ⊢
  have hpos := Format.regimeRun_pos s.cfg y
  have hle := Format.regimeRun_le s.cfg y
  refine ⟨rfl, Nat.sub_add_cancel hpos, by omega, N_sub_two_lt_two_pow_RFW s.cfg, ?_⟩
  cases hrc : Format.regimeCheck s.cfg y with
  | true =>
    rw [Format.regime_of_ones hrc, abs_of_nonneg (by omega)]
    exact ⟨fun _ => ⟨rfl, by omega⟩, nofun, by omega, by omega⟩
  | false =>
    have hroom := Format.regimeRun_le_of_regimeCheck_false hlt hne hrc
    rw [Format.regime_of_zeros hrc, abs_neg, Nat.abs_cast]
    exact ⟨nofun, fun _ => ⟨rfl, by omega⟩, by omega, by omega⟩

end Sys2Proof.Machine
end

section
/-! The exponent port read on integers: the top es bits of what stands after the run and its terminator, absent low
bits 0 (40_decoder.md R59, 30_encoding.md R43). -/

namespace Sys2Proof

/-- Two values of a port are equal when their widths and their integers are. -/
theorem Bits.eq_of_uint_eq {a b : Bits} (hw : a.width = b.width) (hu : a.uint = b.uint) : a = b := by
  cases a
  cases b
  cases hw
  exact congrArg _ (BitVec.eq_of_toNat_eq hu)

namespace Format

variable {c : Cfg}

/-- Shifting the run and its terminator out leaves the tail, left-aligned; of a run that fills the body nothing. -/
theorem shift_eq_tail {m : Nat} (c : Cfg) (y : Nat) (hm : m ≤ c.N - 1) :
    y * 2 ^ (m + 1) % 2 ^ (c.N - 1) = y % 2 ^ tailBits c m * 2 ^ (m + 1) := by
  have hN := c.two_le_N
  unfold tailBits
  obtain hfull | hlt : c.N - 1 = m ∨ m < c.N - 1 := by omega
  · have htail : c.N - 2 - m = 0 := by omega
    rw [htail, hfull, pow_succ', ← mul_assoc, Nat.mul_mod_left, pow_zero, Nat.mod_one, Nat.zero_mul]
  · have hwidth : c.N - 1 = (c.N - 2 - m) + (m + 1) := by omega
    calc y * 2 ^ (m + 1) % 2 ^ (c.N - 1) = y * 2 ^ (m + 1) % (2 ^ (c.N - 2 - m) * 2 ^ (m + 1)) := by rw [← pow_add, ← hwidth]
      _ = y % 2 ^ (c.N - 2 - m) * 2 ^ (m + 1) := Nat.mul_mod_mul_right _ _ _

/-- The top es bits of the left-aligned tail are the present exponent bits, followed by zeros for the absent ones. -/
theorem exponent_eq_shift (c : Cfg) (y : Nat) :
    exponent c y = y * 2 ^ (regimeRun c y + 1) % 2 ^ (c.N - 1) / 2 ^ (c.N - 1 - c.es) := by
  have hle := regimeRun_le c y
  have hes := c.es_add_two_le_N
  rw [shift_eq_tail c y hle, exponent]
  generalize regimeRun c y = m at hle ⊢
  unfold fractionBits absentExponentBits tailBits
  obtain hfull | hpresent | habsent :
      m = c.N - 1 ∨ (m < c.N - 1 ∧ c.es ≤ c.N - 2 - m) ∨ (m < c.N - 1 ∧ c.N - 2 - m ≤ c.es) := by omega
  · have htail : c.N - 2 - m = 0 := by omega
    simp [htail, Nat.mod_one]
  · have hzero : c.es - (c.N - 2 - m) = 0 := by omega
    have hshift : c.N - 1 - c.es = (c.N - 2 - m - c.es) + (m + 1) := by omega
    rw [hzero, hshift, pow_zero, mul_one, pow_add _ (c.N - 2 - m - c.es), Nat.mul_div_mul_right _ _ (Nat.two_pow_pos _)]
  · have hzero : c.N - 2 - m - c.es = 0 := by omega
    have hshift : m + 1 = (c.es - (c.N - 2 - m)) + (c.N - 1 - c.es) := by omega
    rw [hzero, pow_zero, Nat.div_one, hshift, pow_add, ← mul_assoc, Nat.mul_div_cancel _ (Nat.two_pow_pos _)]

end Format

namespace Machine

variable {c : Cfg}

theorem EW_of_es_eq_zero (hes : c.es = 0) : c.EW = 1 := by simp [hes]

theorem EW_of_es_pos (hes : 0 < c.es) : c.EW = c.es := Nat.max_eq_left hes

/-- The extracted field is the top es bits of U; with es = 0 there are none and the placeholder reads 0. -/
theorem exponentField_toNat (Y : BitVec (c.N - 1)) :
    (exponentField Y).toNat = (afterRegime Y).toNat / 2 ^ (c.N - 1 - c.es) := by
  have hU := (afterRegime Y).isLt
  have hN := c.es_add_two_le_N
  unfold exponentField
  split
  · next hes =>
    have hwidth : c.N - 1 = c.es + (c.N - 1 - c.es) := by omega
    have htop : (afterRegime Y).toNat / 2 ^ (c.N - 1 - c.es) < 2 ^ c.es := by
      rw [Nat.div_lt_iff_lt_mul (Nat.two_pow_pos _), ← pow_add, ← hwidth]
      exact hU
    rw [BitVec.extractLsb'_toNat, Nat.shiftRight_eq_div_pow, EW_of_es_pos hes, Nat.mod_eq_of_lt htop]
  · next hes =>
    rw [Nat.eq_zero_of_not_pos hes, Nat.sub_zero, Nat.div_eq_of_lt hU]
    rfl

theorem decodeCircuit_exp_ofNat {x : Nat} (h : x < 2 ^ c.N) :
    (decodeCircuit (BitVec.ofNat c.N x)).exp.toNat = Format.exponent c (Format.magnitude c x) := by
  calc (decodeCircuit (BitVec.ofNat c.N x)).exp.toNat
      = (afterRegime (magnitudeView (c := c) (BitVec.ofNat c.N x))).toNat / 2 ^ (c.N - 1 - c.es) := exponentField_toNat _
    _ = Format.exponent c (Format.magnitude c x) := by
      rw [afterRegime_toNat, magnitudeView_ofNat h, Format.exponent_eq_shift]

/-- Settles O7: the port reads as the format's exponent, which is the top es bits of the shifted view. -/
theorem decodeReportsTheExponent : Obligations.DecodeReportsTheExponent := by
  intro s x hx hf y m U
  have hexp := decodeCircuit_exp_ofNat hx
  have hshift : Format.exponent s.cfg y = U / 2 ^ (s.cfg.N - 1 - s.cfg.es) := Format.exponent_eq_shift s.cfg y
  have hU : U < 2 ^ (s.cfg.N - 1) := Nat.mod_lt _ (Nat.two_pow_pos _)
  refine ⟨_, exec_decode_of_lt hx, fun hfull => ?_, ?_⟩
  · have htail : Format.tailBits s.cfg m = 0 := by rw [Format.tailBits]; omega
    calc U = y % 2 ^ Format.tailBits s.cfg m * 2 ^ (m + 1) := Format.shift_eq_tail s.cfg y hfull.le
      _ = 0 := by rw [htail, pow_zero, Nat.mod_one, Nat.zero_mul]
  · rw [evaluateDecoder_dec_of_finite hx hf, DecoderPorts.of_exp, Bits.uint_of, hexp]
    refine ⟨fun _ => hshift, rfl, fun hes => Bits.eq_of_uint_eq (EW_of_es_eq_zero hes) ?_⟩
    calc (decodeCircuit (BitVec.ofNat s.cfg.N x)).exp.toNat
        = U / 2 ^ (s.cfg.N - 1 - s.cfg.es) := hexp.trans hshift
      _ = 0 := by rw [hes, Nat.sub_zero, Nat.div_eq_of_lt hU]

end Machine

end Sys2Proof
end

section
/-! The result regime and exponent: the high and low bits of the scale-factor sum (41_multiplier.md R74). -/

namespace Sys2Proof.Machine

section
variable {w n e : Nat} (v : BitVec w) (hw : w = n + e) (hn : n ≠ 0)
include hw hn

/-- A signed vector is its high bits, read as signed, times `2^e`, plus its `e` low bits. -/
theorem toInt_eq_high_add_low : v.toInt = 2 ^ e * (v.extractLsb' e n).toInt + (v.extractLsb' 0 e).toNat := by
  subst hw
  conv_lhs => rw [← BitVec.extractLsb'_append_extractLsb' (x := v), BitVec.toInt_append, if_neg (by simpa using hn)]

theorem toInt_high_eq_ediv : (v.extractLsb' e n).toInt = v.toInt / 2 ^ e := by
  have hlow : ((v.extractLsb' 0 e).toNat : Int) < 2 ^ e := by exact_mod_cast (v.extractLsb' 0 e).isLt
  rw [toInt_eq_high_add_low v hw hn, Int.mul_add_ediv_left _ _ (by positivity),
    Int.ediv_eq_zero_of_lt (Int.natCast_nonneg _) hlow, add_zero]

theorem toNat_low_eq_emod : ((v.extractLsb' 0 e).toNat : Int) = v.toInt % 2 ^ e := by
  have hlow : ((v.extractLsb' 0 e).toNat : Int) < 2 ^ e := by exact_mod_cast (v.extractLsb' 0 e).isLt
  rw [toInt_eq_high_add_low v hw hn, Int.mul_add_emod_self_left, Int.emod_eq_of_lt (Int.natCast_nonneg _) hlow]

end

variable {c : Cfg}

/-- Above the es bits of the exponent the sum has the RFW + 2 bits of the regime. -/
theorem SSW_sub_es (c : Cfg) : c.SSW - c.es = c.RFW + 2 := by
  show c.RFW + 1 + c.es + 1 - c.es = c.RFW + 2
  omega

theorem SSW_eq_regime_add_exponent (c : Cfg) : c.SSW = c.SSW - c.es + c.es := by
  rw [SSW_sub_es]
  show c.RFW + 1 + c.es + 1 = c.RFW + 2 + c.es
  omega

theorem SSW_sub_es_ne_zero (c : Cfg) : c.SSW - c.es ≠ 0 := by
  rw [SSW_sub_es]
  exact Nat.succ_ne_zero _

/-- The result regime is the floor quotient of the sum by `2^es`. -/
theorem mulSignals_K_toInt (A B : DecodedPorts c) : (mulSignals A B).K.toInt = (mulSignals A B).SS.toInt / 2 ^ c.es :=
  toInt_high_eq_ediv _ (SSW_eq_regime_add_exponent c) (SSW_sub_es_ne_zero c)

/-- The result exponent is the remainder of the sum by `2^es`. -/
theorem mulSignals_E_toNat (A B : DecodedPorts c) :
    ((mulSignals A B).E.toNat : Int) = (mulSignals A B).SS.toInt % 2 ^ c.es :=
  toNat_low_eq_emod _ (SSW_eq_regime_add_exponent c) (SSW_sub_es_ne_zero c)

/-- Settles O23: the split of any signed vector into high and low bits is its floor division by `2^es`; `2^0 = 1`. -/
theorem sumSplitsIntoRegimeAndExponent : Obligations.SumSplitsIntoRegimeAndExponent := by
  intro c A B g
  refine ⟨mulSignals_K_toInt A B, mulSignals_E_toNat A B, fun hes => ?_⟩
  rw [mulSignals_K_toInt, hes, pow_zero, Int.ediv_one]

end Sys2Proof.Machine
end

section
/-! The override by the special-operand flags (41_multiplier.md R68, R80). -/

namespace Sys2Proof.Machine

variable {c : Cfg}

theorem twoPow_eq_ofNat (w i : Nat) : BitVec.twoPow w i = BitVec.ofNat w (2 ^ i) :=
  BitVec.eq_of_toNat_eq (by rw [BitVec.toNat_twoPow, BitVec.toNat_ofNat])

theorem mulSignals_resNaR_operand {x y : Nat} (vA vB : Voids c) (hx : x < 2 ^ c.N) (hy : y < 2 ^ c.N) :
    (mulSignals (Safety.operand c vA x) (Safety.operand c vB y)).resNaR = true ↔
      x = Format.narPattern c ∨ y = Format.narPattern c := by
  simp [mulSignals, Safety.operand, resNaRSelect, isNaRFlag_ofNat hx, isNaRFlag_ofNat hy]

theorem mulSignals_resZero_operand {x y : Nat} (vA vB : Voids c) (hx : x < 2 ^ c.N) (hy : y < 2 ^ c.N) :
    (mulSignals (Safety.operand c vA x) (Safety.operand c vB y)).resZero = true ↔
      (x = Format.zeroPattern ∨ y = Format.zeroPattern) ∧ x ≠ Format.narPattern c ∧ y ≠ Format.narPattern c := by
  simp [mulSignals, Safety.operand, resZeroSelect, resNaRSelect, isNaRFlag_ofNat hx, isNaRFlag_ofNat hy,
    isZeroFlag_ofNat hx, isZeroFlag_ofNat hy]

/-- The product port after an evaluation, read through decoders that drive any voids: the voids of the evaluation
itself are not among the terms (`mulPattern_eq_productPattern`). -/
theorem evaluateMultiplier_mul_r_operand (s : State) (vA vB : Voids s.cfg) (x y : Nat) :
    let g := mulSignals (Safety.operand s.cfg vA x) (Safety.operand s.cfg vB y)
    (evaluateMultiplier s (BitVec.ofNat s.cfg.N x) (BitVec.ofNat s.cfg.N y)).mul.r =
      Bits.of (specialOverride g.resNaR g.resZero g.res) := by
  rw [evaluateMultiplier_mul_r, mulPattern_eq_productPattern, ← mulPattern_eq_productPattern vA vB]
  rfl

/-- Settles O16: the selects are the operands' flags, and the product port is the override of the datapath's result under
any voids. -/
theorem specialOperandsOverrideTheDatapath : Obligations.SpecialOperandsOverrideTheDatapath := by
  intro s x y hx hy
  refine ⟨_, exec_mul_of_lt hx hy, fun vA vB => ⟨mulSignals_resNaR_operand vA vB hx hy,
    mulSignals_resZero_operand vA vB hx hy, ?_⟩⟩
  rw [evaluateMultiplier_mul_r_operand s vA vB x y, specialOverride, twoPow_eq_ofNat]

end Sys2Proof.Machine
end

section
/-! The fraction port read on integers: below the marker stands the fraction field, left-aligned (40_decoder.md R60,
30_encoding.md R44). -/

namespace Sys2Proof

namespace Format

variable {c : Cfg}

theorem fractionBits_le_FW (c : Cfg) (y : Nat) : fractionBits c (regimeRun c y) ≤ c.FW - 1 := by
  have hpos := regimeRun_pos c y
  show c.N - 2 - regimeRun c y - c.es ≤ max (c.N - c.es - 2) 1 - 1
  omega

theorem fraction_lt (c : Cfg) (y : Nat) : fraction c y < 2 ^ fractionBits c (regimeRun c y) :=
  Nat.mod_lt _ (Nat.two_pow_pos _)

/-- Bits 2 and up of the left-aligned tail, as many as the Frac port has below its marker, are the fraction field
followed by zeros: the exponent is above them, and what the shift brought in is below the field. -/
theorem fraction_eq_shift (c : Cfg) (y : Nat) :
    y * 2 ^ (regimeRun c y + 1) % 2 ^ (c.N - 1) / 2 ^ 2 % 2 ^ (c.FW - 1) =
      fraction c y * 2 ^ (c.FW - 1 - fractionBits c (regimeRun c y)) := by
  have hle := regimeRun_le c y
  have hpos := regimeRun_pos c y
  have hFW : c.FW = max (c.N - c.es - 2) 1 := rfl
  rw [shift_eq_tail c y hle, fraction]
  generalize regimeRun c y = m at hle hpos ⊢
  have hm : m + 1 = (m - 1) + 2 := by omega
  rw [hm, pow_add _ (m - 1), ← mul_assoc, Nat.mul_div_cancel _ (Nat.two_pow_pos 2)]
  unfold fractionBits tailBits
  obtain hroom | hnone : m ≤ c.N - c.es - 2 ∨ c.N - c.es - 2 < m := by omega
  · have hwidth : c.FW - 1 = (c.N - 2 - m - c.es) + (m - 1) := by omega
    have hpad : c.FW - 1 - (c.N - 2 - m - c.es) = m - 1 := by omega
    have hdvd : 2 ^ (c.N - 2 - m - c.es) ∣ 2 ^ (c.N - 2 - m) := Nat.pow_dvd_pow 2 (by omega)
    rw [hpad, hwidth, pow_add _ _ (m - 1), Nat.mul_mod_mul_right, Nat.mod_mod_of_dvd _ hdvd]
  · have hbits : c.N - 2 - m - c.es = 0 := by omega
    have hdvd : 2 ^ (c.FW - 1) ∣ 2 ^ (m - 1) := Nat.pow_dvd_pow 2 (by omega)
    rw [hbits, pow_zero, Nat.mod_one, Nat.zero_mul]
    exact Nat.mod_eq_zero_of_dvd (hdvd.mul_left _)

end Format

namespace Machine

variable {c : Cfg}

theorem fractionField_toNat (Y : BitVec (c.N - 1)) :
    (fractionField Y).toNat =
      Format.fraction c Y.toNat * 2 ^ (c.FW - 1 - Format.fractionBits c (Format.regimeRun c Y.toNat)) := by
  rw [fractionField, BitVec.extractLsb'_toNat, Nat.shiftRight_eq_div_pow, afterRegime_toNat, Format.fraction_eq_shift]

section
variable {x : Nat} (h : x < 2 ^ c.N) (hf : Format.isFinite c x = true)
include h hf

theorem nonzeroBody_of_finite : nonzeroBody (c := c) (BitVec.ofNat c.N x) = true := by
  rw [nonzeroBody_ofNat h, decide_eq_true_iff]
  exact (Format.isFinite_iff_body_ne_zero h).mp hf

theorem decodeCircuit_frac_ofNat :
    (decodeCircuit (BitVec.ofNat c.N x)).frac.toNat =
      2 ^ (c.FW - 1) + Format.fraction c (Format.magnitude c x) *
        2 ^ (c.FW - 1 - Format.fractionBits c (Format.regimeRun c (Format.magnitude c x))) := by
  calc (decodeCircuit (BitVec.ofNat c.N x)).frac.toNat
      = 2 ^ (c.FW - 1) + (fractionField (magnitudeView (c := c) (BitVec.ofNat c.N x))).toNat := by
        rw [decodeCircuit, nonzeroBody_of_finite h hf, fracPort_toNat, if_pos rfl]
    _ = _ := by rw [fractionField_toNat, magnitudeView_ofNat h]

theorem two_pow_le_decodeCircuit_frac : 2 ^ (c.FW - 1) ≤ (decodeCircuit (BitVec.ofNat c.N x)).frac.toNat := by
  rw [decodeCircuit_frac_ofNat h hf]
  exact Nat.le_add_right _ _

/-- The Frac port is the significand `1 + f` in units of its lowest bit. -/
theorem decodeCircuit_frac_eq_significand :
    ((decodeCircuit (BitVec.ofNat c.N x)).frac.toNat : ℚ) = Format.significand c x * 2 ^ (c.FW - 1) := by
  have hle := Format.fractionBits_le_FW c (Format.magnitude c x)
  rw [decodeCircuit_frac_ofNat h hf, Format.significand]
  generalize Format.fractionBits c _ = nf at hle ⊢
  push_cast
  rw [pow_sub₀ (2 : ℚ) two_ne_zero hle]
  ring

end

end Machine

end Sys2Proof
end

section
/-! The significand product and the normaliser (41_multiplier.md R71, R72). -/

namespace Sys2Proof.Machine

variable {c : Cfg}

theorem PW_sub_two (c : Cfg) : c.PW - 2 = c.FW - 1 + (c.FW - 1) := by
  show 2 * c.FW - 2 = _
  omega

theorem FRW_eq (c : Cfg) : c.FRW = c.PW - 2 + 1 := c.PW_sub_two_add_one.symm

theorem PW_eq (c : Cfg) : c.PW = c.FRW + 1 := by
  have := Nat.le_max_right c.F 1
  show 2 * max c.F 1 = 2 * max c.F 1 - 1 + 1
  omega

/-- The top bit of the product says that it is at least two, in units of a leading one two bits from the top. -/
theorem product_msb_iff {P : BitVec c.PW} : P.msb = true ↔ 2 * 2 ^ (c.PW - 2) ≤ P.toNat := by
  have hFRW : 2 ^ (c.PW - 1) = 2 * 2 ^ (c.PW - 2) := by rw [← pow_succ', ← FRW_eq]
  rw [BitVec.msb_eq_decide, decide_eq_true_iff, hFRW]

theorem normalisedFraction_toNat (P : BitVec c.PW) :
    (normalisedFraction P).toNat = if P.msb then P.toNat % 2 ^ c.FRW else P.toNat % 2 ^ (c.PW - 2) * 2 := by
  unfold normalisedFraction
  split
  · rw [BitVec.extractLsb'_toNat, Nat.shiftRight_zero]
  · rw [BitVec.toNat_cast, BitVec.toNat_append, BitVec.extractLsb'_toNat, Nat.shiftRight_zero]
    simp [Nat.shiftLeft_eq]

/-- Under the leading one of a product in `[1,4)`, FR holds all its other bits: those below the top bit, or those below
the next one, one place up. -/
theorem hidden_one_add_normalisedFraction {P : BitVec c.PW} (hP : 2 ^ (c.PW - 2) ≤ P.toNat) :
    2 ^ c.FRW + (normalisedFraction P).toNat = if P.msb then P.toNat else 2 * P.toNat := by
  have hFRW : 2 ^ c.FRW = 2 * 2 ^ (c.PW - 2) := by rw [FRW_eq, pow_succ']
  have hPW : 2 ^ c.PW = 2 * 2 ^ c.FRW := by rw [PW_eq, pow_succ']
  have hlt : P.toNat < 2 ^ c.PW := P.isLt
  have hmsb := product_msb_iff (P := P)
  rw [normalisedFraction_toNat]
  cases h : P.msb with
  | true =>
    have hge := hmsb.mp h
    rw [if_pos rfl, if_pos rfl, Nat.mod_eq_sub_mod (by omega), Nat.mod_eq_of_lt (by omega)]
    omega
  | false =>
    have hsmall : P.toNat < 2 * 2 ^ (c.PW - 2) := Nat.lt_of_not_le fun hge => by simp [hmsb.mpr hge] at h
    rw [if_neg Bool.false_ne_true, if_neg Bool.false_ne_true, Nat.mod_eq_sub_mod hP, Nat.mod_eq_of_lt (by omega)]
    omega

theorem mulSignals_P_toNat (A B : DecodedPorts c) : (mulSignals A B).P.toNat = A.frac.toNat * B.frac.toNat :=
  significandProduct_toNat A.frac B.frac

theorem operand_of_finite {x : Nat} (v : Voids c) (hx : x < 2 ^ c.N) (fx : Format.isFinite c x = true) :
    Safety.operand c v x = decodeCircuit (BitVec.ofNat c.N x) := decodePorts_of_finite v hx fx

section
variable {x y : Nat} (vA vB : Voids c) (hx : x < 2 ^ c.N) (hy : y < 2 ^ c.N)
  (fx : Format.isFinite c x = true) (fy : Format.isFinite c y = true)
include hx hy fx fy

theorem two_pow_le_mulSignals_P :
    2 ^ (c.PW - 2) ≤ (mulSignals (Safety.operand c vA x) (Safety.operand c vB y)).P.toNat := by
  rw [mulSignals_P_toNat, operand_of_finite vA hx fx, operand_of_finite vB hy fy, PW_sub_two, pow_add]
  exact Nat.mul_le_mul (two_pow_le_decodeCircuit_frac hx fx) (two_pow_le_decodeCircuit_frac hy fy)

/-- The product is the exact product of the two significands, in units of its lowest bit. -/
theorem mulSignals_P_eq_significands :
    ((mulSignals (Safety.operand c vA x) (Safety.operand c vB y)).P.toNat : ℚ) =
      Format.significand c x * Format.significand c y * 2 ^ (c.PW - 2) := by
  rw [mulSignals_P_toNat, operand_of_finite vA hx fx, operand_of_finite vB hy fy, Nat.cast_mul,
    decodeCircuit_frac_eq_significand hx fx, decodeCircuit_frac_eq_significand hy fy, PW_sub_two, pow_add]
  ring

theorem mulSignals_ovf_iff :
    (mulSignals (Safety.operand c vA x) (Safety.operand c vB y)).ovf = true ↔
      2 ≤ Format.significand c x * Format.significand c y := by
  have hunit : (0 : ℚ) < 2 ^ (c.PW - 2) := by positivity
  rw [← mul_le_mul_iff_left₀ hunit, ← mulSignals_P_eq_significands vA vB hx hy fx fy]
  exact product_msb_iff.trans (by exact_mod_cast Iff.rfl)

end

/-- With FW = 1 the Frac ports hold nothing but their markers, so a product that is not 0 is 1. -/
theorem mulSignals_P_of_FW_eq_one {A B : DecodedPorts c} (hFW : c.FW = 1) (hP : 1 ≤ (mulSignals A B).P.toNat) :
    (mulSignals A B).P.toNat = 1 := by
  have htwo : 2 ^ c.FW = 2 := by rw [hFW, pow_one]
  have hA : A.frac.toNat < 2 := A.frac.isLt.trans_eq htwo
  have hB : B.frac.toNat < 2 := B.frac.isLt.trans_eq htwo
  refine Nat.le_antisymm ?_ hP
  calc (mulSignals A B).P.toNat = A.frac.toNat * B.frac.toNat := mulSignals_P_toNat A B
    _ ≤ 1 * 1 := Nat.mul_le_mul (Nat.le_of_lt_succ hA) (Nat.le_of_lt_succ hB)

/-- Settles O25: FR is the product less its leading one; with FW = 1 both significands are their markers. -/
theorem normaliserDropsNoBit : Obligations.NormaliserDropsNoBit := by
  intro c vA vB x y hx hy fx fy g
  have hunit : (0 : ℚ) < 2 ^ (c.PW - 2) := by positivity
  have hovf := mulSignals_ovf_iff vA vB hx hy fx fy
  have hP := mulSignals_P_eq_significands vA vB hx hy fx fy
  have hleading := two_pow_le_mulSignals_P vA vB hx hy fx fy
  have hFR : 2 ^ c.FRW + g.FR.toNat = if g.ovf then g.P.toNat else 2 * g.P.toNat :=
    hidden_one_add_normalisedFraction hleading
  refine ⟨?_, hovf, hFR, fun hFW => ?_⟩
  · rw [hP, mul_div_cancel_right₀ _ hunit.ne']
    exact hovf
  · have hPW : c.PW - 2 = 0 := by rw [PW_sub_two, hFW]
    have hFRW : 2 ^ c.FRW = 2 := by rw [FRW_eq, hPW, zero_add, pow_one]
    rw [hPW, pow_zero] at hleading
    have hone : g.P.toNat = 1 := mulSignals_P_of_FW_eq_one hFW hleading
    have hno : g.ovf = false := Bool.eq_false_iff.mpr fun hmsb => by
      have htwo : 2 * 2 ^ (c.PW - 2) ≤ g.P.toNat := product_msb_iff.mp hmsb
      rw [hPW] at htwo
      omega
    rw [hFRW, hno, hone, if_neg Bool.false_ne_true] at hFR
    exact ⟨hone, hno, by omega⟩

end Sys2Proof.Machine
end

section
/-! The combined scale factors and their sum read on integers (41_multiplier.md R70, R73). -/

namespace Sys2Proof

theorem Format.exponent_lt (c : Cfg) (y : Nat) : exponent c y < 2 ^ c.es := by
  have hes := c.es_add_two_le_N
  have hwidth : c.N - 1 = c.es + (c.N - 1 - c.es) := by omega
  rw [exponent_eq_shift, Nat.div_lt_iff_lt_mul (Nat.two_pow_pos _), ← pow_add, ← hwidth]
  exact Nat.mod_lt _ (Nat.two_pow_pos _)

namespace Machine

variable {c : Cfg}

theorem scaleFactorOf_toInt (d : DecodedPorts c) :
    (scaleFactorOf d).toInt = 2 ^ c.es * d.reg.toInt + (d.exp.toNat % 2 ^ c.es : Nat) := by
  have hKW : ¬((c.KW == 0) = true) := by simp
  rw [scaleFactorOf, BitVec.toInt_append, if_neg hKW, BitVec.extractLsb'_toNat, Nat.shiftRight_zero]

/-- The combined ports are the format's scale factor `k * 2^es + e`. -/
theorem scaleFactorOf_decodeCircuit {x : Nat} (h : x < 2 ^ c.N) :
    (scaleFactorOf (decodeCircuit (BitVec.ofNat c.N x))).toInt = Format.scaleFactor c x := by
  rw [scaleFactorOf_toInt, decodeCircuit_reg_ofNat h, decodeCircuit_exp_ofNat h,
    Nat.mod_eq_of_lt (Format.exponent_lt c _), mul_comm]
  rfl

theorem carryIn_toInt (c : Cfg) (b : Bool) :
    ((BitVec.ofBool b).setWidth c.SSW).toInt = if b then 1 else 0 := by
  have hSSW : 2 ≤ c.SSW := by
    show 2 ≤ c.RFW + 1 + c.es + 1
    omega
  have hwidth : 2 ^ 2 ≤ 2 ^ c.SSW := Nat.pow_le_pow_right Nat.two_pos hSSW
  cases b with
  | false => simp
  | true =>
    have hone : ((BitVec.ofBool true).setWidth c.SSW).toNat = 1 := by
      rw [BitVec.toNat_setWidth_of_le (by omega)]
      rfl
    rw [BitVec.toInt_eq_toNat_of_lt (by omega), hone, if_pos rfl, Nat.cast_one]

/-- One bit of growth holds the sum of any two scale factors and the carry, so the adder never wraps. -/
theorem scaleFactorSum_toInt (sfA sfB : BitVec c.SFW) (ovf : Bool) :
    (scaleFactorSum sfA sfB ovf).toInt = sfA.toInt + sfB.toInt + (if ovf then 1 else 0) := by
  have hgrow : c.SFW ≤ c.SSW := Nat.le_succ c.SFW
  have hpow : ((2 ^ c.SSW : Nat) : Int) = 4 * 2 ^ (c.SFW - 1) := by
    have hw : c.SSW = c.SFW - 1 + 2 := by
      show c.RFW + 1 + c.es + 1 = c.RFW + 1 + c.es - 1 + 2
      omega
    rw [hw]
    push_cast
    ring
  have hA := sfA.le_toInt
  have hA' := sfA.toInt_lt
  have hB := sfB.le_toInt
  have hB' := sfB.toInt_lt
  rw [scaleFactorSum, BitVec.toInt_add, BitVec.toInt_add, BitVec.toInt_signExtend_of_le hgrow,
    BitVec.toInt_signExtend_of_le hgrow, carryIn_toInt, Int.bmod_add_bmod]
  refine Int.bmod_eq_of_le ?_ ?_
  · rw [hpow]
    split <;> omega
  · rw [hpow]
    split <;> omega

/-- The sum of the multiplier's two scale factors is exact, whatever the decoded operands. -/
theorem mulSignals_SS_toInt (A B : DecodedPorts c) :
    (mulSignals A B).SS.toInt =
      (scaleFactorOf A).toInt + (scaleFactorOf B).toInt + (if (mulSignals A B).ovf then 1 else 0) :=
  scaleFactorSum_toInt _ _ _

end Machine

end Sys2Proof
end

section
/-! Saturation: the two comparisons of the result regime, and the answer they force (41_multiplier.md R75, R78, R79). -/

namespace Sys2Proof.Machine

variable {c : Cfg}

theorem mulSignals_satHi_iff (A B : DecodedPorts c) :
    (mulSignals A B).satHi = true ↔ (mulSignals A B).K.toInt > (c.N : Int) - 2 := decide_eq_true_iff

theorem mulSignals_satLo_iff (A B : DecodedPorts c) :
    (mulSignals A B).satLo = true ↔ (mulSignals A B).K.toInt < -((c.N : Int) - 2) := decide_eq_true_iff

/-- The range of the regime is not empty, so it is left on one side at most. -/
theorem not_satHi_and_satLo (A B : DecodedPorts c) :
    ¬((mulSignals A B).satHi = true ∧ (mulSignals A B).satLo = true) := by
  have hN := c.two_le_N
  rw [mulSignals_satHi_iff, mulSignals_satLo_iff]
  omega

theorem mulSignals_mag_of_satHi {A B : DecodedPorts c} (h : (mulSignals A B).satHi = true) :
    (mulSignals A B).mag = BitVec.allOnes (c.N - 1) := if_pos h

theorem mulSignals_mag_of_satLo {A B : DecodedPorts c} (h : (mulSignals A B).satLo = true) :
    (mulSignals A B).mag = 1#(c.N - 1) :=
  (if_neg fun hHi => not_satHi_and_satLo A B ⟨hHi, h⟩).trans (if_pos h)

/-- Sign application is the format's negation of the magnitude. -/
theorem applySign_toNat (s : Bool) (mag : BitVec (c.N - 1)) :
    (applySign s mag).toNat = Reference.withSign c s mag.toNat := by
  have hwide : (mag.setWidth c.N).toNat = mag.toNat :=
    BitVec.toNat_setWidth_of_le (Nat.sub_le _ _)
  unfold applySign Reference.withSign
  split
  · rw [BitVec.toNat_neg, hwide, Format.neg]
  · exact hwide

theorem bitsOf_applySign (s : Bool) (mag : BitVec (c.N - 1)) :
    Bits.of (applySign s mag) = Safety.patternBits c (Reference.withSign c s mag.toNat) := by
  rw [Safety.patternBits, ← applySign_toNat, BitVec.ofNat_toNat, BitVec.setWidth_eq]

theorem mulSignals_s_operand (vA vB : Voids c) (x y : Nat) :
    (mulSignals (Safety.operand c vA x) (Safety.operand c vB y)).s = (Format.signBit c x ^^ Format.signBit c y) := by
  simp [mulSignals, Safety.operand, msb_ofNat]

/-- The result regime of finite operands is that of the exact scale factor of the product (R73, R74). -/
theorem mulSignals_K_of_finite {x y : Nat} (vA vB : Voids c) (hx : x < 2 ^ c.N) (hy : y < 2 ^ c.N)
    (fx : Format.isFinite c x = true) (fy : Format.isFinite c y = true) :
    (mulSignals (Safety.operand c vA x) (Safety.operand c vB y)).K.toInt =
      (Format.scaleFactor c x + Format.scaleFactor c y +
        (if 2 ≤ Format.significand c x * Format.significand c y then 1 else 0)) / 2 ^ c.es := by
  have hovf := mulSignals_ovf_iff vA vB hx hy fx fy
  have hA : (scaleFactorOf (Safety.operand c vA x)).toInt = Format.scaleFactor c x := by
    rw [operand_of_finite vA hx fx, scaleFactorOf_decodeCircuit hx]
  have hB : (scaleFactorOf (Safety.operand c vB y)).toInt = Format.scaleFactor c y := by
    rw [operand_of_finite vB hy fy, scaleFactorOf_decodeCircuit hy]
  rw [mulSignals_K_toInt, mulSignals_SS_toInt, hA, hB]
  simp only [hovf]

/-- The product port of finite operands is the rounded magnitude with the product's sign (R79). -/
theorem evaluateMultiplier_mul_r_of_finite {s : State} {x y : Nat} (vA vB : Voids s.cfg) (hx : x < 2 ^ s.cfg.N)
    (hy : y < 2 ^ s.cfg.N) (fx : Format.isFinite s.cfg x = true) (fy : Format.isFinite s.cfg y = true) :
    (evaluateMultiplier s (BitVec.ofNat s.cfg.N x) (BitVec.ofNat s.cfg.N y)).mul.r =
      Safety.patternBits s.cfg (Reference.withSign s.cfg (Format.signBit s.cfg x ^^ Format.signBit s.cfg y)
        (mulSignals (Safety.operand s.cfg vA x) (Safety.operand s.cfg vB y)).mag.toNat) := by
  rw [evaluateMultiplier_mul_r, mulPattern_of_finite _ _ hx hy fx fy, ← operand_of_finite vA hx fx,
    ← operand_of_finite vB hy fy, ← mulSignals_s_operand vA vB, ← bitsOf_applySign]
  rfl

theorem toNat_one_body (c : Cfg) : (1#(c.N - 1)).toNat = Format.minpos := by
  have hN := c.two_le_N
  have hpos : c.N - 1 ≠ 0 := by omega
  rw [BitVec.toNat_ofNat, Nat.mod_eq_of_lt (Nat.one_lt_two_pow hpos), Format.minpos]

/-- Settles O26: K is the result regime, so its bounds are the two comparisons, and each forces the magnitude. -/
theorem outOfRangeRegimeSaturates : Obligations.OutOfRangeRegimeSaturates := by
  intro s x y hx hy fx fy carry K sign
  have hK (vA vB : Voids s.cfg) : (mulSignals (Safety.operand s.cfg vA x) (Safety.operand s.cfg vB y)).K.toInt = K :=
    mulSignals_K_of_finite vA vB hx hy fx fy
  have hHi (vA vB : Voids s.cfg) :
      (mulSignals (Safety.operand s.cfg vA x) (Safety.operand s.cfg vB y)).satHi = true ↔ K > (s.cfg.N : Int) - 2 := by
    rw [mulSignals_satHi_iff, hK]
  have hLo (vA vB : Voids s.cfg) :
      (mulSignals (Safety.operand s.cfg vA x) (Safety.operand s.cfg vB y)).satLo = true ↔
        K < -((s.cfg.N : Int) - 2) := by
    rw [mulSignals_satLo_iff, hK]
  have v := drawVoids s.cfg s.draws
  have hport := evaluateMultiplier_mul_r_of_finite v v hx hy fx fy
  refine ⟨_, exec_mul_of_lt hx hy, fun vA vB => ⟨hHi vA vB, hLo vA vB, not_satHi_and_satLo _ _⟩,
    fun h => hport.trans ?_, fun h => hport.trans ?_⟩
  · rw [mulSignals_mag_of_satHi ((hHi v v).mpr h), BitVec.toNat_allOnes]
    rfl
  · rw [mulSignals_mag_of_satLo ((hLo v v).mpr h), toNat_one_body]

end Sys2Proof.Machine
end

section
/-! Rounding to nearest even (41_multiplier.md R76 to R78): among the kept bits and the guard bit one is 0, the regime's
first or its terminator, so the increment never carries out. -/

namespace Sys2Proof.Machine

variable {c : Cfg}

/-- The packed string begins with the last bit of the run and the terminator. -/
theorem packed_getMsbD_zero (pos : Bool) (E : BitVec c.es) (FR : BitVec c.FRW) : (packed pos E FR).getMsbD 0 = pos := by
  rw [packed, BitVec.getMsbD_append, if_neg (by omega), BitVec.getMsbD_append, if_neg (by omega)]
  cases pos <;> rfl

theorem packed_getMsbD_one (pos : Bool) (E : BitVec c.es) (FR : BitVec c.FRW) : (packed pos E FR).getMsbD 1 = !pos := by
  rw [packed, BitVec.getMsbD_append, if_neg (by omega), BitVec.getMsbD_append, if_neg (by omega)]
  cases pos <;> rfl

theorem rep_getMsbD (w : Nat) (b : Bool) (i : Nat) : (rep w b).getMsbD i = (decide (i < w) && b) := by
  cases b <;> simp [rep]

/-- Counted from the top, the shifter's output is `sh` fill bits and then the packed string. -/
theorem shifted_getMsbD (pos : Bool) (sh : Nat) (PK : BitVec c.PKW) {j : Nat} (hj : j < c.WX) :
    (shifted pos sh PK).getMsbD j = if j < sh then pos else PK.getMsbD (j - sh) := by
  have hWX : c.WX = c.PKW + (c.N - 2) := Nat.add_comm _ _
  have htop : (shifted pos sh PK).getMsbD j = (rep sh pos ++ (PK ++ 0#(c.N - 2))).getMsbD j := by
    have hroom : sh + c.WX - j ≤ sh + (c.PKW + (c.N - 2)) := by omega
    have hindex : sh + (c.PKW + (c.N - 2)) - (sh + c.WX - j) = j := by omega
    rw [shifted, BitVec.getMsbD_extractLsb', decide_eq_true hj, decide_eq_true hroom, hindex,
      Bool.true_and, Bool.true_and]
  rw [htop, BitVec.getMsbD_append, BitVec.getMsbD_append]
  split
  · next hge =>
    rw [if_neg (Nat.not_lt.mpr hge)]
    split
    · next hpast => rw [BitVec.getMsbD_zero, BitVec.getMsbD_of_ge _ _ hpast]
    · rfl
  · next hlt =>
    have hfill : j < sh := Nat.lt_of_not_le hlt
    rw [if_pos hfill, rep_getMsbD, decide_eq_true hfill, Bool.true_and]

theorem N_lt_WX (c : Cfg) : c.N < c.WX := by
  have hN := c.two_le_N
  show c.N < c.N - 2 + (2 + c.es + (2 * max c.F 1 - 1))
  omega

section
variable (A B : DecodedPorts c)

theorem mulSignals_SH_getMsbD {j : Nat} (hj : j < c.WX) :
    (mulSignals A B).SH.getMsbD j =
      if j < (mulSignals A B).sh then (mulSignals A B).pos else (mulSignals A B).PK.getMsbD (j - (mulSignals A B).sh) :=
  shifted_getMsbD _ _ _ hj

/-- Without saturation upwards a 0 stands among the first N bits of the shifted string: the terminator of a run of at most
N - 1 ones, or the first of a run of zeros. -/
theorem exists_false_of_not_satHi (h : (mulSignals A B).satHi = false) :
    ∃ j < c.N, (mulSignals A B).SH.getMsbD j = false := by
  have hN := c.two_le_N
  have hWX := N_lt_WX c
  cases hpos : (mulSignals A B).pos with
  | true =>
    have hmsb : (mulSignals A B).K.msb = false := Bool.not_eq_eq_eq_not.mp hpos
    have hsh : (mulSignals A B).sh = (mulSignals A B).K.toNat := if_pos hpos
    have hK : (mulSignals A B).K.toInt = (mulSignals A B).K.toNat := BitVec.toInt_eq_toNat_of_msb hmsb
    have hle : (mulSignals A B).K.toInt ≤ (c.N : Int) - 2 := by
      by_contra hgt
      exact absurd ((mulSignals_satHi_iff A B).mpr (not_le.mp hgt)) (Bool.eq_false_iff.mp h)
    have hj : (mulSignals A B).sh + 1 < c.N := by omega
    refine ⟨_, hj, ?_⟩
    rw [mulSignals_SH_getMsbD A B (hj.trans hWX), if_neg (by omega), Nat.add_sub_cancel_left]
    exact (packed_getMsbD_one _ _ _).trans (congrArg _ hpos)
  | false =>
    refine ⟨0, by omega, ?_⟩
    rw [mulSignals_SH_getMsbD A B (by omega)]
    split
    · exact hpos
    · rw [Nat.zero_sub]
      exact (packed_getMsbD_zero _ _ _).trans hpos

/-- The first N bits of the shifted string are the kept bits and the guard bit. -/
theorem mulSignals_trunc_getMsbD {j : Nat} (hj : j < c.N - 1) :
    (mulSignals A B).trunc.getMsbD j = (mulSignals A B).SH.getMsbD j := by
  have hWX := N_lt_WX c
  have hroom : c.WX - c.N + 1 + (c.N - 1) - j ≤ c.WX := by omega
  have hindex : c.WX - (c.WX - c.N + 1 + (c.N - 1) - j) = j := by omega
  have htrunc : (mulSignals A B).trunc = (mulSignals A B).SH.extractLsb' (c.WX - c.N + 1) (c.N - 1) := rfl
  rw [htrunc, BitVec.getMsbD_extractLsb', decide_eq_true hj, decide_eq_true hroom, hindex,
      Bool.true_and, Bool.true_and]

theorem mulSignals_G_eq_getMsbD : (mulSignals A B).G = (mulSignals A B).SH.getMsbD (c.N - 1) := by
  have hN := c.two_le_N
  have hWX := N_lt_WX c
  have hindex : c.WX - 1 - (c.N - 1) = c.WX - c.N := by omega
  rw [BitVec.getMsbD_eq_getLsbD, decide_eq_true (by omega), hindex]
  rfl

/-- The increment has room: kept bits that are all 1 are followed by a guard bit 0. -/
theorem trunc_ne_allOnes_of_rnd (h : (mulSignals A B).satHi = false) (hrnd : (mulSignals A B).rnd = true) :
    (mulSignals A B).trunc ≠ BitVec.allOnes (c.N - 1) := by
  intro hall
  obtain ⟨j, hj, hzero⟩ := exists_false_of_not_satHi A B h
  have hG : (mulSignals A B).G = true := (Bool.and_eq_true_iff.mp hrnd).1
  obtain hkept | hguard : j < c.N - 1 ∨ j = c.N - 1 := by omega
  · rw [← mulSignals_trunc_getMsbD A B hkept, hall, BitVec.getMsbD_allOnes, decide_eq_true hkept] at hzero
    exact Bool.noConfusion hzero
  · rw [hguard, ← mulSignals_G_eq_getMsbD, hG] at hzero
    exact Bool.noConfusion hzero

theorem mulSignals_mag_of_not_sat (hHi : (mulSignals A B).satHi = false) (hLo : (mulSignals A B).satLo = false) :
    (mulSignals A B).mag = (mulSignals A B).trunc + (BitVec.ofBool (mulSignals A B).rnd).setWidth (c.N - 1) :=
  (if_neg (Bool.eq_false_iff.mp hHi)).trans (if_neg (Bool.eq_false_iff.mp hLo))

theorem mulSignals_mag_toNat_of_not_sat (hHi : (mulSignals A B).satHi = false) (hLo : (mulSignals A B).satLo = false) :
    (mulSignals A B).mag.toNat = (mulSignals A B).trunc.toNat + (if (mulSignals A B).rnd then 1 else 0) := by
  have hroom : (mulSignals A B).trunc.toNat + (mulSignals A B).rnd.toNat < 2 ^ (c.N - 1) := by
    have hlt := (mulSignals A B).trunc.isLt
    cases hrnd : (mulSignals A B).rnd with
    | false => exact hlt
    | true =>
      have hne := trunc_ne_allOnes_of_rnd A B hHi hrnd
      rw [Ne, BitVec.toNat_eq, BitVec.toNat_allOnes] at hne
      simp only [Bool.toNat_true]
      omega
  rw [mulSignals_mag_of_not_sat A B hHi hLo, BitVec.toNat_add, BitVec.toNat_setWidth, BitVec.toNat_ofBool,
    Nat.add_mod_mod, Nat.mod_eq_of_lt hroom]
  cases (mulSignals A B).rnd <;> rfl

end

/-- Settles O28: the formula is the model's; saturation fixes the magnitude, and else the increment has room. None of it
needs the operands to be finite. -/
theorem roundingNeverCarriesOut : Obligations.RoundingNeverCarriesOut := by
  intro c vA vB x y _ _ _ _ g
  refine ⟨rfl, mulSignals_mag_of_satHi, fun hLo => ?_, mulSignals_mag_toNat_of_not_sat _ _⟩
  rw [show g.mag = 1#(c.N - 1) from mulSignals_mag_of_satLo hLo, toNat_one_body]
  rfl

end Sys2Proof.Machine
end

section
/-! The run length in closed form, and with it a magnitude view taken apart into its run, its exponent and its fraction
and put together again (30_encoding.md R41, R43, R44). -/

namespace Sys2Proof.Format

/-- Leading zeros are what the binary digits of the number leave of the width. -/
theorem runLength_false_eq {x : Nat} : ∀ {n : Nat}, x < 2 ^ n → runLength false x n = n - x.size
  | 0, _ => (Nat.zero_sub _).symm
  | n + 1, h => by
    unfold runLength
    by_cases hx : x < 2 ^ n
    · have hsize := Nat.size_le.mpr hx
      rw [if_pos (Nat.testBit_lt_two_pow hx), runLength_false_eq hx]
      omega
    · have hsize : n < x.size := Nat.lt_size.mpr (Nat.le_of_not_lt hx)
      rw [Nat.testBit_of_two_pow_le_and_two_pow_add_one_gt (Nat.le_of_not_lt hx) h, if_neg (by decide)]
      omega

/-- A run of ones is a run of zeros of the complement. -/
theorem runLength_true_eq_complement {w x : Nat} (h : x < 2 ^ w) :
    ∀ {n : Nat}, n ≤ w → runLength true x n = runLength false (2 ^ w - (x + 1)) n
  | 0, _ => rfl
  | n + 1, hn => by
    unfold runLength
    rw [Nat.testBit_two_pow_sub_succ h, decide_eq_true (Nat.lt_of_succ_le hn),
      runLength_true_eq_complement h (Nat.le_of_succ_le hn)]
    simp

theorem runLength_true_eq {x n : Nat} (h : x < 2 ^ n) : runLength true x n = n - (2 ^ n - (x + 1)).size := by
  rw [runLength_true_eq_complement h le_rfl, runLength_false_eq (by omega)]

theorem size_eq_succ {z k : Nat} (hlo : 2 ^ k ≤ z) (hhi : z < 2 ^ (k + 1)) : z.size = k + 1 :=
  le_antisymm (Nat.size_le.mpr hhi) (Nat.lt_size.mpr hlo)

variable {c : Cfg} {y m e f : Nat} {rc : Bool}

/-- The run and its terminator, with nothing below them. -/
def runPart (c : Cfg) (rc : Bool) (m : Nat) : Nat := assemble c rc m 0 0

/-- The bits below the regime field: the present exponent bits, then the fraction bits. -/
def tailPart (c : Cfg) (m e f : Nat) : Nat := e / 2 ^ absentExponentBits c m * 2 ^ fractionBits c m + f

theorem assemble_eq (c : Cfg) (rc : Bool) (m e f : Nat) : assemble c rc m e f = runPart c rc m + tailPart c m e f := by
  simp [runPart, tailPart, assemble, Nat.add_assoc]

/-- The longest run of a class: ones may fill the body, zeros leave room for their terminator (R41). -/
def runFits (c : Cfg) (rc : Bool) (m : Nat) : Prop := 1 ≤ m ∧ m ≤ if rc then c.N - 1 else c.N - 2

theorem runPart_zeros (hm : runFits c false m) : runPart c false m = 2 ^ tailBits c m := by
  obtain ⟨hm₁, hm₂⟩ := hm
  have hlt : m < c.N - 1 := by
    simp at hm₂
    omega
  simp [runPart, assemble, tailBits, hlt]

theorem runPart_ones (c : Cfg) (m : Nat) : runPart c true m = (2 ^ m - 1) * 2 ^ (c.N - 1 - m) := by
  simp [runPart, assemble]

/-- A run of ones that stops short of the body lacks twice its tail's room to the full width. -/
theorem runPart_ones_add (hm : m < c.N - 1) :
    runPart c true m + 2 * 2 ^ tailBits c m = 2 ^ (c.N - 1) := by
  have hwidth : c.N - 1 - m = tailBits c m + 1 := by
    unfold tailBits
    omega
  have hpow : 2 ^ (c.N - 1) = 2 ^ m * (2 * 2 ^ tailBits c m) := by
    rw [← pow_succ', ← pow_add]
    congr 1
    omega
  rw [runPart_ones, hwidth, pow_succ', hpow, Nat.sub_mul, Nat.one_mul]
  exact Nat.sub_add_cancel (Nat.le_mul_of_pos_left _ (Nat.two_pow_pos m))

theorem runPart_ones_full (c : Cfg) : runPart c true (c.N - 1) = 2 ^ (c.N - 1) - 1 := by
  rw [runPart_ones, Nat.sub_self, pow_zero, Nat.mul_one]

theorem tailBits_full (c : Cfg) : tailBits c (c.N - 1) = 0 := by
  unfold tailBits
  omega

theorem regimeCheck_eq_decide (h : y < 2 ^ (c.N - 1)) : regimeCheck c y = decide (2 ^ (c.N - 2) ≤ y) := by
  rw [c.N_sub_one] at h
  by_cases hy : 2 ^ (c.N - 2) ≤ y
  · rw [decide_eq_true hy]
    exact Nat.testBit_of_two_pow_le_and_two_pow_add_one_gt hy h
  · rw [decide_eq_false hy]
    exact Nat.testBit_lt_two_pow (Nat.lt_of_not_le hy)

theorem regimeRun_of_zeros (h : y < 2 ^ (c.N - 1)) (hrc : regimeCheck c y = false) :
    regimeRun c y = c.N - 1 - y.size := by
  rw [regimeRun, hrc, runLength_false_eq h]

theorem regimeRun_of_ones (h : y < 2 ^ (c.N - 1)) (hrc : regimeCheck c y = true) :
    regimeRun c y = c.N - 1 - (2 ^ (c.N - 1) - (y + 1)).size := by
  rw [regimeRun, hrc, runLength_true_eq h]

/-- The run of a view that is not 0 is one its class allows. -/
theorem runFits_of_ne_zero (h : y < 2 ^ (c.N - 1)) (hne : y ≠ 0) : runFits c (regimeCheck c y) (regimeRun c y) := by
  refine ⟨regimeRun_pos c y, ?_⟩
  cases hrc : regimeCheck c y with
  | true => exact regimeRun_le c y
  | false => exact regimeRun_le_of_regimeCheck_false h hne hrc

section
variable (h : y < 2 ^ (c.N - 1)) (hne : y ≠ 0)
include h hne

theorem runPart_bounds_of_zeros (hrc : regimeCheck c y = false) :
    runPart c false (regimeRun c y) ≤ y ∧ y < runPart c false (regimeRun c y) + 2 ^ tailBits c (regimeRun c y) := by
  have hfits := runFits_of_ne_zero h hne
  rw [hrc] at hfits
  have hrun := regimeRun_of_zeros h hrc
  have hle := regimeRun_le_of_regimeCheck_false h hne hrc
  have hpos := Nat.size_pos.mpr (Nat.pos_of_ne_zero hne)
  have hsize := Nat.size_le.mpr h
  have htail : y.size = tailBits c (regimeRun c y) + 1 := by
    unfold tailBits
    omega
  have hlo : 2 ^ tailBits c (regimeRun c y) ≤ y := Nat.lt_size.mp (by omega)
  have hhi : y < 2 ^ (tailBits c (regimeRun c y) + 1) := Nat.size_le.mp htail.le
  rw [pow_succ] at hhi
  rw [runPart_zeros hfits]
  omega

omit hne in
theorem runPart_bounds_of_ones (hrc : regimeCheck c y = true) :
    runPart c true (regimeRun c y) ≤ y ∧ y < runPart c true (regimeRun c y) + 2 ^ tailBits c (regimeRun c y) := by
  have hrun := regimeRun_of_ones h hrc
  have hle := regimeRun_le c y
  have hpos := regimeRun_pos c y
  have hwidth : (2 ^ (c.N - 1) - (y + 1)).size ≤ c.N - 1 := Nat.size_le.mpr (by omega)
  obtain hfull | hlt : regimeRun c y = c.N - 1 ∨ regimeRun c y < c.N - 1 := by omega
  · have hzero := Nat.size_eq_zero.mp (show (2 ^ (c.N - 1) - (y + 1)).size = 0 by omega)
    rw [hfull, runPart_ones_full, tailBits_full]
    omega
  · have htail : (2 ^ (c.N - 1) - (y + 1)).size = tailBits c (regimeRun c y) + 1 := by
      unfold tailBits
      omega
    have hlo : 2 ^ tailBits c (regimeRun c y) ≤ 2 ^ (c.N - 1) - (y + 1) := Nat.lt_size.mp (by omega)
    have hhi : 2 ^ (c.N - 1) - (y + 1) < 2 ^ (tailBits c (regimeRun c y) + 1) := Nat.size_le.mp htail.le
    rw [pow_succ] at hhi
    have hrunPart := runPart_ones_add hlt
    omega

/-- A view lies between its run followed by zeros and its run followed by as many ones. -/
theorem runPart_le_and_lt :
    runPart c (regimeCheck c y) (regimeRun c y) ≤ y ∧
      y < runPart c (regimeCheck c y) (regimeRun c y) + 2 ^ tailBits c (regimeRun c y) := by
  cases hrc : regimeCheck c y with
  | false => exact runPart_bounds_of_zeros h hne hrc
  | true => exact runPart_bounds_of_ones h hrc

end

theorem two_pow_tailBits_dvd_runPart (hm : runFits c rc m) : 2 ^ tailBits c m ∣ runPart c rc m := by
  cases rc with
  | false => rw [runPart_zeros hm]
  | true =>
    rw [runPart_ones]
    refine (Nat.pow_dvd_pow 2 ?_).mul_left _
    unfold tailBits
    omega

/-- What stands above the tail of a view is the run with its terminator. -/
theorem eq_runPart_add_tail (h : y < 2 ^ (c.N - 1)) (hne : y ≠ 0) :
    y = runPart c (regimeCheck c y) (regimeRun c y) + y % 2 ^ tailBits c (regimeRun c y) := by
  obtain ⟨hle, hlt⟩ := runPart_le_and_lt h hne
  obtain ⟨t, ht⟩ := Nat.exists_eq_add_of_le hle
  have hmod : y % 2 ^ tailBits c (regimeRun c y) = t := by
    obtain ⟨k, hk⟩ := two_pow_tailBits_dvd_runPart (runFits_of_ne_zero h hne)
    have htlt : t < 2 ^ tailBits c (regimeRun c y) := by omega
    calc y % 2 ^ tailBits c (regimeRun c y)
        = (2 ^ tailBits c (regimeRun c y) * k + t) % 2 ^ tailBits c (regimeRun c y) := by rw [← hk, ← ht]
      _ = t := by rw [Nat.mul_add_mod, Nat.mod_eq_of_lt htlt]
  rw [hmod]
  exact ht

section
variable {t : Nat} (hm : runFits c rc m) (ht : t < 2 ^ tailBits c m)
include hm ht

theorem runPart_add_lt : runPart c rc m + t < 2 ^ (c.N - 1) := by
  obtain ⟨hm₁, hm₂⟩ := id hm
  cases rc with
  | false =>
    simp only [Bool.false_eq_true, if_false] at hm₂
    have hwidth : 2 ^ (tailBits c m + 1) ≤ 2 ^ (c.N - 1) := by
      refine Nat.pow_le_pow_right Nat.two_pos ?_
      unfold tailBits
      omega
    rw [pow_succ] at hwidth
    rw [runPart_zeros hm]
    omega
  | true =>
    simp only [if_true] at hm₂
    have hpos := Nat.two_pow_pos (c.N - 1)
    obtain rfl | hlt : m = c.N - 1 ∨ m < c.N - 1 := by omega
    · rw [tailBits_full] at ht
      rw [runPart_ones_full]
      omega
    · have hrunPart := runPart_ones_add hlt
      omega

theorem regimeCheck_runPart_add : regimeCheck c (runPart c rc m + t) = rc := by
  obtain ⟨hm₁, hm₂⟩ := id hm
  have hhalf : 2 ^ (c.N - 1) = 2 * 2 ^ (c.N - 2) := by rw [c.N_sub_one, pow_succ']
  rw [regimeCheck_eq_decide (runPart_add_lt hm ht)]
  cases rc with
  | false =>
    simp only [Bool.false_eq_true, if_false] at hm₂
    have hwidth : 2 ^ (tailBits c m + 1) ≤ 2 ^ (c.N - 2) := by
      refine Nat.pow_le_pow_right Nat.two_pos ?_
      unfold tailBits
      omega
    rw [pow_succ] at hwidth
    rw [runPart_zeros hm]
    exact decide_eq_false (by omega)
  | true =>
    simp only [if_true] at hm₂
    refine decide_eq_true ?_
    obtain rfl | hlt : m = c.N - 1 ∨ m < c.N - 1 := by omega
    · rw [runPart_ones_full]
      omega
    · have hwidth : 2 * 2 ^ tailBits c m ≤ 2 ^ (c.N - 2) := by
        rw [← pow_succ']
        refine Nat.pow_le_pow_right Nat.two_pos ?_
        unfold tailBits
        omega
      have hrunPart := runPart_ones_add hlt
      omega

theorem regimeRun_runPart_add : regimeRun c (runPart c rc m + t) = m := by
  have hlt := runPart_add_lt hm ht
  have hcheck := regimeCheck_runPart_add hm ht
  obtain ⟨hm₁, hm₂⟩ := id hm
  cases rc with
  | false =>
    simp only [Bool.false_eq_true, if_false] at hm₂
    have hsize : (runPart c false m + t).size = tailBits c m + 1 := by
      rw [runPart_zeros hm]
      refine size_eq_succ (Nat.le_add_right _ _) ?_
      rw [pow_succ]
      omega
    rw [regimeRun_of_zeros hlt hcheck, hsize]
    unfold tailBits
    omega
  | true =>
    simp only [if_true] at hm₂
    rw [regimeRun_of_ones hlt hcheck]
    obtain rfl | hshort : m = c.N - 1 ∨ m < c.N - 1 := by omega
    · have hzero : 2 ^ (c.N - 1) - (runPart c true (c.N - 1) + t + 1) = 0 := by
        rw [runPart_ones_full]
        omega
      rw [hzero, Nat.size_zero, Nat.sub_zero]
    · have hrunPart := runPart_ones_add hshort
      have hsize : (2 ^ (c.N - 1) - (runPart c true m + t + 1)).size = tailBits c m + 1 := by
        refine size_eq_succ (by omega) ?_
        rw [pow_succ]
        omega
      rw [hsize]
      unfold tailBits
      omega

theorem runPart_add_mod : (runPart c rc m + t) % 2 ^ tailBits c m = t := by
  obtain ⟨k, hk⟩ := two_pow_tailBits_dvd_runPart hm
  rw [hk, Nat.mul_add_mod, Nat.mod_eq_of_lt ht]

end

theorem fractionBits_le_tailBits (c : Cfg) (m : Nat) : fractionBits c m ≤ tailBits c m := Nat.sub_le _ _

theorem mod_two_pow_fractionBits (c : Cfg) (y m : Nat) :
    y % 2 ^ tailBits c m % 2 ^ fractionBits c m = y % 2 ^ fractionBits c m :=
  Nat.mod_mod_of_dvd _ (Nat.pow_dvd_pow 2 (fractionBits_le_tailBits c m))

/-- The exponent and the fraction of a view are the two parts of its tail. -/
theorem tailPart_fields (c : Cfg) (y : Nat) :
    tailPart c (regimeRun c y) (exponent c y) (fraction c y) = y % 2 ^ tailBits c (regimeRun c y) := by
  rw [tailPart, exponent, fraction, Nat.mul_div_cancel _ (Nat.two_pow_pos _), ← mod_two_pow_fractionBits, mul_comm]
  exact Nat.div_add_mod _ _

/-- A view that is not 0 is put together from its own fields. -/
theorem assemble_fields (h : y < 2 ^ (c.N - 1)) (hne : y ≠ 0) :
    assemble c (regimeCheck c y) (regimeRun c y) (exponent c y) (fraction c y) = y := by
  rw [assemble_eq, tailPart_fields]
  exact (eq_runPart_add_tail h hne).symm

/-- The fields of a view fit the room that its run leaves. -/
theorem tailFits_fields (c : Cfg) (y : Nat) : tailFits c (regimeRun c y) (exponent c y) (fraction c y) = true := by
  have he := exponent_lt c y
  have hf := fraction_lt c y
  have habsent : exponent c y % 2 ^ absentExponentBits c (regimeRun c y) = 0 := Nat.mul_mod_left _ _
  simp [tailFits, he, hf, habsent]

theorem assemble_ne_zero (hm : runFits c rc m) (e f : Nat) : assemble c rc m e f ≠ 0 := by
  intro hzero
  have hpos : 0 < runPart c rc m := by
    cases rc with
    | false =>
      rw [runPart_zeros hm]
      exact Nat.two_pow_pos _
    | true =>
      rw [runPart_ones]
      exact Nat.mul_pos (Nat.sub_pos_of_lt (Nat.one_lt_two_pow (Nat.ne_of_gt hm.1))) (Nat.two_pow_pos _)
  rw [assemble_eq] at hzero
  omega

section
variable (hm : runFits c rc m) (ht : tailFits c m e f = true)
include hm ht

theorem assemble_lt : assemble c rc m e f < 2 ^ (c.N - 1) := by
  rw [assemble_eq]
  exact runPart_add_lt hm (Laws.tail_lt ht)

theorem regimeCheck_assemble : regimeCheck c (assemble c rc m e f) = rc := by
  rw [assemble_eq]
  exact regimeCheck_runPart_add hm (Laws.tail_lt ht)

theorem regimeRun_assemble : regimeRun c (assemble c rc m e f) = m := by
  rw [assemble_eq]
  exact regimeRun_runPart_add hm (Laws.tail_lt ht)

theorem assemble_mod_tail : assemble c rc m e f % 2 ^ tailBits c m = tailPart c m e f := by
  rw [assemble_eq]
  exact runPart_add_mod hm (Laws.tail_lt ht)

theorem fraction_assemble : fraction c (assemble c rc m e f) = f := by
  have hf : f < 2 ^ fractionBits c m := by
    simp only [tailFits, Bool.and_eq_true, decide_eq_true_iff] at ht
    exact ht.2
  rw [fraction, regimeRun_assemble hm ht, ← mod_two_pow_fractionBits, assemble_mod_tail hm ht, tailPart,
    Nat.mul_add_mod_self_right, Nat.mod_eq_of_lt hf]

theorem exponent_assemble : exponent c (assemble c rc m e f) = e := by
  have hmod := assemble_mod_tail hm ht
  simp only [tailFits, Bool.and_eq_true, decide_eq_true_iff, beq_iff_eq] at ht
  obtain ⟨⟨-, habsent⟩, hf⟩ := id ht
  have hdiv : tailPart c m e f / 2 ^ fractionBits c m = e / 2 ^ absentExponentBits c m := by
    rw [tailPart, Nat.mul_comm, Nat.mul_add_div (Nat.two_pow_pos _), Nat.div_eq_of_lt hf, Nat.add_zero]
  rw [exponent, regimeRun_assemble hm (by simp [tailFits, ht]), hmod, hdiv]
  exact Nat.div_mul_cancel (Nat.dvd_of_mod_eq_zero habsent)

end

end Sys2Proof.Format
end

section
/-! The fraction port with its marker, and the value that the decoded fields of a finite pattern stand for
(40_decoder.md R60, R63). -/

namespace Sys2Proof.Format

variable {c : Cfg} {x : Nat}

theorem significand_eq (c : Cfg) (x : Nat) :
    significand c x = 1 + (fraction c (magnitude c x) : ℚ) / 2 ^ fractionBits c (regimeRun c (magnitude c x)) := rfl

theorem one_le_significand (c : Cfg) (x : Nat) : 1 ≤ significand c x := by
  rw [significand_eq]
  exact le_add_of_nonneg_right (by positivity)

theorem significand_lt_two (c : Cfg) (x : Nat) : significand c x < 2 := by
  have hlt : (fraction c (magnitude c x) : ℚ) < 2 ^ fractionBits c (regimeRun c (magnitude c x)) := by
    exact_mod_cast fraction_lt c (magnitude c x)
  have hf := (div_lt_one (by positivity)).mpr hlt
  rw [significand_eq]
  linarith

theorem isFinite_iff : isFinite c x = true ↔ x ≠ zeroPattern ∧ x ≠ narPattern c := by
  simp [isFinite]

/-- The value of a finite pattern as sign, power of two and significand (R45). -/
theorem value_of_finite (hf : isFinite c x = true) :
    value c x = some ((-1) ^ (if signBit c x then 1 else 0) * (2 : ℚ) ^ scaleFactor c x * significand c x) := by
  obtain ⟨hz, hn⟩ := isFinite_iff.mp hf
  rw [value, if_neg hn, if_neg hz]

end Sys2Proof.Format

namespace Sys2Proof.Machine

variable {c : Cfg} {x : Nat}

theorem nonzeroBody_eq_isFinite (h : x < 2 ^ c.N) :
    nonzeroBody (c := c) (BitVec.ofNat c.N x) = Format.isFinite c x := by
  rw [Bool.eq_iff_iff, nonzeroBody_ofNat h, decide_eq_true_iff, Format.isFinite_iff_body_ne_zero h]

/-- Settles O8: the marker is the detector's `nz`, and on finite patterns the port is the circuit's. -/
theorem decodeReportsTheFraction : Obligations.DecodeReportsTheFraction := by
  intro s x hx y nf
  refine ⟨_, exec_decode_of_lt hx, ?_, fun hf => ⟨Format.fractionBits_le_FW s.cfg y, ?_⟩⟩
  · rw [evaluateDecoder_marker, nonzeroBody_eq_isFinite hx]
  · rw [evaluateDecoder_dec_of_finite hx hf]
    exact decodeCircuit_frac_ofNat hx hf

section
variable {s : State} {x : Nat} (h : x < 2 ^ s.cfg.N) (hf : Format.isFinite s.cfg x = true)
include h hf

theorem evaluateDecoder_regSign :
    (evaluateDecoder s (BitVec.ofNat s.cfg.N x)).dec.regSign = Format.regimeCheck s.cfg (Format.magnitude s.cfg x) := by
  rw [evaluateDecoder_dec_of_finite h hf]
  exact decodeCircuit_regSign_ofNat h

theorem evaluateDecoder_regMag :
    (evaluateDecoder s (BitVec.ofNat s.cfg.N x)).dec.regMag.uint =
      Format.regimeRun s.cfg (Format.magnitude s.cfg x) - 1 := by
  rw [evaluateDecoder_dec_of_finite h hf]
  exact decodeCircuit_regMag_ofNat h

theorem evaluateDecoder_reg :
    (evaluateDecoder s (BitVec.ofNat s.cfg.N x)).dec.reg.sint = Format.regime s.cfg (Format.magnitude s.cfg x) := by
  rw [evaluateDecoder_dec_of_finite h hf]
  exact decodeCircuit_reg_ofNat h

theorem evaluateDecoder_exp :
    (evaluateDecoder s (BitVec.ofNat s.cfg.N x)).dec.exp.uint = Format.exponent s.cfg (Format.magnitude s.cfg x) := by
  rw [evaluateDecoder_dec_of_finite h hf]
  exact decodeCircuit_exp_ofNat h

/-- With es = 0 the placeholder is left out, and the exponent of the format has no bits either. -/
theorem exponentValue_evaluateDecoder :
    Safety.exponentValue s.cfg (evaluateDecoder s (BitVec.ofNat s.cfg.N x)).dec =
      Format.exponent s.cfg (Format.magnitude s.cfg x) := by
  have hlt := Format.exponent_lt s.cfg (Format.magnitude s.cfg x)
  unfold Safety.exponentValue
  split
  · exact evaluateDecoder_exp h hf
  · next hes =>
    rw [Nat.eq_zero_of_not_pos hes, pow_zero] at hlt
    omega

theorem evaluateDecoder_frac :
    (evaluateDecoder s (BitVec.ofNat s.cfg.N x)).dec.frac.uint =
      2 ^ (s.cfg.FW - 1) + Format.fraction s.cfg (Format.magnitude s.cfg x) *
        2 ^ (s.cfg.FW - 1 - Format.fractionBits s.cfg (Format.regimeRun s.cfg (Format.magnitude s.cfg x))) := by
  rw [evaluateDecoder_dec_of_finite h hf]
  exact decodeCircuit_frac_ofNat h hf

theorem evaluateDecoder_frac_eq_significand :
    ((evaluateDecoder s (BitVec.ofNat s.cfg.N x)).dec.frac.uint : ℚ) / 2 ^ (s.cfg.FW - 1) =
      Format.significand s.cfg x := by
  rw [evaluateDecoder_dec_of_finite h hf]
  exact (div_eq_iff (by positivity)).mpr (decodeCircuit_frac_eq_significand h hf)

end

theorem evaluateDecoder_sign_ofNat (s : State) (x : Nat) :
    (evaluateDecoder s (BitVec.ofNat s.cfg.N x)).dec.sign = Format.signBit s.cfg x := by
  rw [evaluateDecoder_sign, msb_ofNat]

/-- Settles O10: the ports are the sign, the scale factor's two parts and the significand of the format. -/
theorem decodedFieldsGiveTheValue : Obligations.DecodedFieldsGiveTheValue := by
  intro s x hx hf
  refine ⟨_, exec_decode_of_lt hx, ?_, ?_, ?_⟩
  · rw [evaluateDecoder_sign_ofNat, evaluateDecoder_reg hx hf, exponentValue_evaluateDecoder hx hf, mul_div_assoc,
      evaluateDecoder_frac_eq_significand hx hf]
    exact Format.value_of_finite hf
  · rw [evaluateDecoder_frac_eq_significand hx hf]
    exact Format.one_le_significand _ _
  · rw [evaluateDecoder_frac_eq_significand hx hf]
    exact Format.significand_lt_two _ _

end Sys2Proof.Machine
end

section
/-! The regime-class rows: the magnitude view that they assemble, decoded (30_encoding.md R41, R43, R44). -/

namespace Sys2Proof.Format

variable {c : Cfg} {x b : Nat}

theorem signBit_of_lt (h : x < 2 ^ (c.N - 1)) : signBit c x = false := Nat.testBit_lt_two_pow h

theorem body_of_lt (h : x < 2 ^ (c.N - 1)) : body c x = x := Nat.mod_eq_of_lt h

theorem magnitude_of_lt (h : x < 2 ^ (c.N - 1)) : magnitude c x = x := by
  rw [magnitude, signBit_of_lt h, if_neg Bool.false_ne_true, body_of_lt h]

theorem isFinite_of_lt (h : x < 2 ^ (c.N - 1)) (hne : x ≠ 0) : isFinite c x = true :=
  isFinite_iff.mpr ⟨hne, Nat.ne_of_lt h⟩

theorem signBit_negative (h : b < 2 ^ (c.N - 1)) : signBit c (2 ^ (c.N - 1) + b) = true := by
  rw [signBit, Nat.testBit_two_pow_add_eq, Nat.testBit_lt_two_pow h, Bool.not_false]

theorem body_negative (h : b < 2 ^ (c.N - 1)) : body c (2 ^ (c.N - 1) + b) = b := by
  rw [body, Nat.add_mod_left, Nat.mod_eq_of_lt h]

theorem lt_two_pow_N (h : x < 2 ^ (c.N - 1)) : x < 2 ^ c.N :=
  Nat.lt_of_lt_of_le h (Nat.pow_le_pow_right Nat.two_pos (Nat.sub_le _ _))

theorem negative_lt (h : b < 2 ^ (c.N - 1)) : 2 ^ (c.N - 1) + b < 2 ^ c.N := by
  have hN := Machine.two_pow_N c
  omega

end Sys2Proof.Format

namespace Sys2Proof.Machine

theorem evaluateDecoder_flags_of_finite {s : State} {x : Nat} (h : x < 2 ^ s.cfg.N)
    (hf : Format.isFinite s.cfg x = true) :
    (evaluateDecoder s (BitVec.ofNat s.cfg.N x)).dec.isZero = false ∧
      (evaluateDecoder s (BitVec.ofNat s.cfg.N x)).dec.isNaR = false := by
  obtain ⟨hz, hn⟩ := Format.isFinite_iff.mp hf
  rw [evaluateDecoder_isZero, evaluateDecoder_isNaR, isZeroFlag_ofNat h, isNaRFlag_ofNat h]
  exact ⟨decide_eq_false hz, decide_eq_false hn⟩

/-- What a decoder evaluation on an assembled view reports: the fields it was assembled from. -/
theorem evaluateDecoder_assemble (s : State) {rc : Bool} {m e f : Nat} (hm : Format.runFits s.cfg rc m)
    (ht : tailFits s.cfg m e f = true) :
    let p := (evaluateDecoder s (BitVec.ofNat s.cfg.N (Format.assemble s.cfg rc m e f))).dec
    p.sign = false ∧ p.isZero = false ∧ p.isNaR = false
      ∧ p.regSign = rc ∧ p.regMag.uint = m - 1 ∧ p.reg.sint = Format.regimeOf rc m
      ∧ p.exp.uint = e
      ∧ p.frac.uint = 2 ^ (s.cfg.FW - 1) + f * 2 ^ (s.cfg.FW - 1 - Format.fractionBits s.cfg m) := by
  have hlt := Format.assemble_lt hm ht
  have hx := Format.lt_two_pow_N hlt
  have hf := Format.isFinite_of_lt hlt (Format.assemble_ne_zero hm e f)
  have hview := Format.magnitude_of_lt hlt
  obtain ⟨hz, hn⟩ := evaluateDecoder_flags_of_finite hx hf
  refine ⟨?_, hz, hn, ?_, ?_, ?_, ?_, ?_⟩
  · rw [evaluateDecoder_sign_ofNat, Format.signBit_of_lt hlt]
  · rw [evaluateDecoder_regSign hx hf, hview, Format.regimeCheck_assemble hm ht]
  · rw [evaluateDecoder_regMag hx hf, hview, Format.regimeRun_assemble hm ht]
  · rw [evaluateDecoder_reg hx hf, hview, Format.regime, Format.regimeCheck_assemble hm ht, Format.regimeRun_assemble hm ht]
  · rw [evaluateDecoder_exp hx hf, hview, Format.exponent_assemble hm ht]
  · rw [evaluateDecoder_frac hx hf, hview, Format.regimeRun_assemble hm ht, Format.fraction_assemble hm ht]

theorem wellFormed_regimeClassNonneg {c : Cfg} {m e f : Nat} :
    Instr.wellFormed c (.regimeClassNonneg m e f) = true ↔ Format.runFits c true m ∧ tailFits c m e f = true := by
  simp [Instr.wellFormed, Format.runFits]

theorem wellFormed_regimeClassNeg {c : Cfg} {m e f : Nat} :
    Instr.wellFormed c (.regimeClassNeg m e f) = true ↔ Format.runFits c false m ∧ tailFits c m e f = true := by
  simp [Instr.wellFormed, Format.runFits]

/-- Settles O33: the row evaluates the decoder on the assembled view, which decodes to the row's fields. -/
theorem nonnegativeRegimeRowCompletes : Obligations.NonnegativeRegimeRowCompletes := by
  intro s m e f hwf
  obtain ⟨hm, ht⟩ := wellFormed_regimeClassNonneg.mp hwf
  exact ⟨_, exec_of_decoderPattern rfl hwf, rfl, evaluateDecoder_assemble s hm ht⟩

/-- Settles O34: as for ones, with a run of zeros that leaves room for its terminator. -/
theorem negativeRegimeRowCompletes : Obligations.NegativeRegimeRowCompletes := by
  intro s m e f hwf
  obtain ⟨hm, ht⟩ := wellFormed_regimeClassNeg.mp hwf
  exact ⟨_, exec_of_decoderPattern rfl hwf, rfl, evaluateDecoder_assemble s hm ht⟩

end Sys2Proof.Machine
end

section
/-! Encoding and decoding of drives are inverse to each other (30_encoding.md sections 1 to 3). -/

namespace Sys2Proof

open Machine

variable {c : Cfg}

theorem decode_word_pattern (c : Cfg) (w : Nat) : decode c (.word c.N w) = decodeOperandClass c w := if_pos rfl

theorem decode_word_view (c : Cfg) (w : Nat) : decode c (.word (c.N - 1) w) = decodeRegimeClass c w := by
  have hne : c.N - 1 ≠ c.N := by
    have := c.two_le_N
    omega
  rw [decode, if_neg hne, if_pos rfl]

theorem narPattern_lt (c : Cfg) : Format.narPattern c < 2 ^ c.N :=
  Format.negative_lt (Nat.two_pow_pos _) (b := 0)

theorem narPattern_ne_zero (c : Cfg) : Format.narPattern c ≠ Format.zeroPattern := (Nat.two_pow_pos _).ne'

theorem decodeOperandClass_zero (c : Cfg) : decodeOperandClass c Format.zeroPattern = .ok .operandClassZero := by
  have hlt : ¬2 ^ c.N ≤ Format.zeroPattern := Nat.not_le.mpr (Nat.two_pow_pos _)
  rw [decodeOperandClass, if_neg hlt, if_pos rfl]

theorem decodeOperandClass_nar (c : Cfg) : decodeOperandClass c (Format.narPattern c) = .ok .operandClassNaR := by
  rw [decodeOperandClass, if_neg (Nat.not_le.mpr (narPattern_lt c)), if_neg (narPattern_ne_zero c), if_pos rfl]

theorem decodeOperandClass_of_finite {x : Nat} (h : x < 2 ^ c.N) (hf : Format.isFinite c x = true) :
    decodeOperandClass c x =
      .ok (if Format.signBit c x then .operandClassNegFinite (Format.body c x)
        else .operandClassPosFinite (Format.body c x)) := by
  obtain ⟨hz, hn⟩ := Format.isFinite_iff.mp hf
  rw [decodeOperandClass, if_neg (Nat.not_le.mpr h), if_neg hz, if_neg hn]
  split <;> rfl

theorem decodeRegimeClass_of_ne_zero {y : Nat} (h : y < 2 ^ (c.N - 1)) (hne : y ≠ 0) :
    decodeRegimeClass c y =
      .ok (if Format.regimeCheck c y
        then .regimeClassNonneg (Format.regimeRun c y) (Format.exponent c y) (Format.fraction c y)
        else .regimeClassNeg (Format.regimeRun c y) (Format.exponent c y) (Format.fraction c y)) := by
  rw [decodeRegimeClass, if_neg (Nat.not_le.mpr h), if_neg hne]
  split <;> rfl

theorem isFinite_negative {b : Nat} (h : b < 2 ^ (c.N - 1)) (hpos : b ≠ 0) :
    Format.isFinite c (2 ^ (c.N - 1) + b) = true := by
  rw [Format.isFinite_iff_body_ne_zero (Format.negative_lt h), Format.body_negative h]
  exact hpos

theorem wellFormed_operandClassPosFinite {b : Nat} :
    Instr.wellFormed c (.operandClassPosFinite b) = true ↔ b ≠ 0 ∧ b < 2 ^ (c.N - 1) := by
  simp [Instr.wellFormed, Nat.pos_iff_ne_zero]

theorem wellFormed_operandClassNegFinite {b : Nat} :
    Instr.wellFormed c (.operandClassNegFinite b) = true ↔ b ≠ 0 ∧ b < 2 ^ (c.N - 1) := by
  simp [Instr.wellFormed, Nat.pos_iff_ne_zero]

theorem wellFormed_decode {x : Nat} : Instr.wellFormed c (.decode x) = true ↔ x < 2 ^ c.N := by
  simp [Instr.wellFormed]

theorem wellFormed_mul {x y : Nat} : Instr.wellFormed c (.mul x y) = true ↔ x < 2 ^ c.N ∧ y < 2 ^ c.N := by
  simp [Instr.wellFormed]

/-- Settles O35: each row's drive is read back by the class lemma of its kind. -/
theorem decodeOfEncodeIsTheInstruction : Obligations.DecodeOfEncodeIsTheInstruction := by
  intro c i hwf
  cases i with
  | decode x => exact if_pos (wellFormed_decode.mp hwf)
  | mul x y => exact if_pos (wellFormed_mul.mp hwf)
  | operandClassZero => exact (decode_word_pattern c _).trans (decodeOperandClass_zero c)
  | operandClassNaR => exact (decode_word_pattern c _).trans (decodeOperandClass_nar c)
  | operandClassPosFinite b =>
    obtain ⟨hne, hlt⟩ := wellFormed_operandClassPosFinite.mp hwf
    rw [encode, decode_word_pattern, decodeOperandClass_of_finite (Format.lt_two_pow_N hlt) (Format.isFinite_of_lt hlt hne),
      Format.signBit_of_lt hlt, Format.body_of_lt hlt, if_neg Bool.false_ne_true]
  | operandClassNegFinite b =>
    obtain ⟨hne, hlt⟩ := wellFormed_operandClassNegFinite.mp hwf
    rw [encode, decode_word_pattern, decodeOperandClass_of_finite (Format.negative_lt hlt) (isFinite_negative hlt hne),
      Format.signBit_negative hlt, Format.body_negative hlt, if_pos rfl]
  | regimeClassNonneg m e f =>
    obtain ⟨hm, ht⟩ := wellFormed_regimeClassNonneg.mp hwf
    rw [encode, decode_word_view, decodeRegimeClass_of_ne_zero (Format.assemble_lt hm ht) (Format.assemble_ne_zero hm e f),
      Format.regimeCheck_assemble hm ht, Format.regimeRun_assemble hm ht, Format.exponent_assemble hm ht,
      Format.fraction_assemble hm ht, if_pos rfl]
  | regimeClassNeg m e f =>
    obtain ⟨hm, ht⟩ := wellFormed_regimeClassNeg.mp hwf
    rw [encode, decode_word_view, decodeRegimeClass_of_ne_zero (Format.assemble_lt hm ht) (Format.assemble_ne_zero hm e f),
      Format.regimeCheck_assemble hm ht, Format.regimeRun_assemble hm ht, Format.exponent_assemble hm ht,
      Format.fraction_assemble hm ht, if_neg Bool.false_ne_true]

/-- A word of more bits than its width is no operand class, and a view of more bits, or 0, no regime class. -/
theorem lt_of_decodeOperandClass {x : Nat} {i : Instr} (h : decodeOperandClass c x = .ok i) : x < 2 ^ c.N := by
  by_contra hge
  rw [decodeOperandClass, if_pos (Nat.le_of_not_lt hge)] at h
  cases h

theorem lt_of_decodeRegimeClass {y : Nat} {i : Instr} (h : decodeRegimeClass c y = .ok i) : y < 2 ^ (c.N - 1) := by
  by_contra hge
  rw [decodeRegimeClass, if_pos (Nat.le_of_not_lt hge)] at h
  cases h

theorem ne_zero_of_decodeRegimeClass {y : Nat} {i : Instr} (h : decodeRegimeClass c y = .ok i) : y ≠ 0 := by
  rintro rfl
  rw [decodeRegimeClass, if_neg (Nat.not_le.mpr (Nat.two_pow_pos _)), if_pos rfl] at h
  cases h

/-- A word that reads as an operand class is the pattern of its row. -/
theorem encode_of_decodeOperandClass {x : Nat} {i : Instr} (h : decodeOperandClass c x = .ok i) :
    i.wellFormed c = true ∧ encode c i = .word c.N x := by
  have hx := lt_of_decodeOperandClass h
  by_cases hz : x = Format.zeroPattern
  · subst hz
    cases (decodeOperandClass_zero c).symm.trans h
    exact ⟨rfl, rfl⟩
  by_cases hn : x = Format.narPattern c
  · subst hn
    cases (decodeOperandClass_nar c).symm.trans h
    exact ⟨rfl, rfl⟩
  have hf := Format.isFinite_iff.mpr ⟨hz, hn⟩
  have hbody := (Format.isFinite_iff_body_ne_zero hx).mp hf
  have hlt := body_lt c x
  have hsplit := eq_sign_add_body hx
  cases (decodeOperandClass_of_finite hx hf).symm.trans h
  cases hs : Format.signBit c x with
  | true =>
    rw [hs, if_pos rfl] at hsplit
    rw [if_pos rfl]
    exact ⟨wellFormed_operandClassNegFinite.mpr ⟨hbody, hlt⟩, congrArg _ hsplit.symm⟩
  | false =>
    rw [hs, if_neg Bool.false_ne_true, Nat.zero_add] at hsplit
    rw [if_neg Bool.false_ne_true]
    exact ⟨wellFormed_operandClassPosFinite.mpr ⟨hbody, hlt⟩, congrArg _ hsplit.symm⟩

/-- A word that reads as a regime class is the magnitude view that its row assembles. -/
theorem encode_of_decodeRegimeClass {y : Nat} {i : Instr} (h : decodeRegimeClass c y = .ok i) :
    i.wellFormed c = true ∧ encode c i = .word (c.N - 1) y := by
  have hy := lt_of_decodeRegimeClass h
  have hne := ne_zero_of_decodeRegimeClass h
  have hfits := Format.runFits_of_ne_zero hy hne
  have htail := Format.tailFits_fields c y
  have hview := Format.assemble_fields hy hne
  cases (decodeRegimeClass_of_ne_zero hy hne).symm.trans h
  cases hrc : Format.regimeCheck c y with
  | true =>
    rw [hrc] at hfits hview
    rw [if_pos rfl]
    exact ⟨wellFormed_regimeClassNonneg.mpr ⟨hfits, htail⟩, congrArg _ hview⟩
  | false =>
    rw [hrc] at hfits hview
    rw [if_neg Bool.false_ne_true]
    exact ⟨wellFormed_regimeClassNeg.mpr ⟨hfits, htail⟩, congrArg _ hview⟩

/-- Settles O36: by the kind of drive, and for a word by its width. -/
theorem decodedDrivesAreEncodings : Obligations.DecodedDrivesAreEncodings := by
  intro c d i h
  cases d with
  | decoder x =>
    simp only [decode] at h
    split at h
    · next hx =>
      cases h
      exact ⟨wellFormed_decode.mpr hx, rfl⟩
    · cases h
  | multiplier x y =>
    simp only [decode] at h
    split at h
    · next hxy =>
      cases h
      exact ⟨wellFormed_mul.mpr hxy, rfl⟩
    · cases h
  | word nbits w =>
    simp only [decode] at h
    split at h
    · next hN =>
      subst hN
      exact encode_of_decodeOperandClass h
    · split at h
      · next hview =>
        subst hview
        exact encode_of_decodeRegimeClass h
      · cases h

end Sys2Proof
end

section
/-! The unbounded encoding string (30_encoding.md R47) as a number in (0, 1): each regime has an interval of its own, the
intervals follow one another without a gap, and inside one the string grows with the exponent and the fraction. -/

namespace Sys2Proof.Reference

open Format

/-- The string of regime `K` with exponent and fraction 0: the least string of that regime. -/
def regimeStart (K : Int) : ℚ := (regstr K : ℚ) / 2 ^ regstrLength K

theorem regimeStart_natCast (k : Nat) : regimeStart k = 1 - 1 / 2 ^ (k + 1) := by
  have hpow : 2 ≤ 2 ^ (k + 2) := by
    rw [pow_succ]
    exact Nat.le_mul_of_pos_left 2 (Nat.two_pow_pos _)
  have hstr : (regstr k : ℚ) = 2 ^ (k + 2) - 2 := by
    rw [regstr, if_pos (Int.natCast_nonneg k), Int.toNat_natCast]
    push_cast [hpow]
    rfl
  rw [regimeStart, hstr, regstrLength, if_pos (Int.natCast_nonneg k), Int.toNat_natCast]
  field_simp
  ring

theorem regimeStart_neg_natCast (k : Nat) : regimeStart (-k) = 1 / 2 ^ (k + 1) := by
  obtain _ | k := k
  · have hzero := regimeStart_natCast 0
    norm_num at hzero ⊢
    exact hzero
  · have hneg : ¬0 ≤ -((k + 1 : Nat) : Int) := by omega
    rw [regimeStart, regstr, regstrLength, if_neg hneg, if_neg hneg, neg_neg, Int.toNat_natCast, Nat.cast_one]

/-- A regime's interval ends where the next one begins. -/
theorem regimeStart_succ (K : Int) : regimeStart (K + 1) = regimeStart K + 1 / 2 ^ regstrLength K := by
  obtain ⟨k, rfl⟩ | ⟨k, rfl⟩ : (∃ k : Nat, K = k) ∨ ∃ k : Nat, K = -(k + 1 : Nat) := by
    obtain hK | hK := le_or_gt 0 K
    · exact .inl ⟨K.toNat, by omega⟩
    · exact .inr ⟨(-K - 1).toNat, by omega⟩
  · rw [← Nat.cast_add_one, regimeStart_natCast, regimeStart_natCast, regstrLength, if_pos (Int.natCast_nonneg k),
      Int.toNat_natCast]
    field_simp
    ring
  · have hneg : ¬0 ≤ -((k + 1 : Nat) : Int) := by omega
    have hnext : -((k + 1 : Nat) : Int) + 1 = -(k : Nat) := by omega
    rw [hnext, regimeStart_neg_natCast, regimeStart_neg_natCast, regstrLength, if_neg hneg, neg_neg, Int.toNat_natCast]
    field_simp
    ring

theorem regimeStart_strictMono : StrictMono regimeStart := by
  refine strictMono_int_of_lt_succ fun K => ?_
  rw [regimeStart_succ]
  exact lt_add_of_pos_right _ (by positivity)

variable {c : Cfg}

theorem encodingString_eq (c : Cfg) (K : Int) (E : Nat) (g : ℚ) :
    encodingString c K E g = regimeStart K + (E + g) / 2 ^ c.es / 2 ^ regstrLength K := by
  rw [encodingString, regimeStart]
  push_cast
  field_simp
  ring

section
variable {E : Nat} {g : ℚ} (K : Int)

theorem regimeStart_le_encodingString (hg : 0 ≤ g) : regimeStart K ≤ encodingString c K E g := by
  rw [encodingString_eq]
  exact le_add_of_nonneg_right (by positivity)

theorem encodingString_lt_regimeStart_succ (hE : E < 2 ^ c.es) (hg : g < 1) :
    encodingString c K E g < regimeStart (K + 1) := by
  have hsum : (E : ℚ) + g < 2 ^ c.es := by
    have hle : (E : ℚ) + 1 ≤ 2 ^ c.es := by exact_mod_cast hE
    linarith
  have hfrac : (E + g) / 2 ^ c.es < 1 := (div_lt_one (by positivity)).mpr hsum
  rw [encodingString_eq, regimeStart_succ]
  gcongr

theorem encodingString_lt_of_add_lt {E' : Nat} {g' : ℚ} (h : (E : ℚ) + g < E' + g') :
    encodingString c K E g < encodingString c K E' g' := by
  rw [encodingString_eq, encodingString_eq]
  gcongr

end

/-! The string of a positive real number. -/

/-- The result regime `K` of a positive `w` (R47): the floor of its binary scale by `2^es`. -/
def regimeIndex (c : Cfg) (w : ℚ) : Int := Int.log 2 w / 2 ^ c.es

/-- The result exponent `E` of a positive `w`. -/
def exponentIndex (c : Cfg) (w : ℚ) : Nat := (Int.log 2 w % 2 ^ c.es).toNat

/-- The fraction `g` of a positive `w`, below its leading one. -/
def fractionOf (w : ℚ) : ℚ := w / 2 ^ Int.log 2 w - 1

/-- The encoding string of a positive `w`. -/
def stringOf (c : Cfg) (w : ℚ) : ℚ := encodingString c (regimeIndex c w) (exponentIndex c w) (fractionOf w)

theorem exponentIndex_cast (c : Cfg) (w : ℚ) : (exponentIndex c w : Int) = Int.log 2 w % 2 ^ c.es :=
  Int.toNat_of_nonneg (Int.emod_nonneg _ (by positivity))

theorem exponentIndex_lt (c : Cfg) (w : ℚ) : exponentIndex c w < 2 ^ c.es := by
  have hlt : (exponentIndex c w : Int) < 2 ^ c.es := by
    rw [exponentIndex_cast]
    exact Int.emod_lt_of_pos _ (by positivity)
  exact_mod_cast hlt

theorem log_eq_regimeIndex_add (c : Cfg) (w : ℚ) : Int.log 2 w = 2 ^ c.es * regimeIndex c w + exponentIndex c w := by
  rw [exponentIndex_cast]
  exact (Int.mul_ediv_add_emod _ _).symm

theorem fractionOf_lt_one (w : ℚ) : fractionOf w < 1 := by
  have hlt : w < ((2 : Nat) : ℚ) ^ (Int.log 2 w + 1) := Int.lt_zpow_succ_log_self Nat.one_lt_two w
  rw [zpow_add_one₀ (by norm_num), mul_comm] at hlt
  have hdiv : w / 2 ^ Int.log 2 w < 2 := (div_lt_iff₀ (by positivity)).mpr (by exact_mod_cast hlt)
  rw [fractionOf]
  linarith

theorem stringOf_lt_regimeStart (c : Cfg) (w : ℚ) : stringOf c w < regimeStart (regimeIndex c w + 1) :=
  encodingString_lt_regimeStart_succ _ (exponentIndex_lt c w) (fractionOf_lt_one w)

section
variable {w : ℚ} (hw : 0 < w)
include hw

theorem fractionOf_nonneg : 0 ≤ fractionOf w := by
  have hle : ((2 : Nat) : ℚ) ^ Int.log 2 w ≤ w := Int.zpow_log_le_self Nat.one_lt_two hw
  exact sub_nonneg.mpr ((one_le_div (by positivity)).mpr (by exact_mod_cast hle))

theorem regimeStart_le_stringOf (c : Cfg) : regimeStart (regimeIndex c w) ≤ stringOf c w :=
  regimeStart_le_encodingString _ (fractionOf_nonneg hw)

/-- The regime is read off the string: it is the interval the string lies in. -/
theorem lt_regimeIndex_iff (c : Cfg) (K : Int) : K < regimeIndex c w ↔ regimeStart (K + 1) ≤ stringOf c w := by
  constructor
  · intro h
    exact (regimeStart_strictMono.monotone (Int.add_one_le_of_lt h)).trans (regimeStart_le_stringOf hw c)
  · intro h
    have hlt := regimeStart_strictMono.lt_iff_lt.mp (h.trans_lt (stringOf_lt_regimeStart c w))
    omega

theorem regimeIndex_lt_iff (c : Cfg) (K : Int) : regimeIndex c w < K ↔ stringOf c w < regimeStart K := by
  have h := lt_regimeIndex_iff hw c (K - 1)
  rw [sub_add_cancel] at h
  rw [← not_le, ← not_le, ← h]
  omega

end

/-- The string grows with the number. -/
theorem stringOf_strictMono (c : Cfg) {v w : ℚ} (hv : 0 < v) (hvw : v < w) : stringOf c v < stringOf c w := by
  have hw := hv.trans hvw
  have hlog : Int.log 2 v ≤ Int.log 2 w := Int.log_mono_right hv hvw.le
  have hle : regimeIndex c v ≤ regimeIndex c w := Int.ediv_le_ediv (by positivity) hlog
  obtain hlt | heq := hle.lt_or_eq
  · calc stringOf c v < regimeStart (regimeIndex c v + 1) := stringOf_lt_regimeStart c v
      _ ≤ regimeStart (regimeIndex c w) := regimeStart_strictMono.monotone (Int.add_one_le_of_lt hlt)
      _ ≤ stringOf c w := regimeStart_le_stringOf hw c
  · have hv' := log_eq_regimeIndex_add c v
    have hw' := log_eq_regimeIndex_add c w
    rw [stringOf, stringOf, heq]
    refine encodingString_lt_of_add_lt _ ?_
    rw [heq] at hv'
    obtain hscale | hscale := hlog.lt_or_eq
    · have hexp : exponentIndex c v + 1 ≤ exponentIndex c w := by omega
      have hexpQ : (exponentIndex c v : ℚ) + 1 ≤ exponentIndex c w := by exact_mod_cast hexp
      linarith [fractionOf_lt_one v, fractionOf_nonneg hw]
    · have hexp : exponentIndex c v = exponentIndex c w := by omega
      rw [hexp, fractionOf, fractionOf, hscale]
      gcongr

theorem log_two_zpow_mul (n : Int) {u : ℚ} (h₁ : 1 ≤ u) (h₂ : u < 2) : Int.log 2 ((2 : ℚ) ^ n * u) = n := by
  have hpos : (0 : ℚ) < 2 ^ n := by positivity
  have hw : (0 : ℚ) < 2 ^ n * u := by positivity
  refine le_antisymm (Int.lt_add_one_iff.mp ?_) ?_
  · rw [← Int.lt_zpow_iff_log_lt Nat.one_lt_two hw, Nat.cast_ofNat, zpow_add_one₀ two_ne_zero]
    gcongr
  · rw [← Int.zpow_le_iff_le_log Nat.one_lt_two hw, Nat.cast_ofNat]
    exact le_mul_of_one_le_right hpos.le h₁

/-- The string of a number given by its scale factor and its significand. -/
theorem stringOf_zpow_mul (c : Cfg) (n : Int) {u : ℚ} (h₁ : 1 ≤ u) (h₂ : u < 2) :
    stringOf c (2 ^ n * u) = encodingString c (n / 2 ^ c.es) (n % 2 ^ c.es).toNat (u - 1) := by
  rw [stringOf, regimeIndex, exponentIndex, fractionOf, log_two_zpow_mul n h₁ h₂, mul_div_cancel_left₀ _ (by positivity)]

/-! The string of a posit's fields is the posit's magnitude view, as a binary fraction. -/

section
variable {rc : Bool} {m e f : Nat}

/-- The regime string of a run of `m` bits has `m + 1` bits, the last of them the terminator. -/
theorem regstrLength_regimeOf (rc : Bool) (hm : 1 ≤ m) : regstrLength (regimeOf rc m) = m + 1 := by
  cases rc with
  | true =>
    have hnonneg : 0 ≤ (m : Int) - 1 := by omega
    rw [regimeOf, if_pos rfl, regstrLength, if_pos hnonneg]
    omega
  | false =>
    have hneg : ¬0 ≤ -(m : Int) := by omega
    rw [regimeOf, if_neg Bool.false_ne_true, regstrLength, if_neg hneg]
    omega

theorem regstr_regimeOf (rc : Bool) (hm : 1 ≤ m) : regstr (regimeOf rc m) = if rc then 2 ^ (m + 1) - 2 else 1 := by
  cases rc with
  | true =>
    have hnonneg : 0 ≤ (m : Int) - 1 := by omega
    have hlen : ((m : Int) - 1).toNat + 2 = m + 1 := by omega
    rw [regimeOf, if_pos rfl, regstr, if_pos hnonneg, hlen, if_pos rfl]
  | false =>
    have hneg : ¬0 ≤ -(m : Int) := by omega
    rw [regimeOf, if_neg Bool.false_ne_true, regstr, if_neg hneg, if_neg Bool.false_ne_true]

/-- Exponent and fraction as a number of es bits before the point are the tail, scaled to its width. -/
theorem exponent_add_fraction_eq (ht : tailFits c m e f = true) :
    ((e : ℚ) + f / 2 ^ fractionBits c m) / 2 ^ c.es = tailPart c m e f / 2 ^ tailBits c m := by
  simp only [tailFits, Bool.and_eq_true, decide_eq_true_iff, beq_iff_eq] at ht
  obtain ⟨⟨-, habsent⟩, hf⟩ := ht
  obtain ⟨q, hq⟩ := Nat.dvd_of_mod_eq_zero habsent
  have hdiv : e / 2 ^ absentExponentBits c m = q := by rw [hq, Nat.mul_div_cancel_left _ (Nat.two_pow_pos _)]
  have hwidth : c.es + fractionBits c m = tailBits c m + absentExponentBits c m := by
    unfold fractionBits absentExponentBits tailBits
    omega
  have hpow : (2 : ℚ) ^ c.es * 2 ^ fractionBits c m = 2 ^ tailBits c m * 2 ^ absentExponentBits c m := by
    rw [← pow_add, hwidth, pow_add]
  have hfrac : (f : ℚ) * 2 ^ absentExponentBits c m = f := by
    obtain hnone | hsome : absentExponentBits c m = 0 ∨ fractionBits c m = 0 := by
      unfold fractionBits absentExponentBits tailBits
      omega
    · rw [hnone, pow_zero, mul_one]
    · rw [hsome, pow_zero] at hf
      rw [Nat.lt_one_iff.mp hf, Nat.cast_zero, zero_mul]
  rw [tailPart, hdiv, hq, div_eq_div_iff (by positivity) (by positivity)]
  push_cast
  field_simp
  linear_combination (-(q * 2 ^ fractionBits c m + f : ℚ)) * hpow - 2 ^ tailBits c m * hfrac

/-- The string of fields that fit is the assembled view. -/
theorem encodingString_regimeOf (hm : runFits c rc m) (ht : tailFits c m e f = true) :
    encodingString c (regimeOf rc m) e (f / 2 ^ fractionBits c m) = assemble c rc m e f / 2 ^ (c.N - 1) := by
  have htail := Laws.tail_lt ht
  rw [encodingString_eq, regimeStart, regstrLength_regimeOf rc hm.1, regstr_regimeOf rc hm.1,
    exponent_add_fraction_eq ht, assemble_eq]
  change tailPart c m e f < _ at htail
  generalize tailPart c m e f = t at htail ⊢
  obtain ⟨hm₁, hm₂⟩ := id hm
  have hpos : 2 ≤ 2 ^ (m + 1) := by
    rw [pow_succ]
    exact Nat.le_mul_of_pos_left 2 (Nat.two_pow_pos _)
  cases rc with
  | false =>
    simp only [Bool.false_eq_true, if_false] at hm₂ ⊢
    have hwidth : c.N - 1 = tailBits c m + (m + 1) := by
      unfold tailBits
      omega
    rw [runPart_zeros hm, hwidth, pow_add _ (tailBits c m) (m + 1)]
    push_cast
    field_simp
  | true =>
    simp only [if_true] at hm₂ ⊢
    obtain rfl | hlt : m = c.N - 1 ∨ m < c.N - 1 := by omega
    · rw [tailBits_full] at htail ⊢
      rw [runPart_ones_full, Nat.lt_one_iff.mp htail]
      push_cast [hpos, Nat.one_le_two_pow]
      field_simp
      ring
    · have hwidth : c.N - 1 = tailBits c m + (m + 1) := by
        unfold tailBits
        omega
      have hrunPart : (runPart c true m : ℚ) = 2 ^ tailBits c m * 2 ^ (m + 1) - 2 * 2 ^ tailBits c m := by
        rw [← pow_add, ← hwidth, eq_sub_iff_add_eq]
        exact_mod_cast runPart_ones_add hlt
      rw [Nat.cast_add, hrunPart, hwidth, pow_add _ (tailBits c m) (m + 1), Nat.cast_sub hpos]
      push_cast
      field_simp

end

/-- The string of a finite pattern's fields is its magnitude view. -/
theorem encodingString_fields {y : Nat} (h : y < 2 ^ (c.N - 1)) (hne : y ≠ 0) :
    encodingString c (regime c y) (exponent c y) (fraction c y / 2 ^ fractionBits c (regimeRun c y)) =
      y / 2 ^ (c.N - 1) := by
  conv_rhs => rw [← assemble_fields h hne]
  exact encodingString_regimeOf (runFits_of_ne_zero h hne) (tailFits_fields c y)

end Sys2Proof.Reference

namespace Sys2Proof.Machine

open Reference

/-- The Frac port below its marker, in units of the marker. -/
theorem fraction_shift_div (c : Cfg) (y : Nat) :
    ((Format.fraction c y * 2 ^ (c.FW - 1 - Format.fractionBits c (Format.regimeRun c y)) : Nat) : ℚ) / 2 ^ (c.FW - 1) =
      Format.fraction c y / 2 ^ Format.fractionBits c (Format.regimeRun c y) := by
  have hle := Format.fractionBits_le_FW c y
  have hwidth : c.FW - 1 = Format.fractionBits c (Format.regimeRun c y) +
      (c.FW - 1 - Format.fractionBits c (Format.regimeRun c y)) := by omega
  conv_lhs => rw [hwidth, pow_add]
  rw [Nat.add_sub_cancel_left]
  push_cast
  field_simp

theorem fraction_shift_lt (c : Cfg) (y : Nat) :
    Format.fraction c y * 2 ^ (c.FW - 1 - Format.fractionBits c (Format.regimeRun c y)) < 2 ^ (c.FW - 1) := by
  have hle := Format.fractionBits_le_FW c y
  have hlt := Nat.mul_lt_mul_of_pos_right (Format.fraction_lt c y)
    (Nat.two_pow_pos (c.FW - 1 - Format.fractionBits c (Format.regimeRun c y)))
  rwa [← pow_add, Nat.add_sub_cancel' hle] at hlt

/-- Re-encoding keeps the first N-1 bits of the fields' string, under the sign. -/
theorem reencode_eq (c : Cfg) (sign : Bool) (k : Int) (e low lowWidth : Nat) :
    reencode c sign k e low lowWidth =
      withSign c sign (firstBits (encodingString c k e ((low : ℚ) / 2 ^ lowWidth)) (c.N - 1)) := by
  have hN : c.N - 1 ≤ Format.regstrLength k + c.es + lowWidth + c.N := by omega
  have hfirst : encodingString c k e ((low : ℚ) / 2 ^ lowWidth) * 2 ^ (c.N - 1) =
      (((Format.regstr k * 2 ^ c.es + e) * 2 ^ lowWidth + low) * 2 ^ c.N : Nat) /
        (2 ^ (Format.regstrLength k + c.es + lowWidth + c.N - (c.N - 1)) : Nat) := by
    rw [encodingString]
    push_cast
    rw [pow_sub₀ (2 : ℚ) two_ne_zero hN]
    field_simp
    ring
  rw [reencode, firstBits, hfirst, Nat.floor_div_eq_div]

theorem withSign_magnitude {c : Cfg} {x : Nat} (h : x < 2 ^ c.N) (hf : Format.isFinite c x = true) :
    withSign c (Format.signBit c x) (Format.magnitude c x) = x := by
  have hbody := (Format.isFinite_iff_body_ne_zero h).mp hf
  have hsplit := eq_sign_add_body h
  have hN := two_pow_N c
  rw [Format.magnitude_of_body_ne_zero hbody, withSign]
  cases hs : Format.signBit c x with
  | false => simpa [hs] using hsplit.symm
  | true =>
    rw [hs, if_pos rfl] at hsplit
    simp only [if_true]
    rw [Format.neg_of_pos (by omega)]
    omega

/-- Settles O11: the fields' string is the magnitude view followed by zeros, and the sign gives the pattern back. -/
theorem reencodingDecodedFieldsGivesThePattern : Obligations.ReencodingDecodedFieldsGivesThePattern := by
  intro s x hx hf
  refine ⟨_, exec_decode_of_lt hx, ?_⟩
  have hlow : (evaluateDecoder s (BitVec.ofNat s.cfg.N x)).dec.frac.uint % 2 ^ (s.cfg.FW - 1) =
      Format.fraction s.cfg (Format.magnitude s.cfg x) *
        2 ^ (s.cfg.FW - 1 - Format.fractionBits s.cfg (Format.regimeRun s.cfg (Format.magnitude s.cfg x))) := by
    rw [evaluateDecoder_frac hx hf, Nat.add_mod_left, Nat.mod_eq_of_lt (fraction_shift_lt _ _)]
  rw [hlow, evaluateDecoder_sign_ofNat, evaluateDecoder_reg hx hf, exponentValue_evaluateDecoder hx hf, reencode_eq,
    fraction_shift_div, encodingString_fields (Format.magnitude_lt _ _) (Format.magnitude_ne_zero hx hf), firstBits,
    div_mul_cancel₀ _ (by positivity), Nat.floor_natCast]
  exact withSign_magnitude hx hf

end Sys2Proof.Machine
end

section
/-! The dynamic shifter: its output is the encoding string's first WX bits, and no 1 of the string is lost
(41_multiplier.md R76, R77). -/

namespace Sys2Proof.Reference

/-! Bits of a string that is known as an integer of `W` bits. -/

section
variable {b : ℚ} {S W n : Nat} (hS : b * 2 ^ W = S) (hn : n ≤ W)
include hS hn

theorem mul_two_pow_eq_div : b * 2 ^ n = (S : ℚ) / (2 ^ (W - n) : Nat) := by
  rw [← hS]
  push_cast
  rw [pow_sub₀ (2 : ℚ) two_ne_zero hn]
  field_simp

theorem firstBits_eq_div : firstBits b n = S / 2 ^ (W - n) := by
  rw [firstBits, mul_two_pow_eq_div hS hn, Nat.floor_div_eq_div]

theorem bitAt_eq_testBit : bitAt b n = S.testBit (W - n) := by
  rw [bitAt, firstBits_eq_div hS hn, Nat.testBit_eq_decide_div_mod_eq]

theorem anyBitAfter_eq : anyBitAfter b n = decide (S % 2 ^ (W - n) ≠ 0) := by
  have hpos : ((2 ^ (W - n) : Nat) : ℚ) ≠ 0 := by positivity
  rw [anyBitAfter, decide_eq_decide, firstBits_eq_div hS hn, mul_two_pow_eq_div hS hn, ne_eq, ne_eq, not_iff_not,
    div_eq_iff hpos, ← Nat.cast_mul, Nat.cast_inj]
  constructor
  · intro h
    rw [h]
    exact Nat.mul_mod_left _ _
  · intro h
    exact (Nat.div_mul_cancel (Nat.dvd_of_mod_eq_zero h)).symm

end

end Sys2Proof.Reference

namespace Sys2Proof.Machine

open Reference

variable {c : Cfg} (A B : DecodedPorts c)

/-- The result regime from its sign and the shift amount: K = sh, or K = -sh - 1 (R76). -/
theorem mulSignals_K_of_pos (h : (mulSignals A B).pos = true) : (mulSignals A B).K.toInt = (mulSignals A B).sh := by
  have hmsb : (mulSignals A B).K.msb = false := Bool.not_eq_eq_eq_not.mp h
  have hsh : (mulSignals A B).sh = (mulSignals A B).K.toNat := if_pos h
  rw [hsh, BitVec.toInt_eq_toNat_of_msb hmsb]

theorem mulSignals_K_of_neg (h : (mulSignals A B).pos = false) :
    (mulSignals A B).K.toInt = -((mulSignals A B).sh + 1 : Nat) := by
  have hmsb : (mulSignals A B).K.msb = true := Bool.not_eq_eq_eq_not.mp h
  have hsh : (mulSignals A B).sh = (~~~(mulSignals A B).K).toNat := if_neg (Bool.eq_false_iff.mp h)
  rw [hsh, BitVec.toNat_not, BitVec.toInt_eq_msb_cond, if_pos hmsb]
  omega

/-- The regime string is `sh` fill bits and the two bits of the packed head. -/
theorem regstrLength_K : Format.regstrLength (mulSignals A B).K.toInt = (mulSignals A B).sh + 2 := by
  cases h : (mulSignals A B).pos with
  | true =>
    rw [mulSignals_K_of_pos A B h, Format.regstrLength, if_pos (Int.natCast_nonneg _), Int.toNat_natCast]
  | false =>
    have hneg : ¬0 ≤ -(((mulSignals A B).sh + 1 : Nat) : Int) := by omega
    rw [mulSignals_K_of_neg A B h, Format.regstrLength, if_neg hneg, neg_neg, Int.toNat_natCast]

theorem regstr_K :
    Format.regstr (mulSignals A B).K.toInt =
      (if (mulSignals A B).pos then 2 ^ (mulSignals A B).sh - 1 else 0) * 4 + (if (mulSignals A B).pos then 2 else 1) := by
  cases h : (mulSignals A B).pos with
  | true =>
    have hpos := Nat.two_pow_pos (mulSignals A B).sh
    rw [mulSignals_K_of_pos A B h, Format.regstr, if_pos (Int.natCast_nonneg _), Int.toNat_natCast, pow_add]
    simp only [if_true]
    omega
  | false =>
    have hneg : ¬0 ≤ -(((mulSignals A B).sh + 1 : Nat) : Int) := by omega
    rw [mulSignals_K_of_neg A B h, Format.regstr, if_neg hneg]
    simp

/-- The string that the shifter's output is the top of. -/
def mulString (A B : DecodedPorts c) : ℚ :=
  encodingString c (mulSignals A B).K.toInt (mulSignals A B).E.toNat ((mulSignals A B).FR.toNat / 2 ^ c.FRW)

theorem mulSignals_PK_toNat :
    (mulSignals A B).PK.toNat =
      ((if (mulSignals A B).pos then 2 else 1) * 2 ^ c.es + (mulSignals A B).E.toNat) * 2 ^ c.FRW +
        (mulSignals A B).FR.toNat := packed_toNat _ _ _

/-- Dropping the low `sh` bits of a string that ends in `sh + r` zeros keeps it whole. -/
theorem drop_low_zeros {fill PK sh r P : Nat} (hfill : fill < 2 ^ sh) (hPK : PK < 2 ^ P) :
    (fill * 2 ^ (P + (sh + r)) + PK * 2 ^ (sh + r)) / 2 ^ sh % 2 ^ (P + (sh + r)) = (fill * 2 ^ P + PK) * 2 ^ r := by
  have hshift : (fill * 2 ^ (P + (sh + r)) + PK * 2 ^ (sh + r)) / 2 ^ sh = (fill * 2 ^ P + PK) * 2 ^ r := by
    refine Nat.div_eq_of_eq_mul_left (Nat.two_pow_pos sh) ?_
    ring
  have hroom : (fill * 2 ^ P + PK) * 2 ^ r < 2 ^ (P + (sh + r)) := by
    calc (fill * 2 ^ P + PK) * 2 ^ r < ((fill + 1) * 2 ^ P) * 2 ^ r := by
          refine Nat.mul_lt_mul_of_pos_right ?_ (Nat.two_pow_pos r)
          rw [Nat.add_mul, Nat.one_mul]
          exact Nat.add_lt_add_left hPK _
      _ ≤ (2 ^ sh * 2 ^ P) * 2 ^ r := Nat.mul_le_mul_right _ (Nat.mul_le_mul_right _ hfill)
      _ = 2 ^ (P + (sh + r)) := by ring
  rw [hshift, Nat.mod_eq_of_lt hroom]

section
variable (hHi : (mulSignals A B).satHi = false) (hLo : (mulSignals A B).satLo = false)
include hHi hLo

theorem mulSignals_sh_le : (mulSignals A B).sh ≤ c.N - 2 := by
  have hle : (mulSignals A B).K.toInt ≤ (c.N : Int) - 2 := not_lt.mp fun h =>
    Bool.eq_false_iff.mp hHi ((mulSignals_satHi_iff A B).mpr h)
  have hge : -((c.N : Int) - 2) ≤ (mulSignals A B).K.toInt := not_lt.mp fun h =>
    Bool.eq_false_iff.mp hLo ((mulSignals_satLo_iff A B).mpr h)
  cases h : (mulSignals A B).pos with
  | true =>
    rw [mulSignals_K_of_pos A B h] at hle
    omega
  | false =>
    rw [mulSignals_K_of_neg A B h] at hge
    omega

/-- The low bits that the shifter drops are zeros, so its output is the whole string. -/
theorem mulSignals_SH_toNat :
    (mulSignals A B).SH.toNat =
      ((if (mulSignals A B).pos then 2 ^ (mulSignals A B).sh - 1 else 0) * 2 ^ c.PKW + (mulSignals A B).PK.toNat) *
        2 ^ (c.N - 2 - (mulSignals A B).sh) := by
  have hsh := mulSignals_sh_le A B hHi hLo
  have hSH : (mulSignals A B).SH.toNat = _ := shifted_toNat (mulSignals A B).pos (mulSignals A B).sh (mulSignals A B).PK
  have hlt := (mulSignals A B).PK.isLt
  have hWX : c.WX = c.N - 2 + c.PKW := rfl
  have hfill : (if (mulSignals A B).pos then 2 ^ (mulSignals A B).sh - 1 else 0) < 2 ^ (mulSignals A B).sh := by
    have hpos := Nat.two_pow_pos (mulSignals A B).sh
    split <;> omega
  obtain ⟨r, hr⟩ := Nat.exists_eq_add_of_le hsh
  rw [hSH, hWX, hr, Nat.add_sub_cancel_left, Nat.add_comm (_ + r) c.PKW]
  exact drop_low_zeros hfill hlt

/-- The shifter's output is the encoding string, scaled to WX bits. -/
theorem mulString_mul_two_pow : mulString A B * 2 ^ c.WX = (mulSignals A B).SH.toNat := by
  have hPKW : c.PKW = 2 + c.es + c.FRW := rfl
  have hWX : c.WX = c.N - 2 + c.PKW := rfl
  obtain ⟨r, hr⟩ := Nat.exists_eq_add_of_le (mulSignals_sh_le A B hHi hLo)
  rw [mulSignals_SH_toNat A B hHi hLo, mulString, encodingString, regstrLength_K, regstr_K, mulSignals_PK_toNat, hWX, hr,
    Nat.add_sub_cancel_left, hPKW]
  push_cast
  field_simp
  ring

/-- The kept bits and the guard, round and sticky bits, read off the string. -/
theorem mulSignals_trunc_eq : (mulSignals A B).trunc.toNat = firstBits (mulString A B) (c.N - 1) := by
  have hWX := N_lt_WX c
  have hN := c.two_le_N
  have hpos : c.WX - c.N + 1 = c.WX - (c.N - 1) := by omega
  have hwidth : c.WX = c.N - 1 + (c.WX - (c.N - 1)) := by omega
  have htrunc : (mulSignals A B).trunc = (mulSignals A B).SH.extractLsb' (c.WX - c.N + 1) (c.N - 1) := rfl
  have hlt : (mulSignals A B).SH.toNat / 2 ^ (c.WX - (c.N - 1)) < 2 ^ (c.N - 1) := by
    rw [Nat.div_lt_iff_lt_mul (Nat.two_pow_pos _), ← pow_add, ← hwidth]
    exact (mulSignals A B).SH.isLt
  rw [firstBits_eq_div (mulString_mul_two_pow A B hHi hLo) (by omega), htrunc, BitVec.extractLsb'_toNat,
    Nat.shiftRight_eq_div_pow, hpos, Nat.mod_eq_of_lt hlt]

theorem mulSignals_L_eq : (mulSignals A B).L = bitAt (mulString A B) (c.N - 1) := by
  have hWX := N_lt_WX c
  have hN := c.two_le_N
  have hpos : c.WX - (c.N - 1) = c.WX - c.N + 1 := by omega
  rw [bitAt_eq_testBit (mulString_mul_two_pow A B hHi hLo) (by omega), hpos, BitVec.testBit_toNat]
  rfl

theorem mulSignals_G_eq : (mulSignals A B).G = bitAt (mulString A B) c.N := by
  rw [bitAt_eq_testBit (mulString_mul_two_pow A B hHi hLo) (N_lt_WX c).le, BitVec.testBit_toNat]
  rfl

theorem mulSignals_Rb_eq : (mulSignals A B).Rb = bitAt (mulString A B) (c.N + 1) := by
  rw [bitAt_eq_testBit (mulString_mul_two_pow A B hHi hLo) (N_lt_WX c), BitVec.testBit_toNat]
  rfl

theorem mulSignals_St_eq : (mulSignals A B).St = anyBitAfter (mulString A B) (c.N + 1) := by
  have hSt : (mulSignals A B).St = orr ((mulSignals A B).SH.extractLsb' 0 (c.WX - c.N - 1)) := rfl
  rw [anyBitAfter_eq (mulString_mul_two_pow A B hHi hLo) (N_lt_WX c), hSt, Bool.eq_iff_iff, orr_eq_true,
    decide_eq_true_iff, BitVec.extractLsb'_toNat, Nat.shiftRight_zero]
  rfl

end

/-- Settles O27: the shifted string is the encoding string, bit for bit. None of it needs the operands to be finite. -/
theorem shifterGivesTheEncodingString : Obligations.ShifterGivesTheEncodingString := by
  intro c vA vB x y _ _ _ _ g b hHi hLo
  exact ⟨mulSignals_sh_le _ _ hHi hLo, mulSignals_trunc_eq _ _ hHi hLo, mulSignals_L_eq _ _ hHi hLo,
    mulSignals_G_eq _ _ hHi hLo, mulSignals_Rb_eq _ _ hHi hLo, mulSignals_St_eq _ _ hHi hLo⟩

end Sys2Proof.Machine
end

section
/-! Values of patterns, and their strings: the string of a pattern's magnitude is its magnitude view. -/

namespace Sys2Proof.Safety

variable {c : Cfg} {x u : Nat}

theorem realValue_of_finite (hf : Format.isFinite c x = true) :
    realValue c x =
      (-1) ^ (if Format.signBit c x then 1 else 0) * (2 : ℚ) ^ Format.scaleFactor c x * Format.significand c x := by
  rw [realValue, Format.value_of_finite hf, Option.getD_some]

theorem significand_pos (c : Cfg) (x : Nat) : 0 < Format.significand c x :=
  zero_lt_one.trans_le (Format.one_le_significand c x)

theorem abs_realValue (hf : Format.isFinite c x = true) :
    |realValue c x| = (2 : ℚ) ^ Format.scaleFactor c x * Format.significand c x := by
  have hpos := significand_pos c x
  rw [realValue_of_finite hf, abs_mul, abs_mul, abs_of_pos hpos, abs_pow, abs_neg, abs_one, one_pow, one_mul,
    abs_of_pos (by positivity)]

theorem abs_realValue_pos (hf : Format.isFinite c x = true) : 0 < |realValue c x| := by
  have hpos := significand_pos c x
  rw [abs_realValue hf]
  positivity

theorem realValue_ne_zero (hf : Format.isFinite c x = true) : realValue c x ≠ 0 := abs_pos.mp (abs_realValue_pos hf)

/-- A finite value is negative exactly when the sign bit is 1. -/
theorem realValue_neg_iff (hf : Format.isFinite c x = true) : realValue c x < 0 ↔ Format.signBit c x = true := by
  have hpos := significand_pos c x
  have hmag : (0 : ℚ) < 2 ^ Format.scaleFactor c x * Format.significand c x := by positivity
  rw [realValue_of_finite hf, mul_assoc]
  cases Format.signBit c x with
  | true => simpa using hmag
  | false => simpa using hmag.le

theorem value_eq_realValue (hf : Format.isFinite c x = true) : Format.value c x = some (realValue c x) := by
  rw [realValue, Format.value_of_finite hf, Option.getD_some]

/-- The string of a finite pattern's magnitude. -/
theorem stringOf_abs_realValue (h : x < 2 ^ c.N) (hf : Format.isFinite c x = true) :
    Reference.stringOf c |realValue c x| = Format.magnitude c x / 2 ^ (c.N - 1) := by
  have hexp : (Format.exponent c (Format.magnitude c x) : Int) < 2 ^ c.es := by
    exact_mod_cast Format.exponent_lt c (Format.magnitude c x)
  have hpos : (0 : Int) < 2 ^ c.es := by positivity
  have hk : Format.scaleFactor c x / 2 ^ c.es = Format.regime c (Format.magnitude c x) := by
    rw [Format.scaleFactor, mul_comm, Int.mul_add_ediv_left _ _ hpos.ne',
      Int.ediv_eq_zero_of_lt (Int.natCast_nonneg _) hexp, add_zero]
  have he : (Format.scaleFactor c x % 2 ^ c.es).toNat = Format.exponent c (Format.magnitude c x) := by
    rw [Format.scaleFactor, mul_comm, Int.mul_add_emod_self_left, Int.emod_eq_of_lt (Int.natCast_nonneg _) hexp,
      Int.toNat_natCast]
  rw [abs_realValue hf, Reference.stringOf_zpow_mul c _ (Format.one_le_significand c x) (Format.significand_lt_two c x),
    hk, he, Format.significand_eq, add_sub_cancel_left]
  exact Reference.encodingString_fields (Format.magnitude_lt c x) (Format.magnitude_ne_zero h hf)

/-- The positive patterns are the numbers from minpos to maxpos (30_encoding.md R46). -/
theorem lt_of_le_maxpos (hmax : u ≤ Format.maxpos c) : u < 2 ^ (c.N - 1) := by
  have hpos := Nat.two_pow_pos (c.N - 1)
  rw [Format.maxpos] at hmax
  omega

theorem realValue_pos (hu : 1 ≤ u) (hmax : u ≤ Format.maxpos c) : 0 < realValue c u := by
  have hlt := lt_of_le_maxpos hmax
  have hf := Format.isFinite_of_lt hlt (Nat.ne_of_gt hu)
  have hnonneg : ¬realValue c u < 0 := by
    rw [realValue_neg_iff hf, Format.signBit_of_lt hlt]
    exact Bool.false_ne_true
  exact lt_of_le_of_ne (not_lt.mp hnonneg) (realValue_ne_zero hf).symm

/-- The string of a positive pattern is the pattern. -/
theorem stringOf_realValue (hu : 1 ≤ u) (hmax : u ≤ Format.maxpos c) :
    Reference.stringOf c (realValue c u) = u / 2 ^ (c.N - 1) := by
  have hlt := lt_of_le_maxpos hmax
  have hstring := stringOf_abs_realValue (Format.lt_two_pow_N hlt) (Format.isFinite_of_lt hlt (Nat.ne_of_gt hu))
  rwa [abs_of_pos (realValue_pos hu hmax), Format.magnitude_of_lt hlt] at hstring

end Sys2Proof.Safety
end

section
/-! Rounding to nearest even on the string (41_multiplier.md R83), between two neighbouring patterns. -/

namespace Sys2Proof.Reference

/-- The first `n` bits of a string, rounded to nearest even. -/
def roundToEven (b : ℚ) (n : Nat) : Nat :=
  firstBits b n + if bitAt b (n + 1) && (bitAt b n || anyBitAfter b (n + 1)) then 1 else 0

theorem firstBits_eq {b : ℚ} {n u : Nat} (hlo : (u : ℚ) ≤ b * 2 ^ n) (hhi : b * 2 ^ n < u + 1) : firstBits b n = u :=
  (Nat.floor_eq_iff ((Nat.cast_nonneg u).trans hlo)).mpr ⟨hlo, hhi⟩

/-- Between `u` and `u + 1` the halfway string is `u` followed by a 1. -/
theorem roundToEven_eq {b : ℚ} {n u : Nat} (hlo : (u : ℚ) ≤ b * 2 ^ n) (hhi : b * 2 ^ n < u + 1) :
    roundToEven b n =
      if (2 * u + 1 : ℚ) < b * 2 ^ (n + 1) ∨ ((2 * u + 1 : ℚ) = b * 2 ^ (n + 1) ∧ u % 2 = 1) then u + 1 else u := by
  have hdouble : b * 2 ^ (n + 1) = 2 * (b * 2 ^ n) := by ring
  have hkept : bitAt b n = decide (u % 2 = 1) := by rw [bitAt, firstBits_eq hlo hhi]
  rw [roundToEven, firstBits_eq hlo hhi, hkept]
  obtain hbelow | habove := lt_or_ge (b * 2 ^ (n + 1)) (2 * u + 1)
  · have hnext : firstBits b (n + 1) = 2 * u := firstBits_eq (by push_cast; linarith) (by push_cast; linarith)
    have hguard : bitAt b (n + 1) = false := by
      rw [bitAt, hnext]
      exact decide_eq_false (by omega)
    have hnot : ¬((2 * u + 1 : ℚ) < b * 2 ^ (n + 1) ∨ ((2 * u + 1 : ℚ) = b * 2 ^ (n + 1) ∧ u % 2 = 1)) := by
      rintro (h | ⟨h, -⟩) <;> linarith
    rw [hguard, if_neg hnot]
    rfl
  · have hnext : firstBits b (n + 1) = 2 * u + 1 := firstBits_eq (by push_cast; linarith) (by push_cast; linarith)
    have hguard : bitAt b (n + 1) = true := by
      rw [bitAt, hnext]
      exact decide_eq_true (by omega)
    have hrest : anyBitAfter b (n + 1) = decide ((2 * u + 1 : ℚ) < b * 2 ^ (n + 1)) := by
      rw [anyBitAfter, hnext, decide_eq_decide]
      push_cast
      exact ⟨fun h => lt_of_le_of_ne habove h.symm, fun h => h.ne'⟩
    rw [hguard, hrest, Bool.true_and, apply_ite (u + ·)]
    refine if_congr ?_ rfl rfl
    rw [Bool.or_eq_true, decide_eq_true_iff, decide_eq_true_iff]
    constructor
    · rintro (hodd | hlt)
      · exact habove.lt_or_eq.imp_right fun h => ⟨h, hodd⟩
      · exact .inl hlt
    · rintro (hlt | ⟨-, hodd⟩)
      · exact .inr hlt
      · exact .inl hodd

variable {c : Cfg} {w : ℚ} {u : Nat}

theorem roundMagnitude_eq (c : Cfg) (w : ℚ) :
    roundMagnitude c w =
      if regimeIndex c w > (c.N : Int) - 2 then Format.maxpos c
      else if regimeIndex c w < -((c.N : Int) - 2) then Format.minpos
      else roundToEven (stringOf c w) (c.N - 1) := by
  have hN : c.N - 1 + 1 = c.N := Nat.sub_add_cancel (Nat.le_of_succ_le c.two_le_N)
  rw [roundToEven, hN]
  rfl

theorem regimeStart_top (c : Cfg) : regimeStart ((c.N : Int) - 2) = 1 - 1 / 2 ^ (c.N - 1) := by
  have hN := c.two_le_N
  have hcast : (c.N : Int) - 2 = (c.N - 2 : Nat) := by omega
  rw [hcast, regimeStart_natCast, ← c.N_sub_one]

theorem regimeStart_bottom (c : Cfg) : regimeStart (-((c.N : Int) - 2)) = 1 / 2 ^ (c.N - 1) := by
  have hN := c.two_le_N
  have hcast : (c.N : Int) - 2 = (c.N - 2 : Nat) := by omega
  rw [hcast, regimeStart_neg_natCast, ← c.N_sub_one]

theorem one_le_maxpos (c : Cfg) : 1 ≤ Format.maxpos c := by
  have hpow : 2 ^ 1 ≤ 2 ^ (c.N - 1) := Nat.pow_le_pow_right Nat.two_pos (Nat.le_sub_of_add_le c.two_le_N)
  rw [Format.maxpos]
  omega

theorem mul_two_pow_N (c : Cfg) (b : ℚ) : b * 2 ^ c.N = 2 * (b * 2 ^ (c.N - 1)) := by
  have hpow : (2 : ℚ) ^ c.N = 2 * 2 ^ (c.N - 1) := by exact_mod_cast Machine.two_pow_N c
  rw [hpow]
  ring

theorem maxpos_cast (c : Cfg) : (Format.maxpos c : ℚ) = 2 ^ (c.N - 1) - 1 := by
  rw [Format.maxpos, Nat.cast_sub Nat.one_le_two_pow]
  push_cast
  rfl

section
variable (hw : 0 < w)
include hw

/-- A string up to maxpos does not saturate upwards, and one from minpos on not downwards. -/
theorem regimeIndex_le_of_stringOf_le (h : stringOf c w * 2 ^ (c.N - 1) ≤ Format.maxpos c) :
    regimeIndex c w ≤ (c.N : Int) - 2 := by
  have htop : stringOf c w ≤ regimeStart ((c.N : Int) - 2) := by
    rw [maxpos_cast] at h
    rw [regimeStart_top, ← sub_nonneg, ← mul_nonneg_iff_of_pos_right (c := (2 : ℚ) ^ (c.N - 1)) (by positivity)]
    field_simp
    linarith
  rw [← not_lt, lt_regimeIndex_iff hw, not_le]
  exact htop.trans_lt (regimeStart_strictMono (lt_add_one _))

theorem le_regimeIndex_of_one_le_stringOf (h : 1 ≤ stringOf c w * 2 ^ (c.N - 1)) :
    -((c.N : Int) - 2) ≤ regimeIndex c w := by
  rw [← not_lt, regimeIndex_lt_iff hw, not_lt, regimeStart_bottom, div_le_iff₀ (by positivity)]
  exact h

theorem roundMagnitude_between (hK : regimeIndex c w ≤ (c.N : Int) - 2) (hu : 1 ≤ u)
    (hlo : (u : ℚ) ≤ stringOf c w * 2 ^ (c.N - 1)) (hhi : stringOf c w * 2 ^ (c.N - 1) < u + 1) :
    roundMagnitude c w =
      if (2 * u + 1 : ℚ) < stringOf c w * 2 ^ c.N ∨ ((2 * u + 1 : ℚ) = stringOf c w * 2 ^ c.N ∧ u % 2 = 1)
        then u + 1 else u := by
  have hN : c.N - 1 + 1 = c.N := Nat.sub_add_cancel (Nat.le_of_succ_le c.two_le_N)
  have hone : (1 : ℚ) ≤ u := by exact_mod_cast hu
  have hbottom := le_regimeIndex_of_one_le_stringOf hw (hone.trans hlo)
  rw [roundMagnitude_eq, if_neg (not_lt.mpr hK), if_neg (not_lt.mpr hbottom), roundToEven_eq hlo hhi, hN]

/-- A number whose string is a pattern is not changed by rounding. -/
theorem roundMagnitude_of_stringOf_eq (hu : 1 ≤ u) (hmax : u ≤ Format.maxpos c) (h : stringOf c w * 2 ^ (c.N - 1) = u) :
    roundMagnitude c w = u := by
  have hK : regimeIndex c w ≤ (c.N : Int) - 2 := regimeIndex_le_of_stringOf_le hw (by rw [h]; exact_mod_cast hmax)
  have hdouble := mul_two_pow_N c (stringOf c w)
  rw [roundMagnitude_between hw hK hu h.ge (by linarith), if_neg]
  rintro (hlt | ⟨heq, -⟩) <;> linarith

theorem one_le_roundMagnitude (c : Cfg) : 1 ≤ roundMagnitude c w := by
  rw [roundMagnitude_eq]
  split
  · exact one_le_maxpos c
  · split
    · exact le_rfl
    · next hbottom =>
      rw [regimeIndex_lt_iff hw, not_lt, regimeStart_bottom, div_le_iff₀ (by positivity)] at hbottom
      exact Nat.le_add_right_of_le (Nat.one_le_floor_iff _ |>.mpr hbottom)

/-- From maxpos on the answer is maxpos: its string leaves the bit after the first N-1 at 0, or the regime is out of range. -/
theorem roundMagnitude_of_maxpos_le (h : Format.maxpos c ≤ stringOf c w * 2 ^ (c.N - 1)) :
    roundMagnitude c w = Format.maxpos c := by
  obtain hsat | hK := lt_or_ge ((c.N : Int) - 2) (regimeIndex c w)
  · rw [roundMagnitude_eq, if_pos hsat]
  have hmax := one_le_maxpos c
  have hbelow : stringOf c w * 2 ^ c.N < 2 * Format.maxpos c + 1 := by
    have hpow : (2 : ℚ) ^ c.N = 2 * 2 ^ (c.N - 1) := by exact_mod_cast Machine.two_pow_N c
    have hlt : stringOf c w < 1 - 1 / 2 ^ c.N := by
      have hN := c.two_le_N
      have hcast : (c.N : Int) - 2 + 1 = (c.N - 1 : Nat) := by omega
      rw [← not_lt, lt_regimeIndex_iff hw, not_le, hcast, regimeStart_natCast,
        Nat.sub_add_cancel (Nat.le_of_succ_le hN)] at hK
      exact hK
    calc stringOf c w * 2 ^ c.N < (1 - 1 / 2 ^ c.N) * 2 ^ c.N := by gcongr
      _ = 2 ^ c.N - 1 := by field_simp
      _ = 2 * Format.maxpos c + 1 := by
        rw [maxpos_cast, hpow]
        ring
  have hdouble := mul_two_pow_N c (stringOf c w)
  rw [roundMagnitude_between hw hK hmax h (by linarith), if_neg]
  rintro (hlt | ⟨heq, -⟩) <;> linarith

/-- Up to minpos the answer is minpos: its string is minpos itself, or the regime is out of range. -/
theorem roundMagnitude_of_le_minpos (h : stringOf c w * 2 ^ (c.N - 1) ≤ 1) : roundMagnitude c w = Format.minpos := by
  have hmax := one_le_maxpos c
  obtain heq | hlt := h.eq_or_lt
  · exact roundMagnitude_of_stringOf_eq hw le_rfl hmax (heq.trans Nat.cast_one.symm)
  · have hone : (1 : ℚ) ≤ Format.maxpos c := by exact_mod_cast hmax
    have hK := regimeIndex_le_of_stringOf_le hw (h.trans hone)
    have hsat : regimeIndex c w < -((c.N : Int) - 2) := by
      rw [regimeIndex_lt_iff hw, regimeStart_bottom, lt_div_iff₀ (by positivity)]
      exact hlt
    rw [roundMagnitude_eq, if_neg (not_lt.mpr hK), if_pos hsat]

end

end Sys2Proof.Reference
end

section
/-! MUL answers the reference product (41_multiplier.md R83): the datapath's sum and fraction are the binary scale and the
fraction of the exact product, so its string is the product's and its rounding the reference's. -/

namespace Sys2Proof.Machine

open Reference

variable {c : Cfg}

/-- Round bit and sticky bit together say whether anything is left after the guard bit. -/
theorem anyBitAfter_eq_bitAt_or {b : ℚ} {S W n : Nat} (hS : b * 2 ^ W = S) (hn : n + 1 ≤ W) :
    anyBitAfter b n = (bitAt b (n + 1) || anyBitAfter b (n + 1)) := by
  have hwidth : W - n = W - (n + 1) + 1 := by omega
  rw [anyBitAfter_eq hS (Nat.le_of_succ_le hn), bitAt_eq_testBit hS hn, anyBitAfter_eq hS hn, hwidth, pow_succ,
    Nat.mod_mul, Nat.testBit_eq_decide_div_mod_eq]
  obtain hbit | hbit := Nat.mod_two_eq_zero_or_one (S / 2 ^ (W - (n + 1)))
  · simp [hbit]
  · simp [hbit]

/-- Without saturation the magnitude is the string, rounded to nearest even. -/
theorem mulSignals_mag_eq_roundToEven (A B : DecodedPorts c) (hHi : (mulSignals A B).satHi = false)
    (hLo : (mulSignals A B).satLo = false) : (mulSignals A B).mag.toNat = roundToEven (mulString A B) (c.N - 1) := by
  have hN : c.N - 1 + 1 = c.N := Nat.sub_add_cancel (Nat.le_of_succ_le c.two_le_N)
  have hrnd : (mulSignals A B).rnd = ((mulSignals A B).G &&
      ((mulSignals A B).L || (mulSignals A B).Rb || (mulSignals A B).St)) := rfl
  rw [mulSignals_mag_toNat_of_not_sat A B hHi hLo, mulSignals_trunc_eq A B hHi hLo, hrnd, mulSignals_G_eq A B hHi hLo,
    mulSignals_L_eq A B hHi hLo, mulSignals_Rb_eq A B hHi hLo, mulSignals_St_eq A B hHi hLo, Bool.or_assoc,
    ← anyBitAfter_eq_bitAt_or (mulString_mul_two_pow A B hHi hLo) (N_lt_WX c), roundToEven, hN]

theorem scaleFactorOf_operand {x : Nat} (v : Voids c) (hx : x < 2 ^ c.N) (fx : Format.isFinite c x = true) :
    (scaleFactorOf (Safety.operand c v x)).toInt = Format.scaleFactor c x := by
  rw [operand_of_finite v hx fx, scaleFactorOf_decodeCircuit hx]

section
variable {x y : Nat} (vA vB : Voids c) (hx : x < 2 ^ c.N) (hy : y < 2 ^ c.N)
  (fx : Format.isFinite c x = true) (fy : Format.isFinite c y = true)
include hx hy fx fy

theorem mulSignals_SS_of_finite :
    (mulSignals (Safety.operand c vA x) (Safety.operand c vB y)).SS.toInt =
      Format.scaleFactor c x + Format.scaleFactor c y +
        (if (mulSignals (Safety.operand c vA x) (Safety.operand c vB y)).ovf then 1 else 0) := by
  rw [← scaleFactorOf_operand vA hx fx, ← scaleFactorOf_operand vB hy fy]
  exact mulSignals_SS_toInt _ _

/-- The normalised fraction, with its leading one, is the product of the significands, halved when it is two or more. -/
theorem one_add_FR_of_finite :
    1 + ((mulSignals (Safety.operand c vA x) (Safety.operand c vB y)).FR.toNat : ℚ) / 2 ^ c.FRW =
      Format.significand c x * Format.significand c y /
        (if (mulSignals (Safety.operand c vA x) (Safety.operand c vB y)).ovf then 2 else 1) := by
  have hP := mulSignals_P_eq_significands vA vB hx hy fx fy
  have hFRW : (2 : ℚ) ^ c.FRW = 2 ^ (c.PW - 2) * 2 := by rw [FRW_eq, pow_succ]
  have hFR : (2 ^ c.FRW + (mulSignals (Safety.operand c vA x) (Safety.operand c vB y)).FR.toNat : ℚ) =
      if (mulSignals (Safety.operand c vA x) (Safety.operand c vB y)).ovf
        then ((mulSignals (Safety.operand c vA x) (Safety.operand c vB y)).P.toNat : ℚ)
        else 2 * (mulSignals (Safety.operand c vA x) (Safety.operand c vB y)).P.toNat := by
    exact_mod_cast hidden_one_add_normalisedFraction (two_pow_le_mulSignals_P vA vB hx hy fx fy)
  rw [one_add_div (by positivity), hFR, hP, hFRW]
  split <;> field_simp

/-- The exact product by the datapath's signals: its scale is the sum SS, its significand the leading one and FR. -/
theorem abs_product_eq_signals :
    |Safety.realValue c x * Safety.realValue c y| =
      2 ^ (mulSignals (Safety.operand c vA x) (Safety.operand c vB y)).SS.toInt *
        (1 + ((mulSignals (Safety.operand c vA x) (Safety.operand c vB y)).FR.toNat : ℚ) / 2 ^ c.FRW) := by
  rw [abs_mul, Safety.abs_realValue fx, Safety.abs_realValue fy, one_add_FR_of_finite vA vB hx hy fx fy,
    mulSignals_SS_of_finite vA vB hx hy fx fy]
  split
  · rw [zpow_add_one₀ two_ne_zero, zpow_add₀ two_ne_zero]
    ring
  · rw [add_zero, zpow_add₀ two_ne_zero]
    ring

omit hx hy in
theorem abs_product_pos : 0 < |Safety.realValue c x * Safety.realValue c y| := by
  rw [abs_mul]
  exact mul_pos (Safety.abs_realValue_pos fx) (Safety.abs_realValue_pos fy)

theorem regimeIndex_product :
    regimeIndex c |Safety.realValue c x * Safety.realValue c y| =
      (mulSignals (Safety.operand c vA x) (Safety.operand c vB y)).K.toInt := by
  have hFR := (mulSignals (Safety.operand c vA x) (Safety.operand c vB y)).FR.isLt
  have hlt : ((mulSignals (Safety.operand c vA x) (Safety.operand c vB y)).FR.toNat : ℚ) / 2 ^ c.FRW < 1 :=
    (div_lt_one (by positivity)).mpr (by exact_mod_cast hFR)
  rw [regimeIndex, abs_product_eq_signals vA vB hx hy fx fy,
    log_two_zpow_mul _ (le_add_of_nonneg_right (by positivity)) (by linarith), mulSignals_K_toInt]

theorem stringOf_product :
    stringOf c |Safety.realValue c x * Safety.realValue c y| =
      mulString (Safety.operand c vA x) (Safety.operand c vB y) := by
  have hFR := (mulSignals (Safety.operand c vA x) (Safety.operand c vB y)).FR.isLt
  have hlt : ((mulSignals (Safety.operand c vA x) (Safety.operand c vB y)).FR.toNat : ℚ) / 2 ^ c.FRW < 1 :=
    (div_lt_one (by positivity)).mpr (by exact_mod_cast hFR)
  rw [abs_product_eq_signals vA vB hx hy fx fy,
    stringOf_zpow_mul c _ (le_add_of_nonneg_right (by positivity)) (by linarith), add_sub_cancel_left,
    ← mulSignals_K_toInt, ← mulSignals_E_toNat, Int.toNat_natCast]
  rfl

/-- The rounded or saturated magnitude is the reference's. -/
theorem mulSignals_mag_of_finite :
    (mulSignals (Safety.operand c vA x) (Safety.operand c vB y)).mag.toNat =
      roundMagnitude c |Safety.realValue c x * Safety.realValue c y| := by
  have hHi := mulSignals_satHi_iff (Safety.operand c vA x) (Safety.operand c vB y)
  have hLo := mulSignals_satLo_iff (Safety.operand c vA x) (Safety.operand c vB y)
  rw [roundMagnitude_eq, regimeIndex_product vA vB hx hy fx fy, stringOf_product vA vB hx hy fx fy]
  split
  · next h => rw [mulSignals_mag_of_satHi (hHi.mpr h), BitVec.toNat_allOnes, Format.maxpos]
  · next h =>
    split
    · next h' => rw [mulSignals_mag_of_satLo (hLo.mpr h'), toNat_one_body]
    · next h' =>
      exact mulSignals_mag_eq_roundToEven _ _ (Bool.eq_false_iff.mpr (mt hHi.mp h)) (Bool.eq_false_iff.mpr (mt hLo.mp h'))

theorem roundMagnitude_product_lt : roundMagnitude c |Safety.realValue c x * Safety.realValue c y| < 2 ^ (c.N - 1) := by
  have v := drawVoids c 0
  rw [← mulSignals_mag_of_finite v v hx hy fx fy]
  exact BitVec.isLt _

omit hx hy in
theorem product_neg_iff :
    Safety.realValue c x * Safety.realValue c y < 0 ↔ (Format.signBit c x ^^ Format.signBit c y) = true := by
  have hx₀ := Safety.realValue_ne_zero fx
  have hy₀ := Safety.realValue_ne_zero fy
  have hx₁ := Safety.realValue_neg_iff fx
  have hy₁ := Safety.realValue_neg_iff fy
  rw [mul_neg_iff, hx₁, hy₁, lt_iff_not_ge, lt_iff_not_ge, hx₀.le_iff_lt, hy₀.le_iff_lt, hx₁, hy₁]
  cases Format.signBit c x <;> cases Format.signBit c y <;> decide

omit hx hy in
theorem mulRef_of_finite :
    mulRef c x y =
      withSign c (Format.signBit c x ^^ Format.signBit c y)
        (roundMagnitude c |Safety.realValue c x * Safety.realValue c y|) := by
  obtain ⟨zx, nx⟩ := Format.isFinite_iff.mp fx
  obtain ⟨zy, ny⟩ := Format.isFinite_iff.mp fy
  have hsign : decide (Safety.realValue c x * Safety.realValue c y < 0) = (Format.signBit c x ^^ Format.signBit c y) := by
    rw [Bool.eq_iff_iff, decide_eq_true_iff]
    exact product_neg_iff fx fy
  rw [mulRef, if_neg (not_or.mpr ⟨nx, ny⟩), if_neg (not_or.mpr ⟨zx, zy⟩), ← hsign]
  rfl

end

theorem mulRef_of_nar {x y : Nat} (h : x = Format.narPattern c ∨ y = Format.narPattern c) :
    mulRef c x y = Format.narPattern c := if_pos h

theorem mulRef_of_zero {x y : Nat} (hn : ¬(x = Format.narPattern c ∨ y = Format.narPattern c))
    (h : x = Format.zeroPattern ∨ y = Format.zeroPattern) : mulRef c x y = Format.zeroPattern :=
  (if_neg hn).trans (if_pos h)

theorem withSign_lt {mag : Nat} (s : Bool) (h : mag < 2 ^ (c.N - 1)) : withSign c s mag < 2 ^ c.N := by
  cases s with
  | true => exact Nat.mod_lt _ (Nat.two_pow_pos _)
  | false => exact Format.lt_two_pow_N h

/-- A pair of patterns by the override's cases (60_exceptions.md R90). -/
theorem operand_cases (c : Cfg) (x y : Nat) :
    (x = Format.narPattern c ∨ y = Format.narPattern c) ∨
    (¬(x = Format.narPattern c ∨ y = Format.narPattern c) ∧ (x = Format.zeroPattern ∨ y = Format.zeroPattern)) ∨
    (Format.isFinite c x = true ∧ Format.isFinite c y = true) := by
  rw [Format.isFinite_iff, Format.isFinite_iff]
  tauto

theorem mulRef_lt {x y : Nat} (hx : x < 2 ^ c.N) (hy : y < 2 ^ c.N) : mulRef c x y < 2 ^ c.N := by
  obtain hn | ⟨hn, hz⟩ | ⟨fx, fy⟩ := operand_cases c x y
  · rw [mulRef_of_nar hn]
    exact narPattern_lt c
  · rw [mulRef_of_zero hn hz]
    exact Nat.two_pow_pos _
  · rw [mulRef_of_finite fx fy]
    exact withSign_lt _ (roundMagnitude_product_lt hx hy fx fy)

/-- The product port is the reference product, special operands included. -/
theorem evaluateMultiplier_mul_r_eq_mulRef (s : State) {x y : Nat} (hx : x < 2 ^ s.cfg.N) (hy : y < 2 ^ s.cfg.N) :
    (evaluateMultiplier s (BitVec.ofNat s.cfg.N x) (BitVec.ofNat s.cfg.N y)).mul.r =
      Safety.patternBits s.cfg (mulRef s.cfg x y) := by
  have v := drawVoids s.cfg s.draws
  have hnar := mulSignals_resNaR_operand v v hx hy
  have hzero := mulSignals_resZero_operand v v hx hy
  obtain hn | ⟨hn, hz⟩ | ⟨fx, fy⟩ := operand_cases s.cfg x y
  · rw [evaluateMultiplier_mul_r_operand s v v, hnar.mpr hn, specialOverride_nar, twoPow_eq_ofNat, mulRef_of_nar hn]
    rfl
  · rw [evaluateMultiplier_mul_r_operand s v v, Bool.eq_false_iff.mpr (mt hnar.mp hn),
      hzero.mpr ⟨hz, not_or.mp hn⟩, specialOverride_zero, mulRef_of_zero hn hz]
    rfl
  · rw [evaluateMultiplier_mul_r_of_finite v v hx hy fx fy, mulSignals_mag_of_finite v v hx hy fx fy,
      mulRef_of_finite fx fy]

/-- Settles O14: the product port is the reference product, and the evaluation writes nothing else. -/
theorem mulAnswersTheReferenceProduct : Obligations.MulAnswersTheReferenceProduct := by
  intro s x y hx hy
  refine ⟨mulRef_lt hx hy, ?_⟩
  rw [exec_mul_of_lt hx hy, ← evaluateMultiplier_mul_r_eq_mulRef s hx hy]
  rfl

end Sys2Proof.Machine
end

section
/-! What the reference product gives for MUL: rounding at the halfway pattern, exactness, sign and magnitude
(41_multiplier.md R81, R83, R85). -/

namespace Sys2Proof.Machine

open Reference

variable {c : Cfg}

theorem patternBits_uint {p : Nat} (h : p < 2 ^ c.N) : (Safety.patternBits c p).uint = p := by
  rw [Safety.patternBits, Bits.uint_of, BitVec.toNat_ofNat, Nat.mod_eq_of_lt h]

theorem evaluateMultiplier_mul_r_uint (s : State) {x y : Nat} (hx : x < 2 ^ s.cfg.N) (hy : y < 2 ^ s.cfg.N) :
    (evaluateMultiplier s (BitVec.ofNat s.cfg.N x) (BitVec.ofNat s.cfg.N y)).mul.r.uint = mulRef s.cfg x y := by
  rw [evaluateMultiplier_mul_r_eq_mulRef s hx hy, patternBits_uint (mulRef_lt hx hy)]

section
variable {mag : Nat} (s : Bool) (h₁ : 1 ≤ mag) (h₂ : mag < 2 ^ (c.N - 1))
include h₁ h₂

theorem withSign_true_eq : withSign c true mag = 2 ^ (c.N - 1) + (2 ^ (c.N - 1) - mag) := by
  have hN := two_pow_N c
  rw [withSign, if_pos rfl, Format.neg_of_pos h₁]
  omega

theorem signBit_withSign : Format.signBit c (withSign c s mag) = s := by
  cases s with
  | true =>
    rw [withSign_true_eq h₁ h₂]
    exact Format.signBit_negative (by omega)
  | false => exact Format.signBit_of_lt h₂

theorem isFinite_withSign : Format.isFinite c (withSign c s mag) = true := by
  cases s with
  | true =>
    rw [withSign_true_eq h₁ h₂]
    exact isFinite_negative (by omega) (by omega)
  | false => exact Format.isFinite_of_lt h₂ (Nat.ne_of_gt h₁)

theorem magnitude_withSign : Format.magnitude c (withSign c s mag) = mag := by
  cases s with
  | true =>
    have hlt : 2 ^ (c.N - 1) - mag < 2 ^ (c.N - 1) := by omega
    have hbody : Format.body c (withSign c true mag) = 2 ^ (c.N - 1) - mag := by
      rw [withSign_true_eq h₁ h₂, Format.body_negative hlt]
    rw [Format.magnitude_of_body_ne_zero (by omega), signBit_withSign true h₁ h₂, if_pos rfl, hbody]
    omega
  | false => exact Format.magnitude_of_lt h₂

theorem absPattern_withSign : Safety.absPattern c (withSign c s mag) = mag := by
  rw [← Format.magnitude_eq_absPattern (withSign_lt s h₂) (isFinite_withSign s h₁ h₂), magnitude_withSign s h₁ h₂]

end

section
variable {x y : Nat} (hx : x < 2 ^ c.N) (hy : y < 2 ^ c.N) (fx : Format.isFinite c x = true)
  (fy : Format.isFinite c y = true)
include hx hy fx fy

theorem absPattern_mulRef :
    Safety.absPattern c (mulRef c x y) = roundMagnitude c |Safety.realValue c x * Safety.realValue c y| := by
  rw [mulRef_of_finite fx fy]
  exact absPattern_withSign _ (one_le_roundMagnitude (abs_product_pos fx fy) c) (roundMagnitude_product_lt hx hy fx fy)

theorem isFinite_mulRef : Format.isFinite c (mulRef c x y) = true := by
  rw [mulRef_of_finite fx fy]
  exact isFinite_withSign _ (one_le_roundMagnitude (abs_product_pos fx fy) c) (roundMagnitude_product_lt hx hy fx fy)

end

theorem stringOf_lt_iff (c : Cfg) {v w : ℚ} (hv : 0 < v) (hw : 0 < w) : stringOf c v < stringOf c w ↔ v < w := by
  constructor
  · intro h
    by_contra hge
    obtain hlt | rfl := (not_lt.mp hge).lt_or_eq
    · exact (h.trans (stringOf_strictMono c hw hlt)).false
    · exact h.false
  · exact stringOf_strictMono c hv

theorem stringOf_inj (c : Cfg) {v w : ℚ} (hv : 0 < v) (hw : 0 < w) : stringOf c v = stringOf c w ↔ v = w := by
  constructor
  · intro h
    refine le_antisymm (not_lt.mp fun hlt => ?_) (not_lt.mp fun hlt => ?_)
    · exact (stringOf_strictMono c hw hlt).ne h.symm
    · exact (stringOf_strictMono c hv hlt).ne h
  · rintro rfl
    rfl

/-- Strings depend on es alone, not on N. -/
theorem stringOf_oneBitWider (c : Cfg) : stringOf (Safety.oneBitWider c) = stringOf c := rfl

theorem oneBitWider_N_sub_one (c : Cfg) : (Safety.oneBitWider c).N - 1 = c.N := rfl

section
variable {u : Nat} (hmax : u < Format.maxpos c)
include hmax

theorem halfway_le_maxpos : 2 * u + 1 ≤ Format.maxpos (Safety.oneBitWider c) := by
  have hN := two_pow_N c
  rw [Format.maxpos] at hmax
  rw [Format.maxpos, oneBitWider_N_sub_one]
  omega

theorem halfway_pos : 0 < Safety.realValue (Safety.oneBitWider c) (2 * u + 1) :=
  Safety.realValue_pos (Nat.le_add_left 1 _) (halfway_le_maxpos hmax)

/-- A pattern of one bit more has its own string, which is one bit longer. -/
theorem stringOf_halfway :
    stringOf c (Safety.realValue (Safety.oneBitWider c) (2 * u + 1)) = (2 * u + 1) / 2 ^ c.N := by
  rw [← stringOf_oneBitWider, Safety.stringOf_realValue (Nat.le_add_left 1 _) (halfway_le_maxpos hmax),
    oneBitWider_N_sub_one]
  push_cast
  rfl

end

/-- Between two neighbours the magnitude is decided by the halfway pattern. -/
theorem roundMagnitude_by_halfway {w : ℚ} {u : Nat} (hu : 1 ≤ u) (hmax : u < Format.maxpos c)
    (hlo : Safety.realValue c u < w) (hhi : w < Safety.realValue c (u + 1)) :
    roundMagnitude c w =
      if Safety.realValue (Safety.oneBitWider c) (2 * u + 1) < w ∨
        (Safety.realValue (Safety.oneBitWider c) (2 * u + 1) = w ∧ u % 2 = 1) then u + 1 else u := by
  have hpow : (0 : ℚ) < 2 ^ (c.N - 1) := by positivity
  have hpow' : (0 : ℚ) < 2 ^ c.N := by positivity
  have hupos := Safety.realValue_pos hu hmax.le
  have hw : 0 < w := hupos.trans hlo
  have hbelow : (u : ℚ) < stringOf c w * 2 ^ (c.N - 1) := by
    rw [← div_lt_iff₀ hpow, ← Safety.stringOf_realValue hu hmax.le]
    exact stringOf_strictMono c hupos hlo
  have habove : stringOf c w * 2 ^ (c.N - 1) < u + 1 := by
    rw [← lt_div_iff₀ hpow, ← Nat.cast_add_one, ← Safety.stringOf_realValue (Nat.le_add_left 1 u) hmax]
    exact stringOf_strictMono c hw hhi
  have hroom : ((u : ℚ) + 1) ≤ Format.maxpos c := by exact_mod_cast hmax
  have hlt := stringOf_lt_iff c (halfway_pos hmax) hw
  have heq := stringOf_inj c (halfway_pos hmax) hw
  rw [stringOf_halfway hmax, div_lt_iff₀ hpow'] at hlt
  rw [stringOf_halfway hmax, div_eq_iff hpow'.ne'] at heq
  rw [roundMagnitude_between hw (regimeIndex_le_of_stringOf_le hw (habove.le.trans hroom)) hu hbelow.le habove]
  exact if_congr (or_congr hlt (and_congr_left' heq)) rfl rfl

/-- Settles O15: below minpos, above maxpos and between neighbours the magnitude is read off the product's string. -/
theorem mulRoundsByTheHalfwayPattern : Obligations.MulRoundsByTheHalfwayPattern := by
  intro s x y hx hy fx fy w
  have hw : 0 < w := abs_product_pos fx fy
  have hpow : (0 : ℚ) < 2 ^ (s.cfg.N - 1) := by positivity
  have hmax := one_le_maxpos s.cfg
  refine ⟨_, exec_mul_of_lt hx hy, ?_⟩
  rw [evaluateMultiplier_mul_r_uint s hx hy, absPattern_mulRef hx hy fx fy]
  refine ⟨fun h => ?_, fun h => ?_, fun u hu hlt hlo hhi => roundMagnitude_by_halfway hu hlt hlo hhi⟩
  · refine roundMagnitude_of_maxpos_le hw ?_
    rw [← div_le_iff₀ hpow, ← Safety.stringOf_realValue hmax le_rfl, ← not_lt,
      stringOf_lt_iff _ hw (Safety.realValue_pos hmax le_rfl), not_lt]
    exact h
  · refine roundMagnitude_of_le_minpos hw ?_
    have hstring : stringOf s.cfg (Safety.realValue s.cfg Format.minpos) = (1 : Nat) / 2 ^ (s.cfg.N - 1) :=
      Safety.stringOf_realValue le_rfl hmax
    have hmin : 0 < Safety.realValue s.cfg Format.minpos := Safety.realValue_pos le_rfl hmax
    rw [← le_div_iff₀ hpow, ← Nat.cast_one, ← hstring, ← not_lt, stringOf_lt_iff _ hmin hw, not_lt]
    exact h

/-- A product that is the value of a pattern is that pattern. -/
theorem mulRef_of_representable {x y z : Nat} (hz : z < 2 ^ c.N) (fx : Format.isFinite c x = true)
    (fy : Format.isFinite c y = true)
    (h : Format.value c z = some (Safety.realValue c x * Safety.realValue c y)) : mulRef c x y = z := by
  have hne : Safety.realValue c x * Safety.realValue c y ≠ 0 :=
    mul_ne_zero (Safety.realValue_ne_zero fx) (Safety.realValue_ne_zero fy)
  have fz : Format.isFinite c z = true := by
    refine Format.isFinite_iff.mpr ⟨?_, ?_⟩
    · rintro rfl
      rw [Format.value, if_neg (narPattern_ne_zero c).symm, if_pos rfl, Option.some_inj] at h
      exact hne h.symm
    · rintro rfl
      rw [Format.value, if_pos rfl] at h
      cases h
  rw [Safety.value_eq_realValue fz, Option.some_inj] at h
  have hmagnitude := Format.magnitude_lt c z
  have hround : roundMagnitude c |Safety.realValue c z| = Format.magnitude c z := by
    refine roundMagnitude_of_stringOf_eq (Safety.abs_realValue_pos fz)
      (Nat.one_le_iff_ne_zero.mpr (Format.magnitude_ne_zero hz fz)) (Nat.le_sub_one_of_lt hmagnitude) ?_
    rw [Safety.stringOf_abs_realValue hz fz]
    exact div_mul_cancel₀ _ (by positivity)
  have hsign : (Format.signBit c x ^^ Format.signBit c y) = Format.signBit c z := by
    rw [Bool.eq_iff_iff, ← product_neg_iff fx fy, ← h, Safety.realValue_neg_iff fz]
  rw [mulRef_of_finite fx fy, ← h, hround, hsign]
  exact withSign_magnitude hz fz

/-- Settles O30: the product's string is the pattern's, and rounding keeps it. -/
theorem representableProductsAreExact : Obligations.RepresentableProductsAreExact := by
  intro s x y z hx hy hz fx fy h
  refine ⟨_, exec_mul_of_lt hx hy, ?_⟩
  rw [evaluateMultiplier_mul_r_eq_mulRef s hx hy, mulRef_of_representable hz fx fy h]

/-- Settles O21: the magnitude is the rounded one, which is at least minpos and has N-1 bits. -/
theorem finiteProductIsSignedMagnitude : Obligations.FiniteProductIsSignedMagnitude := by
  intro s x y hx hy fx fy
  have hlt := roundMagnitude_product_lt hx hy fx fy
  refine ⟨_, roundMagnitude s.cfg |Safety.realValue s.cfg x * Safety.realValue s.cfg y|, exec_mul_of_lt hx hy,
    one_le_roundMagnitude (abs_product_pos fx fy) s.cfg, Nat.le_sub_one_of_lt hlt, ?_⟩
  rw [evaluateMultiplier_mul_r_uint s hx hy]
  exact ⟨mulRef_of_finite fx fy, isFinite_mulRef hx hy fx fy⟩

end Sys2Proof.Machine
end

section
/-! maxpos, minpos and one: views of a run alone (40_decoder.md R65, 30_encoding.md R46). -/

namespace Sys2Proof.Format

variable {c : Cfg} {rc : Bool} {m : Nat}

theorem tailFits_zero (c : Cfg) (m : Nat) : tailFits c m 0 0 = true := by simp [tailFits]

theorem runFits_maxpos (c : Cfg) : runFits c true (c.N - 1) := ⟨Nat.le_sub_of_add_le c.two_le_N, le_rfl⟩

theorem runFits_one (c : Cfg) : runFits c true 1 := ⟨le_rfl, Nat.le_sub_of_add_le c.two_le_N⟩

theorem runFits_minpos (hN : 3 ≤ c.N) : runFits c false (c.N - 2) := ⟨Nat.le_sub_of_add_le hN, le_rfl⟩

theorem maxpos_eq_assemble (c : Cfg) : maxpos c = assemble c true (c.N - 1) 0 0 := (runPart_ones_full c).symm

theorem one_eq_assemble (c : Cfg) : one c = assemble c true 1 0 0 := by
  have hrunPart := runPart_ones c 1
  rw [pow_one, Nat.one_mul] at hrunPart
  exact hrunPart.symm

theorem minpos_eq_assemble (hN : 3 ≤ c.N) : minpos = assemble c false (c.N - 2) 0 0 := by
  have hrunPart := runPart_zeros (runFits_minpos hN)
  rw [tailBits, Nat.sub_self, pow_zero] at hrunPart
  exact hrunPart.symm

/-- A view of a run alone is a power of the base `2^(2^es)`. -/
theorem value_assemble_run (hm : runFits c rc m) :
    value c (assemble c rc m 0 0) = some ((2 : ℚ) ^ (regimeOf rc m * 2 ^ c.es)) := by
  have ht := tailFits_zero c m
  have hlt := assemble_lt hm ht
  have hview := magnitude_of_lt hlt
  have hscale : scaleFactor c (assemble c rc m 0 0) = regimeOf rc m * 2 ^ c.es := by
    rw [scaleFactor, hview, regime, regimeCheck_assemble hm ht, regimeRun_assemble hm ht, exponent_assemble hm ht,
      Nat.cast_zero, add_zero]
  have hsignificand : significand c (assemble c rc m 0 0) = 1 := by
    rw [significand_eq, hview, fraction_assemble hm ht, Nat.cast_zero, zero_div, add_zero]
  rw [value_of_finite (isFinite_of_lt hlt (assemble_ne_zero hm 0 0)), signBit_of_lt hlt, if_neg Bool.false_ne_true,
    pow_zero, one_mul, hscale, hsignificand, mul_one]

theorem value_one (c : Cfg) : value c (one c) = some 1 := by
  have hregime : regimeOf true 1 = 0 := rfl
  rw [one_eq_assemble, value_assemble_run (runFits_one c), hregime, zero_mul, zpow_zero]

theorem one_lt (c : Cfg) : one c < 2 ^ (c.N - 1) := by
  rw [one_eq_assemble]
  exact assemble_lt (runFits_one c) (tailFits_zero c 1)

theorem isFinite_one (c : Cfg) : isFinite c (one c) = true := isFinite_of_lt (one_lt c) (Nat.two_pow_pos _).ne'

end Sys2Proof.Format

namespace Sys2Proof.Machine

open Reference

theorem mulRef_one {c : Cfg} {x : Nat} (hx : x < 2 ^ c.N) : mulRef c (Format.one c) x = x := by
  obtain ⟨hz, hn⟩ := Format.isFinite_iff.mp (Format.isFinite_one c)
  obtain hnar | ⟨hnar, hzero⟩ | ⟨fone, fx⟩ := operand_cases c (Format.one c) x
  · rw [mulRef_of_nar hnar, hnar.resolve_left hn]
  · rw [mulRef_of_zero hnar hzero, hzero.resolve_left hz]
  · refine mulRef_of_representable hx fone fx ?_
    rw [Safety.value_eq_realValue fx, Safety.realValue, Safety.realValue, Format.value_one, Option.getD_some, one_mul]

/-- Settles O19: the value of `one` is 1, so the product is the value of the other operand. -/
theorem oneIsTheIdentity : Obligations.OneIsTheIdentity := by
  intro s x hx
  have hone := Format.lt_two_pow_N (Format.one_lt s.cfg)
  refine ⟨_, exec_mul_of_lt hone hx, ?_⟩
  rw [evaluateMultiplier_mul_r_eq_mulRef s hone hx, mulRef_one hx]

/-- DECODE of a view of a run alone: its regime, with exponent and fraction 0. -/
theorem exec_decode_run (s : State) {rc : Bool} {m : Nat} (hm : Format.runFits s.cfg rc m) :
    ∃ t, exec (.decode (Format.assemble s.cfg rc m 0 0)) s = .next t
      ∧ t.dec.regSign = rc ∧ t.dec.regMag.uint = m - 1 ∧ t.dec.reg.sint = Format.regimeOf rc m
      ∧ t.dec.exp.uint = 0 ∧ t.dec.frac.uint = 2 ^ (s.cfg.FW - 1) := by
  have ht := Format.tailFits_zero s.cfg m
  obtain ⟨-, -, -, hsign, hmag, hreg, hexp, hfrac⟩ := evaluateDecoder_assemble s hm ht
  rw [Nat.zero_mul, Nat.add_zero] at hfrac
  exact ⟨_, exec_decode_of_lt (Format.lt_two_pow_N (Format.assemble_lt hm ht)), hsign, hmag, hreg, hexp, hfrac⟩

/-- Settles O13: the three patterns are runs of N-1 ones, N-2 zeros and one 1. -/
theorem extremePatternsDecode : Obligations.ExtremePatternsDecode := by
  intro s
  have hN := s.cfg.two_le_N
  refine ⟨?_, fun hN₃ => ?_, ?_⟩
  · obtain ⟨t, ht, hsign, hmag, hreg, hexp, hfrac⟩ := exec_decode_run s (Format.runFits_maxpos s.cfg)
    have hregime : Format.regimeOf true (s.cfg.N - 1) = (s.cfg.N : Int) - 2 := by
      rw [Format.regimeOf, if_pos rfl]
      omega
    rw [Format.maxpos_eq_assemble, ← hregime]
    exact ⟨t, ht, hsign, hmag, hreg, hexp, hfrac, Format.value_assemble_run (Format.runFits_maxpos s.cfg)⟩
  · obtain ⟨t, ht, hsign, hmag, hreg, hexp, hfrac⟩ := exec_decode_run s (Format.runFits_minpos hN₃)
    have hregime : Format.regimeOf false (s.cfg.N - 2) = -((s.cfg.N : Int) - 2) := by
      rw [Format.regimeOf, if_neg Bool.false_ne_true]
      omega
    rw [Format.minpos_eq_assemble hN₃, ← hregime]
    exact ⟨t, ht, hsign, hmag, hreg, hexp, hfrac, Format.value_assemble_run (Format.runFits_minpos hN₃)⟩
  · obtain ⟨t, ht, hsign, -, hreg, hexp, hfrac⟩ := exec_decode_run s (Format.runFits_one s.cfg)
    rw [Format.one_eq_assemble] at *
    exact ⟨t, ht, hsign, hreg, hexp, hfrac, Format.one_eq_assemble s.cfg ▸ Format.value_one s.cfg⟩

end Sys2Proof.Machine
end

section
/-! Negation of a pattern: the other sign, the same magnitude (30_encoding.md R40). -/

namespace Sys2Proof.Format

variable {c : Cfg} {x y mag : Nat}

theorem neg_lt (n x : Nat) : neg n x < 2 ^ n := Nat.mod_lt _ (Nat.two_pow_pos _)

theorem one_le_magnitude (h : x < 2 ^ c.N) (hf : isFinite c x = true) : 1 ≤ magnitude c x :=
  Nat.one_le_iff_ne_zero.mpr (magnitude_ne_zero h hf)

theorem neg_withSign (s : Bool) (h₁ : 1 ≤ mag) (h₂ : mag < 2 ^ (c.N - 1)) :
    neg c.N (Reference.withSign c s mag) = Reference.withSign c (!s) mag := by
  have hN := Machine.two_pow_N c
  cases s with
  | false => rfl
  | true =>
    rw [Machine.withSign_true_eq h₁ h₂, neg_of_pos (by omega), Bool.not_true, Reference.withSign,
      if_neg Bool.false_ne_true]
    omega

section
variable (h : x < 2 ^ c.N) (hf : isFinite c x = true)
include h hf

/-- The negation of a finite pattern is its magnitude under the other sign. -/
theorem neg_eq_withSign : neg c.N x = Reference.withSign c (!signBit c x) (magnitude c x) := by
  conv_lhs => rw [← Machine.withSign_magnitude h hf]
  exact neg_withSign _ (one_le_magnitude h hf) (magnitude_lt c x)

theorem isFinite_neg : isFinite c (neg c.N x) = true := by
  rw [neg_eq_withSign h hf]
  exact Machine.isFinite_withSign _ (one_le_magnitude h hf) (magnitude_lt c x)

theorem signBit_neg : signBit c (neg c.N x) = !signBit c x := by
  rw [neg_eq_withSign h hf]
  exact Machine.signBit_withSign _ (one_le_magnitude h hf) (magnitude_lt c x)

theorem magnitude_neg : magnitude c (neg c.N x) = magnitude c x := by
  rw [neg_eq_withSign h hf]
  exact Machine.magnitude_withSign _ (one_le_magnitude h hf) (magnitude_lt c x)

theorem abs_realValue_neg : |Safety.realValue c (neg c.N x)| = |Safety.realValue c x| := by
  rw [Safety.abs_realValue (isFinite_neg h hf), Safety.abs_realValue hf, scaleFactor, scaleFactor, significand,
    significand, magnitude_neg h hf]

end

end Sys2Proof.Format

namespace Sys2Proof.Machine

open Reference

/-- The magnitude ports of finite patterns depend on the magnitude view alone. -/
theorem evaluateDecoder_ports_of_magnitude_eq {s : State} {x y : Nat} (hx : x < 2 ^ s.cfg.N) (hy : y < 2 ^ s.cfg.N)
    (fx : Format.isFinite s.cfg x = true) (fy : Format.isFinite s.cfg y = true)
    (h : Format.magnitude s.cfg x = Format.magnitude s.cfg y) :
    let p := (evaluateDecoder s (BitVec.ofNat s.cfg.N x)).dec
    let q := (evaluateDecoder s (BitVec.ofNat s.cfg.N y)).dec
    p.regSign = q.regSign ∧ p.regMag = q.regMag ∧ p.reg = q.reg ∧ p.exp = q.exp ∧ p.frac = q.frac := by
  have hview : magnitudeView (c := s.cfg) (BitVec.ofNat s.cfg.N x) = magnitudeView (BitVec.ofNat s.cfg.N y) :=
    BitVec.eq_of_toNat_eq (by rw [magnitudeView_ofNat hx, magnitudeView_ofNat hy, h])
  rw [evaluateDecoder_dec_of_finite hx fx, evaluateDecoder_dec_of_finite hy fy]
  simp [decodeCircuit, hview, nonzeroBody_of_finite hx fx, nonzeroBody_of_finite hy fy]

/-- Settles O12: a finite pattern and its negation have one magnitude view. -/
theorem negationKeepsMagnitudeFields : Obligations.NegationKeepsMagnitudeFields := by
  intro s x hx hf
  have hneg := Format.neg_lt s.cfg.N x
  refine ⟨_, _, exec_decode_of_lt hx, exec_decode_of_lt hneg, ?_,
    evaluateDecoder_ports_of_magnitude_eq hneg hx (Format.isFinite_neg hx hf) hf (Format.magnitude_neg hx hf)⟩
  rw [evaluateDecoder_sign_ofNat, evaluateDecoder_sign_ofNat, Format.signBit_neg hx hf]

theorem mulRef_comm (c : Cfg) (x y : Nat) : mulRef c x y = mulRef c y x := by
  obtain hn | ⟨hn, hz⟩ | ⟨fx, fy⟩ := operand_cases c x y
  · rw [mulRef_of_nar hn, mulRef_of_nar hn.symm]
  · rw [mulRef_of_zero hn hz, mulRef_of_zero (mt Or.symm hn) hz.symm]
  · rw [mulRef_of_finite fx fy, mulRef_of_finite fy fx, mul_comm, Bool.xor_comm]

/-- Settles O18: the reference product is commutative. -/
theorem mulCommutes : Obligations.MulCommutes := by
  intro s x y hx hy
  refine ⟨_, _, exec_mul_of_lt hx hy, exec_mul_of_lt hy hx, ?_⟩
  rw [evaluateMultiplier_mul_r_eq_mulRef s hx hy, evaluateMultiplier_mul_r_eq_mulRef s hy hx, mulRef_comm]

theorem mulRef_neg {c : Cfg} {x y : Nat} (hx : x < 2 ^ c.N) (hy : y < 2 ^ c.N) (fx : Format.isFinite c x = true)
    (fy : Format.isFinite c y = true) : mulRef c (Format.neg c.N x) y = Format.neg c.N (mulRef c x y) := by
  have hround : roundMagnitude c |Safety.realValue c (Format.neg c.N x) * Safety.realValue c y| =
      roundMagnitude c |Safety.realValue c x * Safety.realValue c y| := by
    rw [abs_mul, abs_mul, Format.abs_realValue_neg hx fx]
  rw [mulRef_of_finite (Format.isFinite_neg hx fx) fy, mulRef_of_finite fx fy, hround,
    Format.neg_withSign _ (one_le_roundMagnitude (abs_product_pos fx fy) c) (roundMagnitude_product_lt hx hy fx fy),
    Format.signBit_neg hx fx, Bool.not_xor]

/-- Settles O20: the negated operand has the same magnitude and the other sign. -/
theorem negatedOperandNegatesTheProduct : Obligations.NegatedOperandNegatesTheProduct := by
  intro s x y hx hy fx fy
  have hneg := Format.neg_lt s.cfg.N x
  refine ⟨_, _, exec_mul_of_lt hx hy, exec_mul_of_lt hneg hy, ?_⟩
  rw [evaluateMultiplier_mul_r_uint s hneg hy, evaluateMultiplier_mul_r_uint s hx hy, mulRef_neg hx hy fx fy]

end Sys2Proof.Machine
end

section
/-! Ranges of the regime, of a scale factor and of a sum of two, and the widths that hold them (00_scope.md R8, R9). -/

namespace Sys2Proof.Machine

/-- `clog2 n` is the least width whose power of two reaches `n`. -/
theorem clog2_le {n w : Nat} (h : n ≤ 2 ^ w) : clog2 n ≤ w := by
  unfold clog2
  split
  · exact Nat.zero_le w
  · next hn =>
    refine (Nat.log2_lt (by omega)).mpr ?_
    omega

end Sys2Proof.Machine

namespace Sys2Proof.Format

variable {c : Cfg} {x y : Nat}

theorem regime_le (c : Cfg) (y : Nat) : regime c y ≤ (c.N : Int) - 2 := by
  have hle := regimeRun_le c y
  have hN := c.two_le_N
  cases hrc : regimeCheck c y with
  | true =>
    rw [regime_of_ones hrc]
    omega
  | false =>
    rw [regime_of_zeros hrc]
    omega

theorem neg_le_regime (h : y < 2 ^ (c.N - 1)) (hne : y ≠ 0) : -((c.N : Int) - 2) ≤ regime c y := by
  have hpos := regimeRun_pos c y
  have hN := c.two_le_N
  cases hrc : regimeCheck c y with
  | true =>
    rw [regime_of_ones hrc]
    omega
  | false =>
    have hroom := regimeRun_le_of_regimeCheck_false h hne hrc
    rw [regime_of_zeros hrc]
    omega

theorem neg_le_scaleFactor (h : x < 2 ^ c.N) (hf : isFinite c x = true) :
    -((c.N : Int) - 2) * 2 ^ c.es ≤ scaleFactor c x := by
  have hk := neg_le_regime (magnitude_lt c x) (magnitude_ne_zero h hf)
  calc -((c.N : Int) - 2) * 2 ^ c.es ≤ regime c (magnitude c x) * 2 ^ c.es := by gcongr
    _ ≤ scaleFactor c x := le_add_of_nonneg_right (Int.natCast_nonneg _)

theorem scaleFactor_lt (c : Cfg) (x : Nat) : scaleFactor c x < ((c.N : Int) - 1) * 2 ^ c.es := by
  have hk := regime_le c (magnitude c x)
  have he : (exponent c (magnitude c x) : Int) < 2 ^ c.es := by exact_mod_cast exponent_lt c (magnitude c x)
  calc scaleFactor c x < regime c (magnitude c x) * 2 ^ c.es + 2 ^ c.es := by
        rw [scaleFactor]
        gcongr
    _ ≤ ((c.N : Int) - 2) * 2 ^ c.es + 2 ^ c.es := by gcongr
    _ = ((c.N : Int) - 1) * 2 ^ c.es := by ring

/-- The range of a sum of two scale factors and a carry. -/
theorem scaleFactor_sum_bounds (hx : x < 2 ^ c.N) (hy : y < 2 ^ c.N) (fx : isFinite c x = true)
    (fy : isFinite c y = true) (carry : Bool) :
    -2 * ((c.N : Int) - 2) * 2 ^ c.es ≤ scaleFactor c x + scaleFactor c y + (if carry then 1 else 0) ∧
      scaleFactor c x + scaleFactor c y + (if carry then 1 else 0) ≤ 2 * ((c.N : Int) - 1) * 2 ^ c.es - 1 := by
  have hx₁ := neg_le_scaleFactor hx fx
  have hx₂ := scaleFactor_lt c x
  have hy₁ := neg_le_scaleFactor hy fy
  have hy₂ := scaleFactor_lt c y
  have hcarry : (0 : Int) ≤ (if carry then 1 else 0) ∧ (if carry then 1 else 0) ≤ (1 : Int) := by
    cases carry <;> decide
  obtain ⟨hc₁, hc₂⟩ := hcarry
  constructor
  · linarith
  · linarith

end Sys2Proof.Format

namespace Sys2Proof.Machine

variable {c : Cfg}

/-- Settles O22: the sum of the two combined scale factors is exact, in the range of scale-factor sums. -/
theorem scaleFactorSumNeverWraps : Obligations.ScaleFactorSumNeverWraps := by
  intro c vA vB x y hx hy fx fy g
  have hSS := mulSignals_SS_of_finite vA vB hx hy fx fy
  refine ⟨scaleFactorOf_operand vA hx fx, scaleFactorOf_operand vB hy fy, rfl, hSS, ?_⟩
  have hbounds := Format.scaleFactor_sum_bounds hx hy fx fy g.ovf
  rw [← hSS] at hbounds
  exact hbounds

/-- Settles O24: the product has room in PW bits, and each significand's leading one is the top bit of its port. -/
theorem significandProductIsExact : Obligations.SignificandProductIsExact := fun _ =>
  ⟨mulSignals_P_toNat, fun vA vB _ _ hx hy fx fy => two_pow_le_mulSignals_P vA vB hx hy fx fy⟩

theorem N_le_two_pow_RFW (c : Cfg) : (c.N : Int) ≤ 2 ^ c.RFW := by exact_mod_cast le_two_pow_clog2 c.N

/-- A number of regimes below N fits above es bits of exponent in RFW + es bits. -/
theorem mul_two_pow_es_le {k : Int} (hk : k ≤ c.N) : k * 2 ^ c.es ≤ 2 ^ (c.RFW + c.es) := by
  rw [pow_add]
  exact mul_le_mul_of_nonneg_right (hk.trans (N_le_two_pow_RFW c)) (by positivity)

/-- Settles O52: each width is RFW, the bits of the exponent and one bit for each sign or sum. -/
theorem derivedWidthsSuffice : Obligations.DerivedWidthsSuffice := by
  intro c
  have hN := N_le_two_pow_RFW c
  have hKW : c.KW - 1 = c.RFW := rfl
  have hSFW : c.SFW - 1 = c.RFW + c.es := by
    show c.RFW + 1 + c.es - 1 = _
    omega
  have hSSW : c.SSW - 1 = c.RFW + c.es + 1 := by
    show c.RFW + 1 + c.es + 1 - 1 = _
    omega
  have hlo := mul_two_pow_es_le (c := c) (k := (c.N : Int) - 2) (by omega)
  have hhi := mul_two_pow_es_le (c := c) (k := (c.N : Int) - 1) (by omega)
  refine ⟨le_two_pow_clog2 c.N, fun w => clog2_le, fun x hx fx => ?_, fun x y carry hx hy fx fy => ?_⟩
  · have hk₁ := Format.neg_le_regime (Format.magnitude_lt c x) (Format.magnitude_ne_zero hx fx)
    have hk₂ := Format.regime_le c (Format.magnitude c x)
    have hsf₁ := Format.neg_le_scaleFactor hx fx
    have hsf₂ := Format.scaleFactor_lt c x
    rw [hKW, hSFW]
    exact ⟨hk₂, hk₁, by omega, by omega, hsf₁, by omega, by linarith, by linarith⟩
  · obtain ⟨hsum₁, hsum₂⟩ := Format.scaleFactor_sum_bounds hx hy fx fy carry
    rw [hSSW, pow_succ]
    exact ⟨hsum₂, hsum₁, by linarith, by linarith⟩

/-- Settles O29: the cases of the override, and within the datapath's result those of the rounded magnitude. -/
theorem specialConditionsResolveInOrder : Obligations.SpecialConditionsResolveInOrder := by
  intro s x y hx hy
  refine ⟨_, exec_mul_of_lt hx hy, fun vA vB => ?_⟩
  have hAn : (Safety.operand s.cfg vA x).isNaR = decide (x = Format.narPattern s.cfg) :=
    (decodePorts_isNaR _ _).trans (isNaRFlag_ofNat hx)
  have hBn : (Safety.operand s.cfg vB y).isNaR = decide (y = Format.narPattern s.cfg) :=
    (decodePorts_isNaR _ _).trans (isNaRFlag_ofNat hy)
  have hAz : (Safety.operand s.cfg vA x).isZero = decide (x = Format.zeroPattern) :=
    (decodePorts_isZero _ _).trans (isZeroFlag_ofNat hx)
  have hBz : (Safety.operand s.cfg vB y).isZero = decide (y = Format.zeroPattern) :=
    (decodePorts_isZero _ _).trans (isZeroFlag_ofNat hy)
  have hsign := mulSignals_s_operand vA vB x y
  have hport := evaluateMultiplier_mul_r_eq_mulRef s hx hy
  simp only [hAn, hBn, hAz, hBz, decide_eq_true_iff, decide_eq_false_iff_not, hsign]
  refine ⟨?_, not_satHi_and_satLo _ _, fun hn => ?_, fun hxn hyn hz => ?_, fun fx fy => ?_⟩
  · rintro ⟨hz, hn⟩
    exact narPattern_ne_zero s.cfg (hn.symm.trans hz)
  · rw [hport, mulRef_of_nar hn]
  · rw [hport, mulRef_of_zero (not_or.mpr ⟨hxn, hyn⟩) hz]
  · have hmag := evaluateMultiplier_mul_r_of_finite vA vB hx hy fx fy
    refine ⟨fun hHi => ?_, fun hLo => ?_, fun hHi hLo => ?_⟩
    · rw [hmag, mulSignals_mag_of_satHi hHi, BitVec.toNat_allOnes, Format.maxpos]
    · rw [hmag, mulSignals_mag_of_satLo hLo, toNat_one_body]
    · rw [hmag, mulSignals_mag_toNat_of_not_sat _ _ hHi hLo]

end Sys2Proof.Machine
end

section
/-! What an instruction can do, by its frame, and when it completes (10_state.md sections 1 to 4, 60_exceptions.md R88). -/

namespace Sys2Proof.Machine

theorem exec_names {i : Instr} {s t : State} (h : exec i s = .next t) : t.names = s.names := by
  obtain ⟨-, ⟨x, y, -, rfl⟩ | ⟨x, -, rfl⟩⟩ := exec_cases h
  · exact evaluateMultiplier_names s _ _
  · exact evaluateDecoder_names s _

theorem exec_pending {i : Instr} {s t : State} (h : exec i s = .next t) : t.pending = s.pending := by
  obtain ⟨-, ⟨x, y, -, rfl⟩ | ⟨x, -, rfl⟩⟩ := exec_cases h
  · exact evaluateMultiplier_pending s _ _
  · exact evaluateDecoder_pending s _

theorem exec_completes {i : Instr} {s : State} (h : i.wellFormed s.cfg = true) : ∃ t, exec i s = .next t := by
  cases i with
  | mul x y =>
    obtain ⟨hx, hy⟩ := wellFormed_mul.mp h
    exact ⟨_, exec_mul_of_lt hx hy⟩
  | _ => exact ⟨_, exec_of_decoderPattern rfl h⟩

/-- Settles O39: by the lemma that says when an instruction completes; a fault has no constructor. -/
theorem wellFormedInstructionsNeverStop : Obligations.WellFormedInstructionsNeverStop := by
  intro s i
  exact ⟨⟨exec_completes, fun ⟨_, h⟩ => (exec_cases h).1⟩, nofun⟩

/-- Settles O41: an evaluation writes the ports of its own block. -/
theorem operationsWriteOnlyTheirOwnPorts : Obligations.OperationsWriteOnlyTheirOwnPorts := by
  intro s t i h
  refine ⟨exec_cfg h, exec_names h, exec_pending h, ?_⟩
  obtain ⟨-, ⟨x, y, rfl, rfl⟩ | ⟨x, hx, rfl⟩⟩ := exec_cases h
  · exact evaluateMultiplier_dec s _ _
  · cases i with
    | mul => cases hx
    | _ => exact evaluateDecoder_mul s _

end Sys2Proof.Machine
end

section
/-! The invariant: good ports after every evaluation, and names bound once to good results. -/

namespace Sys2Proof.Safety

open Machine Reference

variable {c : Cfg}

/-- The ports of any decoder evaluation are good. -/
theorem decoderPortsOk_evaluateDecoder (s : State) (X : BitVec s.cfg.N) :
    decoderPortsOk s.cfg (evaluateDecoder s X).dec = true := by
  have hx := X.isLt
  have hX : X = BitVec.ofNat s.cfg.N X.toNat := by simp
  have hsign : X.msb = Format.signBit s.cfg X.toNat := by rw [← msb_ofNat, ← hX]
  have hzero : isZeroFlag X = decide (X.toNat = Format.zeroPattern) := by rw [← isZeroFlag_ofNat hx, ← hX]
  have hnar : isNaRFlag X = decide (X.toNat = Format.narPattern s.cfg) := by rw [← isNaRFlag_ofNat hx, ← hX]
  have hmarker : nonzeroBody X = Format.isFinite s.cfg X.toNat := by rw [← nonzeroBody_eq_isFinite hx, ← hX]
  simp [decoderPortsOk, hsign, hzero, hnar, hmarker, beq_eq_decide]

theorem mulRef_eq_nar_iff {x y : Nat} (hx : x < 2 ^ c.N) (hy : y < 2 ^ c.N) :
    mulRef c x y = Format.narPattern c ↔ x = Format.narPattern c ∨ y = Format.narPattern c := by
  obtain hn | ⟨hn, hz⟩ | ⟨fx, fy⟩ := operand_cases c x y
  · simp [mulRef_of_nar hn, hn]
  · simp [mulRef_of_zero hn hz, hn, (narPattern_ne_zero c).symm]
  · have hfinite := (Format.isFinite_iff.mp (isFinite_mulRef hx hy fx fy)).2
    simp [hfinite, (Format.isFinite_iff.mp fx).2, (Format.isFinite_iff.mp fy).2]

theorem mulRef_eq_zero_iff {x y : Nat} (hx : x < 2 ^ c.N) (hy : y < 2 ^ c.N) :
    mulRef c x y = Format.zeroPattern ↔
      (x = Format.zeroPattern ∨ y = Format.zeroPattern) ∧ x ≠ Format.narPattern c ∧ y ≠ Format.narPattern c := by
  obtain hn | ⟨hn, hz⟩ | ⟨fx, fy⟩ := operand_cases c x y
  · rw [mulRef_of_nar hn]
    exact iff_of_false (narPattern_ne_zero c) fun h => (not_or.mpr h.2) hn
  · rw [mulRef_of_zero hn hz]
    exact iff_of_true rfl ⟨hz, not_or.mp hn⟩
  · have hfinite := (Format.isFinite_iff.mp (isFinite_mulRef hx hy fx fy)).1
    simp [hfinite, (Format.isFinite_iff.mp fx).1, (Format.isFinite_iff.mp fy).1]

/-- The ports of any multiplier evaluation are good. -/
theorem multiplierPortsOk_evaluateMultiplier (s : State) (X Y : BitVec s.cfg.N) :
    multiplierPortsOk s.cfg (evaluateMultiplier s X Y).mul = true := by
  have hr : (evaluateMultiplier s X Y).mul.r = patternBits s.cfg (mulRef s.cfg X.toNat Y.toNat) := by
    have h := evaluateMultiplier_mul_r_eq_mulRef s X.isLt Y.isLt
    simpa using h
  have hx : (evaluateMultiplier s X Y).mul.x = Bits.of X := rfl
  have hy : (evaluateMultiplier s X Y).mul.y = Bits.of Y := rfl
  have hwidth : (patternBits s.cfg (mulRef s.cfg X.toNat Y.toNat)).width = s.cfg.N := rfl
  have hnar := mulRef_eq_nar_iff X.isLt Y.isLt
  have hzero := mulRef_eq_zero_iff X.isLt Y.isLt
  rw [multiplierPortsOk, hr, hx, hy, hwidth, patternBits_uint (mulRef_lt X.isLt Y.isLt)]
  simp only [Bits.of_width, Bits.uint_of, beq_self_eq_true, Bool.true_and, Bool.and_eq_true, beq_iff_eq]
  refine ⟨Bool.eq_iff_iff.mpr ?_, Bool.eq_iff_iff.mpr ?_⟩
  · simpa using hnar
  · simpa [and_assoc] using hzero

theorem inv_iff {s : State} :
    Inv s = true ↔ decoderPortsOk s.cfg s.dec = true ∧ multiplierPortsOk s.cfg s.mul = true ∧
      (s.names.map Prod.fst).Nodup ∧ ∀ b ∈ s.names, boundOk s.cfg b.2 = true := by
  simp [Inv, and_assoc]

/-- An instruction keeps the invariant: it writes good ports on one block. -/
theorem exec_keeps_inv {i : Instr} {s t : State} (hs : Inv s = true) (h : exec i s = .next t) : Inv t = true := by
  obtain ⟨hdec, hmul, hnodup, hbound⟩ := inv_iff.mp hs
  obtain ⟨-, ⟨x, y, -, rfl⟩ | ⟨x, -, rfl⟩⟩ := exec_cases h
  · exact inv_iff.mpr ⟨hdec, multiplierPortsOk_evaluateMultiplier s _ _, hnodup, hbound⟩
  · exact inv_iff.mpr ⟨decoderPortsOk_evaluateDecoder s _, hmul, hnodup, hbound⟩

/-- The result of a line is good when the ports are. -/
theorem boundOk_lineResult {t : State} (op : Operation) (ht : Inv t = true) : boundOk t.cfg (lineResult op t) = true := by
  obtain ⟨hdec, hmul, -, -⟩ := inv_iff.mp ht
  cases op with
  | decode x => exact hdec
  | mul x y =>
    simp only [multiplierPortsOk, Bool.and_eq_true, beq_iff_eq] at hmul
    obtain ⟨⟨⟨-, hwidth⟩, -⟩, -⟩ := hmul
    exact beq_iff_eq.mpr hwidth

/-- Binding a new name keeps the invariant. -/
theorem bindResult_keeps_inv {mv : Move} {t : State} (ht : Inv t = true)
    (hnew : ∀ l, mv = .line l → t.names.lookup l.dst = none) : Inv (bindResult mv t) = true := by
  cases mv with
  | word n w => exact ht
  | line l =>
    have hresult := boundOk_lineResult l.op ht
    have hfresh := List.lookup_eq_none_iff.mp (hnew l rfl)
    obtain ⟨hdec, hmul, hnodup, hbound⟩ := inv_iff.mp ht
    refine inv_iff.mpr ⟨hdec, hmul, ?_, ?_⟩
    · refine List.nodup_cons.mpr ⟨fun hmem => ?_, hnodup⟩
      obtain ⟨b, hb, heq⟩ := List.mem_map.mp hmem
      exact absurd heq.symm (by simpa using hfresh b hb)
    · intro b hb
      obtain rfl | hb := List.mem_cons.mp hb
      · exact hresult
      · exact hbound b hb

/-- A line that is read as an instruction binds a new name. -/
theorem lookup_eq_none_of_fetchMove {s : State} {mv : Move} {i : Instr} (h : fetchMove s mv = .ok i) :
    ∀ l, mv = .line l → s.names.lookup l.dst = none := by
  rintro l rfl
  obtain ⟨d, hd, -⟩ := fetchMove_eq_ok.mp h
  exact (resolveMove_line_eq_ok.mp hd).1

/-- Settles O43: a step is idle, or an instruction and the binding of a new name, and both keep the invariant. -/
theorem stepKeepsTheInvariant : Obligations.StepKeepsTheInvariant := by
  intro s t hs hstep
  obtain ⟨-, rfl⟩ | ⟨mv, rest, i, u, -, hfetch, hexec, rfl⟩ := step_cases hstep
  · exact hs
  · have hu : Inv u = true := exec_keeps_inv (s := { s with pending := rest }) hs hexec
    refine bindResult_keeps_inv hu fun l hl => ?_
    rw [exec_names hexec]
    exact lookup_eq_none_of_fetchMove hfetch l hl

end Sys2Proof.Safety
end

section
/-! Admitted interactions are never refused (60_exceptions.md section 6). -/

namespace Sys2Proof.Safety

open Machine

variable {c : Cfg} {s : State}

theorem lookup_kinds (names : List (Name × Bound)) (n : Name) :
    (kinds names).lookup n = (names.lookup n).map boundKind := by
  induction names with
  | nil => rfl
  | cons b names ih =>
    obtain ⟨m, v⟩ := b
    change ((m, boundKind v) :: kinds names).lookup n = _
    rw [List.lookup_cons, List.lookup_cons, ih]
    split <;> rfl

theorem mem_of_lookup {α β : Type} [BEq α] [LawfulBEq α] {l : List (α × β)} {a : α} {b : β} (h : l.lookup a = some b) :
    (a, b) ∈ l := by
  obtain ⟨l₁, l₂, rfl, -⟩ := List.lookup_eq_some_iff.mp h
  simp

/-- An admitted operand resolves to a pattern: a literal of N bits, or a name bound to a product. -/
theorem resolveOperand_of_admitted {x : Operand} (hs : Inv s = true) (h : x.admitted s.cfg (kinds s.names) = true) :
    ∃ p, resolveOperand s.names x = .ok p ∧ p < 2 ^ s.cfg.N := by
  cases x with
  | lit x => exact ⟨x, rfl, of_decide_eq_true h⟩
  | name n =>
    have hkind : (s.names.lookup n).map boundKind = some true := by
      rw [← lookup_kinds]
      exact beq_iff_eq.mp h
    obtain ⟨b, hb, hpattern⟩ := Option.map_eq_some_iff.mp hkind
    cases b with
    | record d => cases hpattern
    | pattern p =>
      obtain ⟨-, -, -, hbound⟩ := inv_iff.mp hs
      have hwidth : p.width = s.cfg.N := beq_iff_eq.mp (hbound _ (mem_of_lookup hb))
      refine ⟨p.uint, by simp [resolveOperand, hb], ?_⟩
      rw [← hwidth]
      exact p.uint_lt

/-- An admitted operation resolves to a drive that decodes. -/
theorem resolveOperation_of_admitted {l : Line} (hs : Inv s = true) (h : l.admitted s.cfg (kinds s.names) = true) :
    ∃ d i, resolveOperation s.names l.op = .ok d ∧ decode s.cfg d = .ok i := by
  obtain ⟨dst, op⟩ := l
  simp only [Line.admitted, Bool.and_eq_true] at h
  obtain ⟨-, hop⟩ := h
  cases op with
  | decode x =>
    obtain ⟨p, hp, hlt⟩ := resolveOperand_of_admitted hs hop
    exact ⟨.decoder p, .decode p, by simp [resolveOperation, hp], if_pos hlt⟩
  | mul x y =>
    obtain ⟨hx, hy⟩ := Bool.and_eq_true_iff.mp hop
    obtain ⟨p, hp, hltp⟩ := resolveOperand_of_admitted hs hx
    obtain ⟨q, hq, hltq⟩ := resolveOperand_of_admitted hs hy
    exact ⟨.multiplier p q, .mul p q, by simp [resolveOperation, hp, hq], if_pos ⟨hltp, hltq⟩⟩

theorem lookup_eq_none_of_admitted {l : Line} (h : l.admitted s.cfg (kinds s.names) = true) :
    s.names.lookup l.dst = none := by
  simp only [Line.admitted, Bool.and_eq_true, lookup_kinds] at h
  simpa using h.1

/-- The names known after a move: a line adds its own. -/
def knownAfter (known : Bound.Kinds) : Move → Bound.Kinds
  | .line l => (l.dst, l.op.yieldsPattern) :: known
  | .word _ _ => known

/-- An admitted head is read as a well-formed instruction, and the rest is admitted after it. -/
theorem movesAdmitted_cons {mv : Move} {rest : List Move} (hs : Inv s = true)
    (h : movesAdmitted s.cfg (kinds s.names) (mv :: rest) = true) :
    (∃ i, fetchMove s mv = .ok i ∧ i.wellFormed s.cfg = true) ∧
      movesAdmitted s.cfg (knownAfter (kinds s.names) mv) rest = true := by
  cases mv with
  | line l =>
    simp only [movesAdmitted, Bool.and_eq_true] at h
    obtain ⟨hl, hrest⟩ := h
    obtain ⟨d, i, hd, hi⟩ := resolveOperation_of_admitted hs hl
    exact ⟨⟨i, fetchMove_eq_ok.mpr ⟨d, resolveMove_line_eq_ok.mpr ⟨lookup_eq_none_of_admitted hl, hd⟩, hi⟩,
      (decodedDrivesAreEncodings s.cfg d i hi).1⟩, hrest⟩
  | word n w =>
    simp only [movesAdmitted, Bool.and_eq_true] at h
    obtain ⟨hw, hrest⟩ := h
    cases hi : decode s.cfg (.word n w) with
    | error why =>
      rw [hi] at hw
      cases hw
    | ok i => exact ⟨⟨i, fetchMove_word s n w hi, (decodedDrivesAreEncodings s.cfg _ i hi).1⟩, hrest⟩

theorem kinds_bindResult (mv : Move) (t : State) : kinds (bindResult mv t).names = knownAfter (kinds t.names) mv := by
  cases mv with
  | word n w => rfl
  | line l =>
    obtain ⟨dst, op⟩ := l
    cases op <;> rfl

theorem admitted_iff : Admitted s = true ↔ Inv s = true ∧ movesAdmitted s.cfg (kinds s.names) s.pending = true := by
  rw [Admitted, Bool.and_eq_true]

/-- Settles O44: an admitted head is read and completes, and binding its name leaves the rest admitted. -/
theorem admittedStatesStepToAdmittedStates : Obligations.AdmittedStatesStepToAdmittedStates := by
  intro s hs
  obtain ⟨hinv, hmoves⟩ := admitted_iff.mp hs
  cases hp : s.pending with
  | nil => exact ⟨s, by simp [step, hp, idle], hs⟩
  | cons mv rest =>
    rw [hp] at hmoves
    obtain ⟨⟨i, hfetch, hwf⟩, hrest⟩ := movesAdmitted_cons hinv hmoves
    obtain ⟨u, hexec⟩ := exec_completes (s := { s with pending := rest }) hwf
    have hstep := step_of_fetch hp hfetch hexec
    refine ⟨_, hstep, admitted_iff.mpr ⟨stepKeepsTheInvariant s _ hinv hstep, ?_⟩⟩
    have hcfg : u.cfg = s.cfg := exec_cfg (s := { s with pending := rest }) hexec
    have hnames : u.names = s.names := exec_names (s := { s with pending := rest }) hexec
    have hpending : u.pending = rest := exec_pending (s := { s with pending := rest }) hexec
    rw [bindResult_cfg, kinds_bindResult, bindResult_pending, hcfg, hnames, hpending]
    exact hrest

theorem inv_fresh (c : Cfg) : Inv (State.fresh c) = true := by
  have hsign : Format.signBit c 0 = false := Nat.zero_testBit _
  have hnar : ¬0 = Format.narPattern c := (narPattern_ne_zero c).symm
  refine inv_iff.mpr ⟨?_, ?_, List.nodup_nil, nofun⟩
  · simp [decoderPortsOk, State.fresh, DecoderPorts.reset, hsign, hnar, Format.isFinite, Format.zeroPattern]
  · simp [multiplierPortsOk, State.fresh, MultiplierPorts.reset, hnar, Format.zeroPattern]

/-- Settles O42: the invariant holds in a fresh state of any configuration. -/
theorem resetMeetsTheInvariant : Obligations.ResetMeetsTheInvariant := inv_fresh Cfg.atReset

theorem movesAdmitted_lines (c : Cfg) (known : Bound.Kinds) (lines : List Line) :
    movesAdmitted c known (lines.map Move.line) = linesAdmitted c known lines := by
  induction lines generalizing known with
  | nil => rfl
  | cons l rest ih => simp only [List.map_cons, movesAdmitted, linesAdmitted, ih]

theorem run_succ_of_step {M : Host.Core} {s t : M.State} (h : M.step s = .next t) (k : Nat) :
    M.run (k + 1) s = M.run k t := by
  rw [Host.Core.run, h]

/-- Admitted states run for any number of steps. -/
theorem run_of_admitted (k : Nat) (h : Admitted s = true) : ∃ t, core.run k s = .next t := by
  induction k generalizing s with
  | zero => exact ⟨s, rfl⟩
  | succ k ih =>
    obtain ⟨t, hstep, ht⟩ := admittedStatesStepToAdmittedStates s h
    obtain ⟨u, hu⟩ := ih ht
    exact ⟨u, (run_succ_of_step (M := core) hstep k).trans hu⟩

/-- Settles O45: a loaded program is an admitted state. -/
theorem admittedProgramsRunForever : Obligations.AdmittedProgramsRunForever := by
  intro p c hN hes hlines
  refine ⟨{ State.fresh c with pending := p.lines.map Move.line }, ?_, rfl, rfl, fun k => run_of_admitted k ?_⟩
  · rw [loadProgram, hN, hes, construct_of_cfg]
  · refine admitted_iff.mpr ⟨inv_fresh c, ?_⟩
    exact (movesAdmitted_lines c [] p.lines).trans hlines

end Sys2Proof.Safety
end

section
/-! The Wallace tree (log 16): a row of full adders keeps the sum of three words, so every level keeps the sum of all, and
the partial products sum to the product. -/

namespace Sys2Proof.Machine.Architecture

/-- The majority of three numbers, bit by bit: the carries of a row of full adders, before they move to their weight. -/
def majority (x y z : Nat) : Nat := (x &&& y) ||| (x &&& z) ||| (y &&& z)

theorem majority_div_two (x y z : Nat) : majority x y z / 2 = majority (x / 2) (y / 2) (z / 2) := by
  simp only [majority, Nat.or_div_two, Nat.and_div_two]

/-- One full adder: the low bits of the sum word and of the carries. -/
theorem lowBit_sum_add_carry (x y z : Nat) :
    (x ^^^ y ^^^ z) % 2 + 2 * (majority x y z % 2) = x % 2 + y % 2 + z % 2 := by
  have hsum := Nat.xor_mod_two_eq_one (a := x ^^^ y) (b := z)
  have hsum' := Nat.xor_mod_two_eq_one (a := x) (b := y)
  have hcarry : majority x y z % 2 = 1 ↔
      (x % 2 = 1 ∧ y % 2 = 1) ∨ (x % 2 = 1 ∧ z % 2 = 1) ∨ (y % 2 = 1 ∧ z % 2 = 1) := by
    simp only [majority, Nat.or_mod_two_eq_one, Nat.and_mod_two_eq_one, or_assoc]
  omega

/-- A row of full adders keeps the sum of its three words. -/
theorem xor_add_two_mul_majority {x y z w : Nat} (hx : x < 2 ^ w) (hy : y < 2 ^ w) (hz : z < 2 ^ w) :
    (x ^^^ y ^^^ z) + 2 * majority x y z = x + y + z := by
  induction w generalizing x y z with
  | zero =>
    rw [pow_zero, Nat.lt_one_iff] at hx hy hz
    subst hx hy hz
    rfl
  | succ w ih =>
    rw [pow_succ] at hx hy hz
    have hhigh := ih (x := x / 2) (y := y / 2) (z := z / 2) (by omega) (by omega) (by omega)
    rw [← majority_div_two, ← Nat.xor_div_two, ← Nat.xor_div_two] at hhigh
    have hlow := lowBit_sum_add_carry x y z
    omega

variable {w : Nat}

theorem sumWord_add_carryWord (x y z : BitVec w) : sumWord x y z + carryWord x y z = x + y + z := by
  have hrow := xor_add_two_mul_majority x.isLt y.isLt z.isLt
  apply BitVec.eq_of_toNat_eq
  calc (sumWord x y z + carryWord x y z).toNat
      = ((x.toNat ^^^ y.toNat ^^^ z.toNat) + 2 * majority x.toNat y.toNat z.toNat) % 2 ^ w := by
        simp [sumWord, carryWord, majority, Nat.shiftLeft_eq, mul_comm]
    _ = (x + y + z).toNat := by
        rw [hrow]
        simp

theorem sum_level : ∀ words : List (BitVec w), (level words).sum = words.sum
  | x :: y :: z :: rest => by
    rw [level, List.sum_cons, List.sum_cons, sum_level rest, ← add_assoc, sumWord_add_carryWord, List.sum_cons,
      List.sum_cons, List.sum_cons, add_assoc, add_assoc]
  | [] => rfl
  | [_] => rfl
  | [_, _] => rfl

theorem length_level_le : ∀ words : List (BitVec w), (level words).length ≤ words.length
  | x :: y :: z :: rest => by
    have ih := length_level_le rest
    simp only [level, List.length_cons]
    omega
  | [] => le_rfl
  | [_] => le_rfl
  | [_, _] => le_rfl

/-- With as many levels as words above two, the tree ends in the sum of all words. -/
theorem reduceTree_eq_sum (depth : Nat) (words : List (BitVec w)) (h : words.length ≤ depth + 2) :
    reduceTree depth words = words.sum := by
  induction depth generalizing words with
  | zero =>
    match words, h with
    | [], _ => rfl
    | [x], _ => simp [reduceTree]
    | [x, y], _ => simp [reduceTree]
    | _ :: _ :: _ :: _, h => simp at h
  | succ depth ih =>
    match words, h with
    | [], _ => rfl
    | [x], _ => simp [reduceTree]
    | [x, y], _ => simp [reduceTree]
    | x :: y :: z :: rest, h =>
      have hrest := length_level_le rest
      have hshort : (level (x :: y :: z :: rest)).length ≤ depth + 2 := by
        simp only [level, List.length_cons] at h ⊢
        omega
      rw [reduceTree, ih _ hshort, sum_level]
      all_goals simp

/-- The partial products of the lowest `n` bits sum to the product with the number those bits make. -/
theorem sum_partialProducts_range (A : BitVec w) {v : Nat} (b : BitVec v) (n : Nat) :
    ((List.range n).map fun i => if b.getLsbD i then A <<< i else 0#w).sum = A * BitVec.ofNat w (b.toNat % 2 ^ n) := by
  induction n with
  | zero => simp [Nat.mod_one]
  | succ n ih =>
    have hbits : b.toNat % 2 ^ (n + 1) = b.toNat % 2 ^ n + if b.getLsbD n then 2 ^ n else 0 := by
      rw [pow_succ, Nat.mod_mul, ← BitVec.testBit_toNat, Nat.testBit_eq_decide_div_mod_eq]
      obtain hbit | hbit := Nat.mod_two_eq_zero_or_one (b.toNat / 2 ^ n)
      · simp [hbit]
      · simp [hbit]
    rw [List.range_succ, List.map_append, List.sum_append, ih, hbits, BitVec.ofNat_add, mul_add]
    rw [List.map_singleton, List.sum_singleton]
    congr 1
    split
    · rw [BitVec.shiftLeft_eq_mul_twoPow, twoPow_eq_ofNat]
    · exact (mul_zero A).symm

theorem sum_partialProducts {c : Cfg} (a b : BitVec c.FW) : (partialProducts a b).sum = significandProduct a b := by
  have hwidth : BitVec.ofNat c.PW (b.toNat % 2 ^ c.FW) = b.setWidth c.PW := by
    rw [Nat.mod_eq_of_lt b.isLt, BitVec.ofNat_toNat]
  rw [partialProducts, sum_partialProducts_range, hwidth, significandProduct]

theorem wallaceProduct_eq {c : Cfg} (a b : BitVec c.FW) : wallaceProduct a b = significandProduct a b := by
  have hlength : (partialProducts a b).length = c.FW := by simp [partialProducts]
  rw [wallaceProduct, reduceTree_eq_sum _ _ (by omega), sum_partialProducts]

/-- Settles O55: the tree keeps the sum of the partial products, which is the product. -/
theorem wallaceTreeGivesTheExactProduct : Obligations.WallaceTreeGivesTheExactProduct := by
  intro c a b
  rw [wallaceProduct_eq]
  exact ⟨rfl, significandProduct_toNat a b⟩

end Sys2Proof.Machine.Architecture
end

section
/-! Construction and the configuration error (00_scope.md R7, 60_exceptions.md R87). -/

namespace Sys2Proof.Machine

variable {N es : Int}

theorem construct_of_N_lt (hN : N < 2) : construct N es = .refused (.configError .nTooSmall N es) := if_pos hN

theorem construct_of_es_neg (hN : 2 ≤ N) (hes : es < 0) : construct N es = .refused (.configError .esNegative N es) :=
  (if_neg (not_lt.mpr hN)).trans (if_pos hes)

theorem construct_of_width_neg (hN : 2 ≤ N) (hes : 0 ≤ es) (hF : N - es - 2 < 0) :
    construct N es = .refused (.configError .fractionWidthNegative N es) :=
  (if_neg (not_lt.mpr hN)).trans ((if_neg (not_lt.mpr hes)).trans (if_pos hF))

/-- A legal pair is a configuration. -/
theorem exists_cfg_of_legal (h : 2 ≤ N ∧ 0 ≤ es ∧ 0 ≤ N - es - 2) : ∃ c : Cfg, N = c.N ∧ es = c.es := by
  obtain ⟨hN, hes, hF⟩ := h
  exact ⟨⟨N.toNat, es.toNat, by omega, by omega⟩, by simp; omega, by simp; omega⟩

theorem construct_of_legal (h : 2 ≤ N ∧ 0 ≤ es ∧ 0 ≤ N - es - 2) :
    ∃ c : Cfg, N = c.N ∧ es = c.es ∧ construct N es = .next (State.fresh c) := by
  obtain ⟨c, rfl, rfl⟩ := exists_cfg_of_legal h
  exact ⟨c, rfl, rfl, construct_of_cfg c⟩

theorem construct_of_not_legal (h : ¬(2 ≤ N ∧ 0 ≤ es ∧ 0 ≤ N - es - 2)) :
    ∃ r, construct N es = .refused (.configError r N es) := by
  obtain hN | hN := lt_or_ge N 2
  · exact ⟨_, construct_of_N_lt hN⟩
  obtain hes | hes := lt_or_ge es 0
  · exact ⟨_, construct_of_es_neg hN hes⟩
  · exact ⟨_, construct_of_width_neg hN hes (not_le.mp fun hF => h ⟨hN, hes, hF⟩)⟩

/-- Settles O2: the three checks in their order. -/
theorem configErrorNamesFirstFailingCheck : Obligations.ConfigErrorNamesFirstFailingCheck := fun _ _ =>
  ⟨construct_of_N_lt, construct_of_es_neg, construct_of_width_neg⟩

/-- Settles O1: a legal pair builds the fresh state of its configuration, and any other fails a check. -/
theorem constructionSucceedsExactlyOnLegalPairs : Obligations.ConstructionSucceedsExactlyOnLegalPairs := by
  intro N es
  have hlegal {s : State} (hs : construct N es = .next s) : 2 ≤ N ∧ 0 ≤ es ∧ 0 ≤ N - es - 2 := by
    by_contra hnot
    obtain ⟨r, hr⟩ := construct_of_not_legal hnot
    cases hs.symm.trans hr
  refine ⟨⟨fun ⟨s, hs⟩ => hlegal hs, fun h => ?_⟩, by omega, fun s hs => ?_, construct_of_not_legal⟩
  · obtain ⟨c, -, -, hc⟩ := construct_of_legal h
    exact ⟨_, hc⟩
  · obtain ⟨c, hN, hes, hc⟩ := construct_of_legal (hlegal hs)
    cases hs.symm.trans hc
    exact ⟨hN.symm, hes.symm⟩

end Sys2Proof.Machine
end

section
/-! DECODE on every pattern, zero and NaR included, and the operand-class rows (30_encoding.md R38 to R40, 40_decoder.md R53,
R54, 10_state.md R24). -/

namespace Sys2Proof.Machine

/-- Settles O3: the flags and the sign are the circuit's on every pattern. -/
theorem decodeCompletesOnEveryPattern : Obligations.DecodeCompletesOnEveryPattern := by
  intro s x hx
  have hzero : (evaluateDecoder s (BitVec.ofNat s.cfg.N x)).dec.isZero = true ↔ x = 0 := by
    rw [evaluateDecoder_isZero, isZeroFlag_ofNat hx, decide_eq_true_iff, Format.zeroPattern]
  have hnar : (evaluateDecoder s (BitVec.ofNat s.cfg.N x)).dec.isNaR = true ↔ x = 2 ^ (s.cfg.N - 1) := by
    rw [evaluateDecoder_isNaR, isNaRFlag_ofNat hx, decide_eq_true_iff, Format.narPattern]
  refine ⟨(evaluateDecoder s (BitVec.ofNat s.cfg.N x)).dec, exec_decode_of_lt hx, rfl, evaluateDecoder_sign_ofNat s x, ?_,
    hzero, hnar, ?_, rfl, rfl, rfl, rfl⟩
  · rw [nonzeroBody_ofNat hx, decide_eq_true_iff, Format.body]
  · rw [hzero, hnar]
    rintro ⟨rfl, h⟩
    exact (Nat.two_pow_pos _).ne h

/-- With a flag raised, everything but sign, flags and marker is what the decoder drives on its void outputs. -/
theorem decodePorts_of_flag {c : Cfg} (v : Voids c) {X : BitVec c.N} (h : (isZeroFlag X || isNaRFlag X) = true) :
    decodePorts v X =
      { sign := X.msb, isZero := isZeroFlag X, isNaR := isNaRFlag X, regSign := v.regSign, regMag := v.regMag
        reg := v.reg, exp := v.exp, frac := fracPort (nonzeroBody X) v.fracLow } := by
  simp [decodePorts, decodeCircuit, h]

/-- Settles O9: on the two special patterns the void outputs are the draws. -/
theorem voidOutputsAreTheDrawnValues : Obligations.VoidOutputsAreTheDrawnValues := by
  intro s x hspecial v
  have hnar : 2 ^ (s.cfg.N - 1) ≠ 0 := (Nat.two_pow_pos _).ne'
  have hx : x < 2 ^ s.cfg.N := by
    obtain rfl | rfl := hspecial
    · exact Nat.two_pow_pos _
    · exact narPattern_lt s.cfg
  have hzeroFlag : isZeroFlag (c := s.cfg) (BitVec.ofNat s.cfg.N x) = decide (x = 0) := isZeroFlag_ofNat hx
  have hnarFlag : isNaRFlag (c := s.cfg) (BitVec.ofNat s.cfg.N x) = decide (x ≠ 0) := by
    rw [isNaRFlag_ofNat hx, decide_eq_decide, Format.narPattern]
    obtain rfl | rfl := hspecial
    · exact iff_of_false hnar.symm (fun h => h rfl)
    · exact iff_of_true rfl hnar
  have hsign : (BitVec.ofNat s.cfg.N x).msb = decide (x ≠ 0) := by
    rw [msb_ofNat, Format.signBit]
    obtain rfl | rfl := hspecial
    · simp
    · simp
  have hbody : nonzeroBody (c := s.cfg) (BitVec.ofNat s.cfg.N x) = false := by
    rw [nonzeroBody_ofNat hx, decide_eq_false_iff_not, not_not, Format.body]
    obtain rfl | rfl := hspecial
    · exact Nat.zero_mod _
    · exact Nat.mod_self _
  have hflag : (isZeroFlag (c := s.cfg) (BitVec.ofNat s.cfg.N x) || isNaRFlag (BitVec.ofNat s.cfg.N x)) = true := by
    rw [hzeroFlag, hnarFlag]
    by_cases h : x = 0 <;> simp [h]
  refine ⟨_, exec_decode_of_lt hx, ?_⟩
  rw [evaluateDecoder_dec, decodePorts_of_flag _ hflag, hzeroFlag, hnarFlag, hsign, hbody]
  rfl

theorem evaluateDecoder_isZero_ofNat {s : State} {x : Nat} (hx : x < 2 ^ s.cfg.N) :
    (evaluateDecoder s (BitVec.ofNat s.cfg.N x)).dec.isZero = decide (x = Format.zeroPattern) :=
  (evaluateDecoder_isZero s _).trans (isZeroFlag_ofNat hx)

theorem evaluateDecoder_isNaR_ofNat {s : State} {x : Nat} (hx : x < 2 ^ s.cfg.N) :
    (evaluateDecoder s (BitVec.ofNat s.cfg.N x)).dec.isNaR = decide (x = Format.narPattern s.cfg) :=
  (evaluateDecoder_isNaR s _).trans (isNaRFlag_ofNat hx)

theorem evaluateDecoder_marker_ofNat {s : State} {x : Nat} (hx : x < 2 ^ s.cfg.N) :
    (evaluateDecoder s (BitVec.ofNat s.cfg.N x)).dec.frac.uint.testBit (s.cfg.FW - 1) = Format.isFinite s.cfg x :=
  (evaluateDecoder_marker s _).trans (nonzeroBody_eq_isFinite hx)

/-- Settles O31: the flags mark exactly the two special patterns, and every other value is not 0. -/
theorem zeroAndNaRRowsComplete : Obligations.ZeroAndNaRRowsComplete := by
  intro s
  have hzeroLt : Format.zeroPattern < 2 ^ s.cfg.N := Nat.two_pow_pos _
  have hnarLt := narPattern_lt s.cfg
  have hne := narPattern_ne_zero s.cfg
  refine ⟨⟨(evaluateDecoder s (BitVec.ofNat s.cfg.N Format.zeroPattern)).dec, exec_of_decoderPattern rfl rfl, rfl,
      ?_, ?_, ?_, ?_, ?_⟩,
    ⟨(evaluateDecoder s (BitVec.ofNat s.cfg.N (Format.narPattern s.cfg))).dec, exec_of_decoderPattern rfl rfl, rfl,
      ?_, ?_, ?_, ?_, ?_⟩, fun x hx hz hn => ?_⟩
  · rw [evaluateDecoder_isZero_ofNat hzeroLt, decide_eq_true rfl]
  · rw [evaluateDecoder_isNaR_ofNat hzeroLt, decide_eq_false hne.symm]
  · rw [evaluateDecoder_sign_ofNat]
    exact Nat.zero_testBit _
  · rw [evaluateDecoder_marker_ofNat hzeroLt]
    rfl
  · have hvalue : Format.value s.cfg Format.zeroPattern = some 0 := (if_neg hne.symm).trans (if_pos rfl)
    rw [← hvalue]
    exact congrArg _ (patternBits_uint hzeroLt)
  · rw [evaluateDecoder_isZero_ofNat hnarLt, decide_eq_false hne]
  · rw [evaluateDecoder_isNaR_ofNat hnarLt, decide_eq_true rfl]
  · rw [evaluateDecoder_sign_ofNat]
    exact Nat.testBit_two_pow_self
  · rw [evaluateDecoder_marker_ofNat hnarLt]
    simp [Format.isFinite]
  · have hvalue : Format.value s.cfg (Format.narPattern s.cfg) = none := if_pos rfl
    rw [← hvalue]
    exact congrArg _ (patternBits_uint hnarLt)
  · have hf := Format.isFinite_iff.mpr ⟨hz, hn⟩
    obtain ⟨hz', hn'⟩ := evaluateDecoder_flags_of_finite hx hf
    exact ⟨_, exec_decode_of_lt hx, hz', hn', _, Safety.value_eq_realValue hf, Safety.realValue_ne_zero hf⟩

/-- Settles O32: a negative body's magnitude view is its negation. -/
theorem finiteClassRowsComplete : Obligations.FiniteClassRowsComplete := by
  intro s b hpos hlt
  have hne : b ≠ 0 := hpos.ne'
  have hneg := Format.negative_lt hlt
  have hfneg := isFinite_negative hlt hne
  have habs : 2 ^ (s.cfg.N - 1) - b < 2 ^ (s.cfg.N - 1) := by omega
  have hfabs := Format.isFinite_of_lt habs (by omega)
  have hview : Format.magnitude s.cfg (2 ^ (s.cfg.N - 1) + b) = Format.magnitude s.cfg (2 ^ (s.cfg.N - 1) - b) := by
    rw [Format.magnitude_of_lt habs, Format.magnitude_of_body_ne_zero (by rwa [Format.body_negative hlt]),
      Format.signBit_negative hlt, if_pos rfl, Format.body_negative hlt]
  obtain ⟨hz, hn⟩ := evaluateDecoder_flags_of_finite (s := s) (Format.lt_two_pow_N hlt) (Format.isFinite_of_lt hlt hne)
  obtain ⟨hz', hn'⟩ := evaluateDecoder_flags_of_finite (s := s) hneg hfneg
  refine ⟨(evaluateDecoder s (BitVec.ofNat s.cfg.N b)).dec,
    (evaluateDecoder s (BitVec.ofNat s.cfg.N (2 ^ (s.cfg.N - 1) + b))).dec,
    exec_of_decoderPattern rfl (wellFormed_operandClassPosFinite.mpr ⟨hne, hlt⟩),
    exec_of_decoderPattern rfl (wellFormed_operandClassNegFinite.mpr ⟨hne, hlt⟩), rfl, ?_, hz, hn, rfl, ?_, hz', hn', _,
    exec_decode_of_lt (Format.lt_two_pow_N habs),
    evaluateDecoder_ports_of_magnitude_eq hneg (Format.lt_two_pow_N habs) hfneg hfabs hview⟩
  · rw [evaluateDecoder_sign_ofNat, Format.signBit_of_lt hlt]
  · rw [evaluateDecoder_sign_ofNat, Format.signBit_negative hlt]

/-- An instruction with a word for its drive evaluates the decoder on that word. -/
theorem decoderPattern_of_encode {c : Cfg} {i : Instr} {n x : Nat} (h : encode c i = .word n x) :
    decoderPattern c i = some x := by
  cases i <;> cases h <;> rfl

theorem exec_of_word {s : State} {i : Instr} {n x : Nat} (hx : x < 2 ^ s.cfg.N) (h : decode s.cfg (.word n x) = .ok i) :
    exec i s = exec (.decode x) s := by
  obtain ⟨hwf, hencode⟩ := decodedDrivesAreEncodings s.cfg _ i h
  rw [exec_of_decoderPattern (decoderPattern_of_encode hencode) hwf, exec_decode_of_lt hx]

/-- Settles O38: a row read from a word evaluates the decoder on the word. -/
theorem patternRowsMeanDecode : Obligations.PatternRowsMeanDecode := by
  intro s x i
  refine ⟨fun h => exec_of_word ?_ h, fun h => exec_of_word ?_ h⟩
  · rw [decode_word_pattern] at h
    exact lt_of_decodeOperandClass h
  · rw [decode_word_view] at h
    exact Format.lt_two_pow_N (lt_of_decodeRegimeClass h)

/-- Every pattern is of one of the four operand classes. -/
theorem exists_decodeOperandClass {c : Cfg} {x : Nat} (hx : x < 2 ^ c.N) : ∃ i, decodeOperandClass c x = .ok i := by
  by_cases hz : x = Format.zeroPattern
  · exact ⟨_, hz ▸ decodeOperandClass_zero c⟩
  by_cases hn : x = Format.narPattern c
  · exact ⟨_, hn ▸ decodeOperandClass_nar c⟩
  exact ⟨_, decodeOperandClass_of_finite hx (Format.isFinite_iff.mpr ⟨hz, hn⟩)⟩

/-- Settles O37: every pattern decodes to a row, and rows and operations complete. -/
theorem everyPatternIsAValidOperand : Obligations.EveryPatternIsAValidOperand := by
  intro s x y hx hy
  obtain ⟨i, hi⟩ := exists_decodeOperandClass hx
  have hword : decode s.cfg (.word s.cfg.N x) = .ok i := (decode_word_pattern s.cfg x).trans hi
  exact ⟨⟨_, exec_decode_of_lt hx⟩, ⟨_, exec_mul_of_lt hx hy⟩, i, _, hword,
    (exec_of_word hx hword).trans (exec_decode_of_lt hx)⟩

end Sys2Proof.Machine
end

section
/-! A step on a line, by what its name and its operands resolve to (30_encoding.md R51, 70_reset_and_hazards.md R100). -/

namespace Sys2Proof.Machine

open Reference

section
variable {s : State} {mv : Move} {rest : List Move} (hp : s.pending = mv :: rest)
include hp

theorem step_of_fetch_error {r : Refusal} (h : fetchMove s mv = .error r) : step s = .refused r := by
  simp [step, hp, h]

theorem step_of_exec_refused {i : Instr} {r : Refusal} (hf : fetchMove s mv = .ok i)
    (he : exec i { s with pending := rest } = .refused r) : step s = .refused r := by
  simp [step, hp, hf, he]

end

/-- Settles O46: a step is the read instruction's outcome, with the line's name bound where there is a next state. -/
theorem stepRunsTheDecodedInstruction : Obligations.StepRunsTheDecodedInstruction := by
  intro s rest i
  refine ⟨fun hidle => by simp [step, hidle, idle], fun nbits w hp hd => ?_, fun l d hp hnew hd hi => ?_⟩
  · have hfetch := fetchMove_word s nbits w hd
    cases he : exec i { s with pending := rest } with
    | next t => exact step_of_fetch hp hfetch he
    | fault f => cases f
    | refused r => exact step_of_exec_refused hp hfetch he
  · have hfetch : fetchMove s (.line l) = .ok i := fetchMove_eq_ok.mpr ⟨d, resolveMove_line_eq_ok.mpr ⟨hnew, hd⟩, hi⟩
    cases he : exec i { s with pending := rest } with
    | next t => exact step_of_fetch hp hfetch he
    | fault f => cases f
    | refused r => exact step_of_exec_refused hp hfetch he

/-! Reading a line. -/

theorem resolveOperation_decode {names : List (Name × Bound)} {a : Operand} {d : Drive} :
    resolveOperation names (.decode a) = .ok d ↔ ∃ p, resolveOperand names a = .ok p ∧ d = .decoder p := by
  rw [resolveOperation]
  cases resolveOperand names a <;> simp [eq_comm]

theorem resolveOperation_mul {names : List (Name × Bound)} {a b : Operand} {d : Drive} :
    resolveOperation names (.mul a b) = .ok d ↔
      ∃ p q, resolveOperand names a = .ok p ∧ resolveOperand names b = .ok q ∧ d = .multiplier p q := by
  rw [resolveOperation]
  cases resolveOperand names a <;> cases resolveOperand names b <;> simp [eq_comm]

theorem decode_multiplier_eq_ok {c : Cfg} {p q : Nat} {i : Instr} :
    decode c (.multiplier p q) = .ok i ↔ (p < 2 ^ c.N ∧ q < 2 ^ c.N) ∧ i = .mul p q := by
  rw [decode]
  split <;> simp_all [eq_comm]

/-- A MUL line with a new name and operands that resolve to patterns binds the product `r` to the name. -/
def MulLineBinds (c : Cfg) (names : List (Name × Bound)) (n : Name) (a b : Operand) (r : Bits) : Prop :=
  names.lookup n = none ∧ ∃ p q, resolveOperand names a = .ok p ∧ resolveOperand names b = .ok q ∧
    p < 2 ^ c.N ∧ q < 2 ^ c.N ∧ r = Safety.patternBits c (mulRef c p q)

/-- What a completed MUL line leaves behind. -/
def BindsNext (s t : State) (n : Name) (r : Bits) (rest : List Move) : Prop :=
  t.cfg = s.cfg ∧ t.pending = rest ∧ t.names = (n, .pattern r) :: s.names

section
variable {s : State} {n : Name} {a b : Operand} {rest : List Move} (hp : s.pending = .line ⟨n, .mul a b⟩ :: rest)
include hp

theorem step_mul_line {r : Bits} (h : MulLineBinds s.cfg s.names n a b r) :
    ∃ t, step s = .next t ∧ BindsNext s t n r rest := by
  obtain ⟨hnew, p, q, ha, hb, hltp, hltq, rfl⟩ := h
  have hfetch : fetchMove s (.line ⟨n, .mul a b⟩) = .ok (.mul p q) :=
    fetchMove_eq_ok.mpr ⟨_, resolveMove_line_eq_ok.mpr ⟨hnew, resolveOperation_mul.mpr ⟨p, q, ha, hb, rfl⟩⟩,
      decode_multiplier_eq_ok.mpr ⟨⟨hltp, hltq⟩, rfl⟩⟩
  have hr := evaluateMultiplier_mul_r_eq_mulRef { s with pending := rest } hltp hltq
  refine ⟨_, step_of_fetch hp hfetch (exec_mul_of_lt (s := { s with pending := rest }) hltp hltq), rfl, rfl, ?_⟩
  rw [bindResult_line, ← hr]
  rfl

theorem mulLineBinds_of_step {t : State} (h : step s = .next t) : ∃ r, MulLineBinds s.cfg s.names n a b r := by
  obtain ⟨hidle, -⟩ | ⟨mv, rest', i, u, hp', hfetch, -, -⟩ := step_cases h
  · rw [hp] at hidle
    cases hidle
  · rw [hp] at hp'
    cases hp'
    obtain ⟨d, hresolve, hdecode⟩ := fetchMove_eq_ok.mp hfetch
    obtain ⟨hnew, hop⟩ := resolveMove_line_eq_ok.mp hresolve
    obtain ⟨p, q, ha, hb, rfl⟩ := resolveOperation_mul.mp hop
    obtain ⟨⟨hltp, hltq⟩, -⟩ := decode_multiplier_eq_ok.mp hdecode
    exact ⟨_, hnew, p, q, ha, hb, hltp, hltq, rfl⟩

/-- All that a step on a MUL line can have done. -/
theorem step_mul_line_cases {t : State} (h : step s = .next t) :
    ∃ r, MulLineBinds s.cfg s.names n a b r ∧ BindsNext s t n r rest := by
  obtain ⟨r, hr⟩ := mulLineBinds_of_step hp h
  obtain ⟨t', ht', hnext⟩ := step_mul_line hp hr
  cases ht'.symm.trans h
  exact ⟨r, hr, hnext⟩

end

/-- Settles O47: a line that resolves is one evaluation, whose result goes in front of the bound names. -/
theorem linesBindTheirResults : Obligations.LinesBindTheirResults := by
  intro s n a b p q rest hnew ha hb hltp hltq
  have hother {v : Bound} (k : Name) (hk : k ≠ n) : ((n, v) :: s.names).lookup k = s.names.lookup k := by
    rw [List.lookup_cons, beq_false_of_ne hk]
  refine ⟨fun hp => ?_, fun hp => ?_⟩
  · obtain ⟨t, hstep, -, hpending, hnames⟩ := step_mul_line hp ⟨hnew, p, q, ha, hb, hltp, hltq, rfl⟩
    refine ⟨t, hstep, hpending, ?_, fun k hk => ?_⟩
    · rw [hnames, List.lookup_cons_self]
    · rw [hnames, hother k hk]
  · have hfetch : fetchMove s (.line ⟨n, .decode a⟩) = .ok (.decode p) :=
      fetchMove_eq_ok.mpr ⟨_, resolveMove_line_eq_ok.mpr ⟨hnew, resolveOperation_decode.mpr ⟨p, ha, rfl⟩⟩, if_pos hltp⟩
    have hexec := exec_decode_of_lt (s := { s with pending := rest }) hltp
    exact ⟨_, step_of_fetch hp hfetch hexec, rfl, hexec, List.lookup_cons_self, hother⟩

/-! Lines that are refused. -/

theorem fetchMove_line_of_error {s : State} {l : Line} {r : Refusal} (hnew : s.names.lookup l.dst = none)
    (h : resolveOperation s.names l.op = .error r) : fetchMove s (.line l) = .error r := by
  simp [fetchMove, resolveMove, hnew, h]

theorem fetchMove_line_of_rejected {s : State} {l : Line} {d : Drive} {why : Reject} (hnew : s.names.lookup l.dst = none)
    (h : resolveOperation s.names l.op = .ok d) (hd : decode s.cfg d = .error why) :
    fetchMove s (.line l) = .error (.rejected why) := by
  simp [fetchMove, resolveMove, hnew, h, hd]

section
variable {names : List (Name × Bound)} {bad : Operand} {r : Refusal} (h : resolveOperand names bad = .error r)
include h

theorem resolveOperation_decode_error : resolveOperation names (.decode bad) = .error r := by
  simp [resolveOperation, h]

/-- Of two operands the first bad one is refused. -/
theorem resolveOperation_mul_error_first (other : Operand) : resolveOperation names (.mul bad other) = .error r := by
  rw [resolveOperation, h]

theorem resolveOperation_mul_error_second {other : Operand} {p : Nat} (hother : resolveOperand names other = .ok p) :
    resolveOperation names (.mul other bad) = .error r := by
  rw [resolveOperation, h, hother]

end

/-- An unbound name and a record are no patterns. -/
theorem resolveOperand_of_bad {names : List (Name × Bound)} {bad : Operand} {r : Refusal}
    (h : (∃ m, bad = .name m ∧ names.lookup m = none ∧ r = .nameNotBound m)
      ∨ (∃ m d, bad = .name m ∧ names.lookup m = some (.record d) ∧ r = .nameIsRecord m)) :
    resolveOperand names bad = .error r := by
  obtain ⟨m, rfl, hm, rfl⟩ | ⟨m, d, rfl, hm, rfl⟩ := h
  · simp [resolveOperand, hm]
  · simp [resolveOperand, hm]

/-- Settles O48: the name is checked first, then the operands in their order, then the width of a literal. -/
theorem linesOutsideTheNotationAreRefused : Obligations.LinesOutsideTheNotationAreRefused := by
  intro s n rest
  refine ⟨fun op hp hbound => step_of_fetch_error hp ?_, fun hnew => ⟨fun bad r hbad => ?_, fun x hx => ?_⟩⟩
  · simp [fetchMove, resolveMove, hbound]
  · have hr := resolveOperand_of_bad hbad
    exact ⟨fun hp => step_of_fetch_error hp (fetchMove_line_of_error hnew (resolveOperation_decode_error hr)),
      fun other hp => step_of_fetch_error hp (fetchMove_line_of_error hnew (resolveOperation_mul_error_first hr other)),
      fun other p hp hother =>
        step_of_fetch_error hp (fetchMove_line_of_error hnew (resolveOperation_mul_error_second hr hother))⟩
  · have hwide : ¬x < 2 ^ s.cfg.N := Nat.not_lt.mpr hx
    refine ⟨fun hp => step_of_fetch_error hp (fetchMove_line_of_rejected hnew rfl (if_neg hwide)),
      fun other p hother hp => ?_⟩
    obtain hp | hp := hp
    · exact step_of_fetch_error hp (fetchMove_line_of_rejected hnew (resolveOperation_mul.mpr ⟨x, p, rfl, hother, rfl⟩)
        (if_neg fun h => hwide h.1))
    · exact step_of_fetch_error hp (fetchMove_line_of_rejected hnew (resolveOperation_mul.mpr ⟨p, x, hother, rfl, rfl⟩)
        (if_neg fun h => hwide h.2))

/-! Two independent lines. -/

theorem resolveOperand_cons {names : List (Name × Bound)} {m : Name} {v : Bound} {a : Operand}
    (h : Safety.operandUses m a = false) : resolveOperand ((m, v) :: names) a = resolveOperand names a := by
  cases a with
  | lit x => rfl
  | name k =>
    have hk : (k == m) = false := h
    rw [resolveOperand, List.lookup_cons, hk, resolveOperand]

/-- Binding a name that a line neither binds nor uses does not change what the line binds. -/
theorem mulLineBinds_cons {c : Cfg} {names : List (Name × Bound)} {m n : Name} {v : Bound} {a b : Operand} {r : Bits}
    (hmn : n ≠ m) (ha : Safety.operandUses m a = false) (hb : Safety.operandUses m b = false) :
    MulLineBinds c ((m, v) :: names) n a b r ↔ MulLineBinds c names n a b r := by
  rw [MulLineBinds, MulLineBinds, resolveOperand_cons ha, resolveOperand_cons hb, List.lookup_cons, beq_false_of_ne hmn]

theorem lookup_swap {m n : Name} (hmn : m ≠ n) (v w : Bound) (names : List (Name × Bound)) (k : Name) :
    ((m, v) :: (n, w) :: names).lookup k = ((n, w) :: (m, v) :: names).lookup k := by
  simp only [List.lookup_cons]
  by_cases hkm : k = m
  · subst hkm
    simp [beq_false_of_ne hmn]
  · simp [beq_false_of_ne hkm]

theorem run_two {M : Host.Core} {s t : M.State} :
    M.run 2 s = .next t ↔ ∃ u, M.step s = .next u ∧ M.step u = .next t := by
  constructor
  · intro h
    cases hs : M.step s with
    | next u =>
      rw [Safety.run_succ_of_step hs] at h
      cases hu : M.step u with
      | next v =>
        rw [Safety.run_succ_of_step hu] at h
        cases h
        exact ⟨u, rfl, hu⟩
      | fault f => simp [Host.Core.run, hu] at h
      | refused r => simp [Host.Core.run, hu] at h
    | fault f => simp [Host.Core.run, hs] at h
    | refused r => simp [Host.Core.run, hs] at h
  · rintro ⟨u, hs, hu⟩
    rw [Safety.run_succ_of_step hs, Safety.run_succ_of_step hu]
    rfl

/-- Settles O49: neither line's result depends on the other's binding, and two new names are found in either order. -/
theorem independentLinesCommute : Obligations.IndependentLinesCommute := by
  rintro s t ⟨m, op₁⟩ ⟨n, op₂⟩ rest hindep hrun
  cases op₁ with
  | decode a => cases hindep
  | mul a b =>
  cases op₂ with
  | decode x => cases hindep
  | mul x y =>
  simp only [Safety.independentMuls, Bool.and_eq_true, bne_iff_ne, Bool.not_eq_true'] at hindep
  obtain ⟨⟨⟨⟨hmn, ha⟩, hb⟩, hx⟩, hy⟩ := hindep
  obtain ⟨s₁, hs₁, ht⟩ := run_two.mp hrun
  obtain ⟨r₁, hr₁, hcfg₁, hpending₁, hnames₁⟩ := step_mul_line_cases
    (s := { s with pending := .line ⟨m, .mul a b⟩ :: .line ⟨n, .mul x y⟩ :: rest }) rfl hs₁
  obtain ⟨r₂, hr₂, -, hpending₂, hnames₂⟩ := step_mul_line_cases hpending₁ ht
  rw [hcfg₁, hnames₁, mulLineBinds_cons hmn.symm hx hy] at hr₂
  obtain ⟨s₂, hs₂, hcfg₂, hpending₂', hnames₂'⟩ :=
    step_mul_line (s := { s with pending := .line ⟨n, .mul x y⟩ :: .line ⟨m, .mul a b⟩ :: rest }) rfl hr₂
  rw [← mulLineBinds_cons (v := .pattern r₂) hmn ha hb, ← hnames₂', ← hcfg₂] at hr₁
  obtain ⟨u, hu, -, hpending₁', hnames₁'⟩ := step_mul_line hpending₂' hr₁
  refine ⟨u, run_two.mpr ⟨s₂, hs₂, hu⟩, hpending₁'.trans hpending₂.symm, fun k => ?_⟩
  rw [hnames₁', hnames₂', hnames₂, hnames₁]
  exact lookup_swap hmn _ _ _ k

/-- Settles O54: the ports are bit vectors of their widths by construction, and a line's record is those ports. -/
theorem outputPortsReadAtTheirWidths : Obligations.OutputPortsReadAtTheirWidths := by
  intro s x hx
  have hwidth (s' : State) (X : BitVec s'.cfg.N) (p : OutputPort) :
      (readPort (evaluateDecoder s' X).dec p).width = portWidth s'.cfg p := by
    cases p <;> rfl
  refine ⟨_, exec_decode_of_lt hx, hwidth s _, fun n rest p hp hnew => ?_⟩
  have hfetch : fetchMove s (.line ⟨n, .decode (.lit x)⟩) = .ok (.decode x) :=
    fetchMove_eq_ok.mpr ⟨_, resolveMove_line_eq_ok.mpr ⟨hnew, rfl⟩, if_pos hx⟩
  have hexec := exec_decode_of_lt (s := { s with pending := rest }) hx
  refine ⟨_, _, step_of_fetch hp hfetch hexec, hexec, ?_, hwidth { s with pending := rest } _ p⟩
  rw [readField, bindResult_line, List.lookup_cons_self]
  rfl

end Sys2Proof.Machine
end

section
/-! A pipelined realisation's outputs are what its registers held, followed by the outputs of its inputs, cut to the number
of cycles (70_reset_and_hazards.md R101). -/

namespace Sys2Proof.Machine.Pipeline

variable {α β : Type} (f : α → β)

theorem outputs_eq (registers : List β) (inputs : List α) :
    outputs f registers inputs = (registers ++ inputs.map f).take inputs.length := by
  induction inputs generalizing registers with
  | nil => rfl
  | cons input later ih =>
    cases registers with
    | nil => simp [outputs, cycle, ih]
    | cons oldest rest => simp [outputs, cycle, ih]

theorem length_outputs (registers : List β) (inputs : List α) : (outputs f registers inputs).length = inputs.length := by
  rw [outputs_eq, List.length_take, List.length_append, List.length_map]
  exact Nat.min_eq_left (Nat.le_add_left _ _)

section
variable {registers : List β} {inputs : List α} {t : Nat}

theorem getElem?_outputs_delayed (h : t + registers.length < inputs.length) :
    (outputs f registers inputs)[t + registers.length]? = inputs[t]?.map f := by
  rw [outputs_eq, List.getElem?_take_of_lt h, List.getElem?_append_right (Nat.le_add_left _ _), Nat.add_sub_cancel,
    List.getElem?_map]

theorem getElem?_outputs_first (h : t < registers.length) (ht : t < inputs.length) :
    (outputs f registers inputs)[t]? = registers[t]? := by
  rw [outputs_eq, List.getElem?_take_of_lt ht, List.getElem?_append_left h]

end

/-- Settles O50: one statement about any block function, for MUL and for DECODE. -/
theorem pipelineDelaysByLatency : Obligations.PipelineDelaysByLatency := fun _ =>
  ⟨fun regs inputs _ => ⟨getElem?_outputs_delayed _, getElem?_outputs_first _, length_outputs _ regs inputs⟩,
    fun regs inputs _ => ⟨getElem?_outputs_delayed _, getElem?_outputs_first _, length_outputs _ regs inputs⟩⟩

end Sys2Proof.Machine.Pipeline
end

section
/-! Stored patterns (20_memory.md R30): the bytes hold the pattern, in either order. -/

namespace Sys2Proof

theorem length_bytesFromLow (x n : Nat) : (bytesFromLow x n).length = n := by
  induction n generalizing x with
  | zero => rfl
  | succ n ih => rw [bytesFromLow, List.length_cons, ih]

theorem valueFromLow_bytesFromLow (x n : Nat) : valueFromLow (bytesFromLow x n) = x % 256 ^ n := by
  induction n generalizing x with
  | zero => rw [pow_zero, Nat.mod_one, bytesFromLow, valueFromLow]
  | succ n ih => rw [bytesFromLow, valueFromLow, ih, BitVec.toNat_ofNat, pow_succ' 256 n, Nat.mod_mul]

theorem two_pow_N_le_bytes (c : Cfg) : 2 ^ c.N ≤ 256 ^ byteCount c.N := by
  have hbits : (256 : Nat) = 2 ^ 8 := rfl
  rw [hbits, ← pow_mul]
  refine Nat.pow_le_pow_right Nat.two_pos ?_
  unfold byteCount
  omega

theorem valueFromLow_of_pattern {c : Cfg} {x : Nat} (hx : x < 2 ^ c.N) :
    valueFromLow (bytesFromLow x (byteCount c.N)) = x := by
  rw [valueFromLow_bytesFromLow, Nat.mod_eq_of_lt (Nat.lt_of_lt_of_le hx (two_pow_N_le_bytes c))]

/-- Settles O51: the bytes are read back in the order they were stored in. -/
theorem byteOrderDoesNotMatter : Obligations.ByteOrderDoesNotMatter := by
  intro c order x hx
  have hlength : (patternBytes c order x).length = byteCount c.N := by
    cases order with
    | littleEndian => exact length_bytesFromLow x _
    | bigEndian => rw [patternBytes, List.length_reverse, length_bytesFromLow]
  refine ⟨hlength, ?_⟩
  cases order with
  | littleEndian =>
    calc decodeBytes c .littleEndian (bytesFromLow x (byteCount c.N))
        = decodeOperandClass c (valueFromLow (bytesFromLow x (byteCount c.N))) := if_pos hlength
      _ = decodeOperandClass c x := by rw [valueFromLow_of_pattern hx]
  | bigEndian =>
    calc decodeBytes c .bigEndian (bytesFromLow x (byteCount c.N)).reverse
        = decodeOperandClass c (valueFromLow (bytesFromLow x (byteCount c.N)).reverse.reverse) := if_pos hlength
      _ = decodeOperandClass c x := by rw [List.reverse_reverse, valueFromLow_of_pattern hx]

/-- Settles O53: each word evaluates to its row. -/
theorem writtenWordsDecode : Obligations.WrittenWordsDecode := by
  unfold Obligations.WrittenWordsDecode
  decide

end Sys2Proof
end
